-- ==== Sys2Proof/Word.lean ====
section
/-! DEFINITION. The word and byte types and their plainest arithmetic. -/

namespace Sys2Proof

/-- A 32-bit register value or command word (R6: REG_BITS = 32). -/
abbrev Word := BitVec 32

/-- A byte, which is also a Symbol (R6: SYM_BITS = 8). -/
abbrev Byte := BitVec 8

/-- `ceil8(n) = (n + 7) div 8` (R8). -/
def ceil8 (n : Nat) : Nat := (n + 7) / 8

end Sys2Proof
end

