-- ==== Sys2Proof/Syntax.lean ====
section
/-! DEFINITION. The commands of the block, one constructor per row of the opcode table (R81).
A command word has no operand field (R83), so no constructor has an argument. -/

namespace Sys2Proof

/-- The eleven commands (R81). -/
inductive Instr where
  | nop
  | freq
  | build
  | gencode
  | pack
  | unpack
  | encode
  | decode
  | wrcont
  | rdcont
  | clr
deriving DecidableEq, Repr, Inhabited

/-- The opcode, bits 7:0 of the command word (R81). -/
def Instr.opcode : Instr → Byte
  | .nop => 0x00#8
  | .freq => 0x01#8
  | .build => 0x02#8
  | .gencode => 0x03#8
  | .pack => 0x04#8
  | .unpack => 0x05#8
  | .encode => 0x06#8
  | .decode => 0x07#8
  | .wrcont => 0x08#8
  | .rdcont => 0x09#8
  | .clr => 0x0F#8

end Sys2Proof
end

