-- ==== Sys2Proof/WellFormed.lean ====
section
/-! DEFINITION. Which command words are well formed (R80, R82) and which instructions are. -/

namespace Sys2Proof

/-- Check 1 of a command word: bits 31:8 are zero (R80). -/
def CommandWord.upperZero (w : Word) : Bool := w.extractLsb' 8 24 == 0#24

/-- Check 2 of a command word: bits 7:0 are a defined opcode, not one of the reserved 0x0A to 0x0E and
0x10 to 0xFF (R81, R82). -/
def CommandWord.opcodeDefined (w : Word) : Bool :=
  let op := (w.extractLsb' 0 8).toNat
  decide (op ≤ 0x09) || op == 0x0F

/-- A command word is legal iff both checks pass (R82). -/
def CommandWord.wellFormed (w : Word) : Bool :=
  CommandWord.upperZero w && CommandWord.opcodeDefined w

/-- An instruction carries no operand (R83); what is left to check is that its opcode is one of the map's,
which makes its word legal. -/
def Instr.wellFormed (i : Instr) : Bool :=
  CommandWord.wellFormed (i.opcode.setWidth 32)

end Sys2Proof
end

