-- ==== Sys2Proof/Decode.lean ====
section
/-! DEFINITION. The decoder of command words, total on every 32-bit word, rejecting by name, and the encoder
(R80, R81, R82). A command reaches the engine only as the word the host writes to CMD (R72), a whole register
value with no byte order inside the architecture (R62), so the decoder takes a word. -/

namespace Sys2Proof

/-- Why a word is no command (R82). -/
inductive Reject where
  /-- A bit of 31:8 is set, whatever the low byte. -/
  | upperBitsNotZero (w : Word)
  /-- The opcode is reserved: 0x0A to 0x0E or 0x10 to 0xFF. -/
  | reservedOpcode (op : Byte)
deriving DecidableEq, Repr

/-- The command an opcode selects (R81). -/
def decodeOpcode (op : Byte) : Except Reject Instr :=
  match op.toNat with
  | 0x00 => .ok .nop
  | 0x01 => .ok .freq
  | 0x02 => .ok .build
  | 0x03 => .ok .gencode
  | 0x04 => .ok .pack
  | 0x05 => .ok .unpack
  | 0x06 => .ok .encode
  | 0x07 => .ok .decode
  | 0x08 => .ok .wrcont
  | 0x09 => .ok .rdcont
  | 0x0F => .ok .clr
  | _ => .error (.reservedOpcode op)

/-- The decoder of R81: a non-zero bit in 31:8 is illegal, else bits 7:0 select by the table, anything else
is illegal. -/
def decodeWord (w : Word) : Except Reject Instr :=
  if w.extractLsb' 8 24 ≠ 0#24 then .error (.upperBitsNotZero w)
  else decodeOpcode (w.extractLsb' 0 8)

/-- The command word of an instruction: format C, bits 31:8 zero, bits 7:0 the opcode (R80, R81). -/
def encode (i : Instr) : Word := i.opcode.setWidth 32

/-- The decoder's answer on an instruction whose bits are `w`, numbered as the opcode table numbers them.
Every row has 32 bits; bits above `nbits` are 0, and a number that needs more than 32 bits is no command
word. -/
def decodeTableWord (nbits w : Nat) : Option Instr :=
  if w < 2 ^ nbits ∧ w < 2 ^ 32 then
    match decodeWord (BitVec.ofNat 32 w) with
    | .ok i => some i
    | .error _ => none
  else none

end Sys2Proof
end

