-- ==== Sys2Proof/Machine/Cells.lean ====
section
/-! DEFINITION. The cell types of the nine address spaces (R40 to R48) and the accesses of the host port. -/

namespace Sys2Proof.Machine

/-- The nine address spaces (R40). -/
inductive SpaceId where
  | reg | inp | freq | node | code | bits | pay | cont | out
deriving DecidableEq, Repr, Inhabited

/-- The space id of R40, which is what ERRINFO carries for Capacity (R256). -/
def SpaceId.number : SpaceId → Nat
  | .reg => 0
  | .inp => 1
  | .freq => 2
  | .node => 3
  | .code => 4
  | .bits => 5
  | .pay => 6
  | .cont => 7
  | .out => 8

/-- The kind field of a node record (R43). -/
inductive NodeKind where
  | leaf
  | internal
  | unary
  /-- The value 3, which no rule writes (R43, U22); only an unspecified cell can hold it. -/
  | reserved
deriving DecidableEq, Repr, Inhabited

/-- A node record: kind 2, sym 8, freq 40, left 9, right 9 bits (R43). -/
structure NodeRec where
  kind : NodeKind
  sym : Byte
  freq : BitVec 40
  left : BitVec 9
  right : BitVec 9
deriving DecidableEq, Repr, Inhabited

/-- A code: a bit-string of length 0..255, first bit first (R44, R6 MAX_CODE_LEN). -/
@[ext] structure Code where
  bits : List Bool
  short : bits.length ≤ 255
deriving DecidableEq, Repr

/-- The first 255 bits of a bit-string as a code; a bit-string of at most 255 bits is kept whole. -/
def Code.clip (b : List Bool) : Code :=
  ⟨b.take 255, by simp [List.length_take]⟩

/-- A CODE cell as the host reads and writes it: the pair (valid, code) (R44). -/
structure CodeValue where
  valid : Bool
  code : Code
deriving DecidableEq, Repr

/-- A CODE cell as it is held. When valid = 0 the code part is unspecified (R44): the cell keeps the number
of the draw its code part is. -/
inductive CodeCell where
  | valid (c : Code)
  | invalid (draw : Nat)
deriving DecidableEq, Repr

/-- The value of one cell, as the host port returns it: of REG and FREQ a word, of IN, PAY, CONT and OUT a
byte, of NODE a record, of CODE a pair, of BITS a bit (R40). -/
inductive Value where
  | word (w : Word)
  | byte (b : Byte)
  | node (r : NodeRec)
  | code (e : CodeValue)
  | bit (b : Bool)
deriving DecidableEq, Repr

/-- `HostWrite(space, i, v)`: each write carries a value of its space's cell type (R64, R66). -/
inductive CellWrite where
  | reg (i : Nat) (v : Word)
  | inp (i : Nat) (v : Byte)
  | freq (i : Nat) (v : Word)
  | node (i : Nat) (v : NodeRec)
  | code (i : Nat) (v : CodeValue)
  | bits (i : Nat) (v : Bool)
  | pay (i : Nat) (v : Byte)
  | cont (i : Nat) (v : Byte)
  | out (i : Nat) (v : Byte)
deriving DecidableEq, Repr

/-- What the outside can do to the block: the two host accesses (R66) and the reset event (R290). -/
inductive Input where
  | reset
  | read (space : SpaceId) (i : Nat)
  | write (access : CellWrite)
deriving DecidableEq, Repr

end Sys2Proof.Machine
end

