-- ==== Sys2Proof/Config.lean ====
section
/-! DEFINITION. What an implementation fixes (the open parameters of R7) and the free values of the cells the
spec calls unspecified (R11). Every constant here is opaque: no proof can see what it is. -/

namespace Sys2Proof

/-- The five buffer capacities, each in 0..2^32-1 (R7). -/
structure Caps where
  inp : Word
  bits : Word
  pay : Word
  cont : Word
  out : Word
deriving DecidableEq, Repr, Inhabited

/-- DESIGN CHOICE (log entry 1): the capacities of the machine that `State.reset` describes, open parameters
(R7, U17). -/
opaque Config.caps : Caps

/-- HOSTPORT_MAP (R7, U18): where a (space, index) pair lies on a physical bus; read by no rule. -/
opaque Config.hostportMap : Machine.SpaceId → Nat → Nat

/-- The unspecified bytes of IN, PAY, CONT and OUT (R11, log entry 2): the space, the number of the draw,
the cell's index. -/
opaque Config.freeByte : Machine.SpaceId → Nat → Nat → Byte

/-- The unspecified cells of BITS (R11, log entry 2): the number of the draw, the cell's index. -/
opaque Config.freeBit : Nat → Nat → Bool

/-- The unspecified cells of NODE (R11, log entry 2): the number of the draw, the cell's index. -/
opaque Config.freeNode : Nat → Nat → Machine.NodeRec

/-- The word a host read of FREQ at or beyond index 256 returns (R40, log entry 3). -/
opaque Config.freeWord : Nat → Nat → Word

/-- The valid bit a host read of CODE at or beyond index 256 returns (R40, log entry 3). -/
opaque Config.freeValid : Nat → Nat → Bool

/-- The bits behind `Config.freeCode`. -/
opaque Config.freeBits : Nat → Nat → List Bool

/-- The unspecified code part of a CODE cell (R44, log entry 4): the number of the draw, the cell's index.
Every code is a possible draw. -/
def Config.freeCode (draw i : Nat) : Machine.Code := Machine.Code.clip (Config.freeBits draw i)

end Sys2Proof
end

