-- ==== Sys2Proof/Machine/State.lean ====
section
/-! DEFINITION. The state of one block as plain data (R20), the reasons a step can stop, and the state after
reset (R53). -/

namespace Sys2Proof.Machine

/-- The cells of a space that hold a definite value, by rising index. A cell that is not listed reads as the
space says: 0 in FREQ (R53), invalid in CODE (R53), unspecified elsewhere (R11). -/
abbrev Memory (α : Type) := List (Nat × α)

/-- A space some of whose cells may be unspecified: its listed cells, and the number of the draw that its
unlisted cells are (R11, log entry 2). -/
structure Space (α : Type) where
  draw : Nat
  cells : Memory α
deriving DecidableEq, Repr

/-- The four flags of STATUS (R23). -/
structure Status where
  busy : Bool
  done : Bool
  err : Bool
  empty : Bool
deriving DecidableEq, Repr

/-- The state: STATUS and the stored registers (R21), the eight memories (R40), and the model's own four fields.
CMD stores nothing (R22) and NSYM is a view of CODE (R38). -/
structure State where
  status : Status
  errcode : Word
  errinfo : Word
  inLen : Word
  osc : Word
  payLen : Word
  contLen : Word
  outLen : Word
  bitsLen : Word
  nnodes : Word
  root : Word
  inp : Space Byte
  freq : Memory Word
  node : Space NodeRec
  code : Space CodeCell
  bits : Space Bool
  pay : Space Byte
  cont : Space Byte
  out : Space Byte
  /-- The model's own: the capacities, parameters that no step changes (R7, log entry 1). -/
  caps : Caps
  /-- The model's own: the accesses the outside has not yet made, next first (R52, log entry 5). -/
  inputs : List Input
  /-- The model's own: what the host port returned for the latest host read (log entry 6). -/
  reply : Option Value
  /-- The model's own: the number of the next draw (R11, log entry 2). -/
  draws : Nat
deriving DecidableEq, Repr

/-- Why the machine stops with a fault. -/
inductive Fault where
  /-- Raised by GENCODE when NODE, NNODES and ROOT break the tree invariant of R50, so that its walk leaves
  NODE[0..NNODES), meets a kind no rule writes, or does not end. Safe: R50 says no such state can be
  observed, and the spec gives the walk no effect there (log entry 7). -/
  | notATree
deriving DecidableEq, Repr

/-- Why the machine gives a step no meaning. -/
inductive Refusal where
  /-- Raised by an arm of exec that has no meaning yet. Safe: the machine stops. -/
  | notModelled (mnemonic : String)
  /-- Raised by the host port when the host makes any access but a read of STATUS while STATUS.BUSY = 1, which R300
  calls UNPREDICTABLE and refuses. Safe: the machine stops; BUSY is 0 in every reachable state. -/
  | hostAccessWhileBusy
deriving DecidableEq, Repr

/-- The value of ROOT when there is no tree (R37). -/
def noRoot : Word := 0xFFFF_FFFF#32

/-- The state right after reset (R53, R290): every register 0 but ROOT, every FREQ cell 0, every CODE entry
invalid, every other cell unspecified. The capacities are the implementation's, no host access is pending. -/
def State.reset : State where
  status := { busy := false, done := false, err := false, empty := false }
  errcode := 0#32
  errinfo := 0#32
  inLen := 0#32
  osc := 0#32
  payLen := 0#32
  contLen := 0#32
  outLen := 0#32
  bitsLen := 0#32
  nnodes := 0#32
  root := noRoot
  inp := { draw := 0, cells := [] }
  freq := []
  node := { draw := 0, cells := [] }
  code := { draw := 0, cells := [] }
  bits := { draw := 0, cells := [] }
  pay := { draw := 0, cells := [] }
  cont := { draw := 0, cells := [] }
  out := { draw := 0, cells := [] }
  caps := Config.caps
  inputs := []
  reply := none
  draws := 1

end Sys2Proof.Machine
end

