-- ==== Sys2Proof/Machine/Flags.lean ====
section
/-! DEFINITION. STATUS: its word, the handshake of a command, and the flags the commands write (R23 to R27). -/

namespace Sys2Proof.Machine

/-- STATUS as the host reads it: bit 0 BUSY, bit 1 DONE, bit 2 ERR, bit 3 EMPTY, bits 31:4 zero (R23). -/
def Status.word (f : Status) : Word :=
  BitVec.ofNat 32 (f.busy.toNat + 2 * f.done.toNat + 4 * f.err.toNat + 8 * f.empty.toNat)

/-- A command is accepted: DONE <- 0, BUSY <- 1 (R230). -/
def State.accept (s : State) : State :=
  { s with status := { s.status with done := false, busy := true } }

/-- A command ends: BUSY <- 0, DONE <- 1, after a `raise` too (R230, R24). -/
def State.finish (s : State) : State :=
  { s with status := { s.status with busy := false, done := true } }

/-- EMPTY, written on normal end by FREQ, ENCODE and DECODE (R26). -/
def State.setEmpty (e : Bool) (s : State) : State :=
  { s with status := { s.status with empty := e } }

end Sys2Proof.Machine
end

