-- ==== Sys2Proof/Machine/Ops.lean ====
section
/-! DEFINITION. The named operations over memories and registers, the frame every command runs in, the error
effect and the return from it. -/

namespace Sys2Proof.Machine

/-! ### Memories -/

/-- The value listed for cell `i`, if one is. -/
def Memory.lookup {α : Type} : Memory α → Nat → Option α
  | [], _ => none
  | (j, v) :: rest, i => if j = i then some v else Memory.lookup rest i

/-- List the value `v` for cell `i`, keeping the indexes rising. -/
def Memory.insert {α : Type} : Memory α → Nat → α → Memory α
  | [], i, v => [(i, v)]
  | (j, w) :: rest, i, v =>
    if i < j then (i, v) :: (j, w) :: rest
    else if i = j then (i, v) :: rest
    else (j, w) :: Memory.insert rest i v

/-- List no value for cell `i`. -/
def Memory.erase {α : Type} (m : Memory α) (i : Nat) : Memory α :=
  m.filter (fun e => e.1 ≠ i)

/-- Write cell `i`, where an unlisted cell reads as `dflt` (`none`: as no definite value). Writing the value an
unlisted cell reads as takes the entry out. -/
def Memory.write {α : Type} [DecidableEq α] (dflt : Option α) (m : Memory α) (i : Nat) (v : α) : Memory α :=
  if dflt = some v then Memory.erase m i else Memory.insert m i v

/-- Consecutive cells from index `i` on. -/
def Memory.fill {α : Type} : List α → Nat → Memory α
  | [], _ => []
  | v :: vs, i => (i, v) :: Memory.fill vs (i + 1)

/-- The indexes rise strictly. -/
def Memory.rising {α : Type} : Memory α → Bool
  | [] => true
  | [_] => true
  | a :: b :: rest => decide (a.1 < b.1) && Memory.rising (b :: rest)

/-- The canonical form of a memory of `size` cells whose unlisted cells read as `dflt`: strictly rising
indexes, all below `size`, and no entry equal to what an unlisted cell reads as. -/
def Memory.wf {α : Type} [DecidableEq α] (dflt : Option α) (size : Nat) (m : Memory α) : Bool :=
  Memory.rising m && m.all (fun e => decide (e.1 < size) && decide (dflt ≠ some e.2))

/-- The current value of cell `i` of a space: the listed one, else the unspecified one (R11). -/
def Space.read {α : Type} (free : Nat → Nat → α) (sp : Space α) (i : Nat) : α :=
  (Memory.lookup sp.cells i).getD (free sp.draw i)

/-- Write one cell of a space whose unlisted cells are unspecified. -/
def Space.put {α : Type} [DecidableEq α] (sp : Space α) (i : Nat) (v : α) : Space α :=
  { sp with cells := Memory.write none sp.cells i v }

/-- A space whose cells below `vs.length` hold `vs` and whose other cells are all unspecified, as draw `d`
(R49, R259). -/
def Space.filled {α : Type} (d : Nat) (vs : List α) : Space α :=
  { draw := d, cells := Memory.fill vs 0 }

/-! ### Reading cells and registers -/

/-- The current value of IN[i] (R41). -/
def State.inAt (s : State) (i : Nat) : Byte := s.inp.read (Config.freeByte .inp) i

/-- The current value of FREQ[i]: a cell that is not listed holds 0 (R42, R53). -/
def State.freqAt (s : State) (i : Nat) : Word := (Memory.lookup s.freq i).getD 0#32

/-- The current value of NODE[i] (R43). -/
def State.nodeAt (s : State) (i : Nat) : NodeRec := s.node.read Config.freeNode i

/-- The cell that CODE[i] holds: invalid where none is listed (R44, R53). -/
def State.codeCell (s : State) (i : Nat) : CodeCell :=
  (Memory.lookup s.code.cells i).getD (.invalid s.code.draw)

/-- A CODE cell as a pair: the code part of an invalid one is unspecified (R44). -/
def CodeCell.value (i : Nat) : CodeCell → CodeValue
  | .valid c => { valid := true, code := c }
  | .invalid d => { valid := false, code := Config.freeCode d i }

/-- The current value of CODE[i] (R44). -/
def State.codeAt (s : State) (i : Nat) : CodeValue := CodeCell.value i (s.codeCell i)

/-- The current value of BITS[i] (R45). -/
def State.bitAt (s : State) (i : Nat) : Bool := s.bits.read Config.freeBit i

/-- The current value of PAY[i] (R46). -/
def State.payAt (s : State) (i : Nat) : Byte := s.pay.read (Config.freeByte .pay) i

/-- The current value of CONT[i] (R47). -/
def State.contAt (s : State) (i : Nat) : Byte := s.cont.read (Config.freeByte .cont) i

/-- The current value of OUT[i] (R48). -/
def State.outAt (s : State) (i : Nat) : Byte := s.out.read (Config.freeByte .out) i

/-- NSYM: how many of CODE[0..255] are valid (R38). -/
def State.nsym (s : State) : Nat := ((List.range 256).filter (fun k => (s.codeAt k).valid)).length

/-- The current value of register `n` as the host reads it: CMD and every reserved number read 0 (R21, R22). -/
def State.register (s : State) (n : Nat) : Word :=
  match n with
  | 1 => s.status.word
  | 2 => s.errcode
  | 3 => s.errinfo
  | 4 => s.inLen
  | 5 => s.osc
  | 6 => s.payLen
  | 7 => s.contLen
  | 8 => s.outLen
  | 9 => s.bitsLen
  | 10 => s.nnodes
  | 11 => s.root
  | 12 => BitVec.ofNat 32 s.nsym
  | _ => 0#32

/-- The current value of cell `i` of a space (R40), whatever the space's size. -/
def State.cell (s : State) (sp : SpaceId) (i : Nat) : Value :=
  match sp with
  | .reg => .word (s.register i)
  | .inp => .byte (s.inAt i)
  | .freq => .word (s.freqAt i)
  | .node => .node (s.nodeAt i)
  | .code => .code (s.codeAt i)
  | .bits => .bit (s.bitAt i)
  | .pay => .byte (s.payAt i)
  | .cont => .byte (s.contAt i)
  | .out => .byte (s.outAt i)

/-- How many cells a space has (R40). Every register number may be read or written: the reserved ones read 0 and
ignore writes (R21). -/
def State.inRange (s : State) (sp : SpaceId) (i : Nat) : Bool :=
  match sp with
  | .reg => true
  | .inp => decide (i < s.caps.inp.toNat)
  | .freq => decide (i < 256)
  | .node => decide (i < 511)
  | .code => decide (i < 256)
  | .bits => decide (i < s.caps.bits.toNat)
  | .pay => decide (i < s.caps.pay.toNat)
  | .cont => decide (i < s.caps.cont.toNat)
  | .out => decide (i < s.caps.out.toNat)

/-- The unspecified value a host read beyond a space's size returns (R40, log entry 3). -/
def freeValue (draw : Nat) (sp : SpaceId) (i : Nat) : Value :=
  match sp with
  | .reg => .word 0#32
  | .inp => .byte (Config.freeByte .inp draw i)
  | .freq => .word (Config.freeWord draw i)
  | .node => .node (Config.freeNode draw i)
  | .code => .code { valid := Config.freeValid draw i, code := Config.freeCode draw i }
  | .bits => .bit (Config.freeBit draw i)
  | .pay => .byte (Config.freeByte .pay draw i)
  | .cont => .byte (Config.freeByte .cont draw i)
  | .out => .byte (Config.freeByte .out draw i)

/-- `HostRead(space, i)` (R66, R21, R40). Reading changes nothing (R64). -/
def State.hostRead (s : State) (sp : SpaceId) (i : Nat) : Value :=
  if s.inRange sp i then s.cell sp i else freeValue s.draws sp i

/-! ### Host writes -/

/-- A host write of register `n` other than CMD: a length above its capacity, a read-only register and a
reserved number are ignored; OSC takes every value (R21). -/
def State.writeRegister (s : State) (n : Nat) (v : Word) : State :=
  match n with
  | 4 => if v.toNat ≤ s.caps.inp.toNat then { s with inLen := v } else s
  | 5 => { s with osc := v }
  | 6 => if v.toNat ≤ s.caps.pay.toNat then { s with payLen := v } else s
  | 7 => if v.toNat ≤ s.caps.cont.toNat then { s with contLen := v } else s
  | 9 => if v.toNat ≤ s.caps.bits.toNat then { s with bitsLen := v } else s
  | _ => s

/-- A host write of a CODE cell. A pair with valid = 0 leaves the code part unspecified, a draw of its own
(R44, log entry 4). -/
def State.writeCode (s : State) (i : Nat) (v : CodeValue) : State :=
  if v.valid then
    { s with code :=
      { s.code with cells := Memory.write (some (.invalid s.code.draw)) s.code.cells i (.valid v.code) } }
  else
    { s with
      code := { s.code with
        cells := Memory.write (some (.invalid s.code.draw)) s.code.cells i (.invalid s.draws) }
      draws := s.draws + 1 }

/-- `HostWrite(space, i, v)` other than a write of CMD: ignored in a read-only space and beyond a space's size
(R66, R40). -/
def State.hostWrite (s : State) : CellWrite → State
  | .reg n v => s.writeRegister n v
  | .inp i v => if s.inRange .inp i then { s with inp := s.inp.put i v } else s
  | .freq i v => if s.inRange .freq i then { s with freq := Memory.write (some 0#32) s.freq i v } else s
  | .node _ _ => s
  | .code i v => if s.inRange .code i then s.writeCode i v else s
  | .bits i v => if s.inRange .bits i then { s with bits := s.bits.put i v } else s
  | .pay i v => if s.inRange .pay i then { s with pay := s.pay.put i v } else s
  | .cont i v => if s.inRange .cont i then { s with cont := s.cont.put i v } else s
  | .out _ _ => s

/-- The inputs still to come once the next one has been taken (log entry 5). -/
def State.setInputs (rest : List Input) (s : State) : State :=
  { s with inputs := rest }

/-! ### What the commands store. Cells at and beyond the stored ones become unspecified (R49). -/

/-- FREQ[0..255]. -/
def State.storeFreq (m : Memory Word) (s : State) : State :=
  { s with freq := m }

/-- NODE[0..NNODES), NNODES and ROOT. -/
def State.storeTree (arena : List NodeRec) (root : Word) (s : State) : State :=
  { s with
    node := Space.filled s.draws arena
    nnodes := BitVec.ofNat 32 arena.length
    root := root
    draws := s.draws + 1 }

/-- All 256 cells of CODE: the listed ones, every other one invalid. -/
def State.storeCode (m : Memory CodeCell) (s : State) : State :=
  { s with code := { draw := s.draws, cells := m }, draws := s.draws + 1 }

/-- BITS[0..|b|). -/
def State.storeBits (b : List Bool) (s : State) : State :=
  { s with bits := Space.filled s.draws b, draws := s.draws + 1 }

/-- BITS_LEN. -/
def State.setBitsLen (v : Word) (s : State) : State :=
  { s with bitsLen := v }

/-- PAY[0..PAY_LEN) and PAY_LEN. -/
def State.storePay (p : List Byte) (s : State) : State :=
  { s with pay := Space.filled s.draws p, payLen := BitVec.ofNat 32 p.length, draws := s.draws + 1 }

/-- CONT[0..CONT_LEN) and CONT_LEN. -/
def State.storeCont (c : List Byte) (s : State) : State :=
  { s with cont := Space.filled s.draws c, contLen := BitVec.ofNat 32 c.length, draws := s.draws + 1 }

/-- OUT[0..OUT_LEN) and OUT_LEN. -/
def State.storeOut (o : List Byte) (s : State) : State :=
  { s with out := Space.filled s.draws o, outLen := BitVec.ofNat 32 o.length, draws := s.draws + 1 }

/-- OSC. -/
def State.setOsc (v : Word) (s : State) : State :=
  { s with osc := v }

/-! ### Errors: the error effect, the frame of a command, the return -/

/-- The error kinds (R250). -/
inductive ErrorKind where
  | malformedHeader
  | truncatedPayload
  | invalidCode
  | missingCode
  | capacity
  | illegalCommand
deriving DecidableEq, Repr

/-- The number ERRCODE holds (R250). -/
def ErrorKind.number : ErrorKind → Nat
  | .malformedHeader => 1
  | .truncatedPayload => 2
  | .invalidCode => 3
  | .missingCode => 4
  | .capacity => 5
  | .illegalCommand => 6

/-- `raise E(info)` (R10). -/
structure Raise where
  kind : ErrorKind
  info : Nat
deriving DecidableEq, Repr

/-- The latch of the error effect: ERR, ERRCODE, ERRINFO (R259). -/
def State.latch (r : Raise) (s : State) : State :=
  { s with
    status := { s.status with err := true }
    errcode := BitVec.ofNat 32 r.kind.number
    errinfo := BitVec.ofNat 32 r.info }

/-- What the error effect does to the destinations of a command: the registers of R259's list become 0, RDCONT's
CODE entries invalid, the cells of the buffers it writes unspecified. An illegal word has no destination. -/
def State.spoil (c : Option Instr) (s : State) : State :=
  match c with
  | some .pack => s.storePay []
  | some .unpack => (s.storeBits []).setBitsLen 0#32
  | some .encode => (s.storePay []).setOsc 0#32
  | some .decode => s.storeOut []
  | some .wrcont => s.storeCont []
  | some .rdcont => ((s.storePay []).setOsc 0#32).storeCode []
  | some .nop | some .freq | some .build | some .gencode | some .clr | none => s

/-- The error effect ("trap entry") of R259, as of the state in which the command was accepted: nothing but the
latch, the command's destinations and the handshake changes. -/
def State.raise (c : Option Instr) (r : Raise) (s : State) : State :=
  ((s.spoil c).latch r).finish

/-- The frame every command but CLR runs in (R230): ignored while an error is latched, else accepted and run to
its normal end or its first `raise`. -/
def command (i : Instr) (body : State → Except Raise State) (s : State) : State :=
  if s.status.err then s
  else
    match body s.accept with
    | .ok t => t.finish
    | .error r => s.accept.raise (some i) r

/-- A word that is no command: IllegalCommand with ERRINFO = the word, ignored while an error is latched
(R230, R231). -/
def illegalCommand (w : Word) (s : State) : State :=
  if s.status.err then s
  else s.accept.raise none { kind := .illegalCommand, info := w.toNat }

/-- The reset state of R53, with the model's own fields kept: every unspecified cell is a new draw. -/
def State.clear (s : State) : State :=
  { State.reset with
    inp := Space.filled s.draws []
    node := Space.filled s.draws []
    code := { draw := s.draws, cells := [] }
    bits := Space.filled s.draws []
    pay := Space.filled s.draws []
    cont := Space.filled s.draws []
    out := Space.filled s.draws []
    caps := s.caps
    inputs := s.inputs
    reply := s.reply
    draws := s.draws + 1 }

/-- CLR, the return from an error ("trap return", R264): the reset state with DONE = 1 (R234). -/
def State.clearDone (s : State) : State := s.clear.finish

end Sys2Proof.Machine
end

