-- ==== Sys2Proof/Machine/Operands.lean ====
section
/-! DEFINITION. The operands of the commands: buffers as sequences, bit-strings in bytes (R150, R151), the u32
fields of a container (R88), and the Code Table with its validity (R170). -/

namespace Sys2Proof.Machine

/-! ### Bit-strings in bytes -/

/-- The byte whose bit 7 - k is `f k` for k in 0..7 (R150). -/
def byteOfBits (f : Nat → Bool) : Byte :=
  BitVec.ofNat 8
    (128 * (f 0).toNat + 64 * (f 1).toNat + 32 * (f 2).toNat + 16 * (f 3).toNat
      + 8 * (f 4).toNat + 4 * (f 5).toNat + 2 * (f 6).toNat + (f 7).toNat)

/-- `pack(b)`: ceil8(|b|) bytes; bit 7 - k of byte j is b[8j + k], or 0 past the end (R150). -/
def packBits (b : List Bool) : List Byte :=
  (List.range (ceil8 b.length)).map (fun j => byteOfBits (fun k => b.getD (8 * j + k) false))

/-- Bit `i` of the bit-string held in the bytes `p`: bit 7 - (i mod 8) of byte i div 8 (R61, R181). -/
def bitOf (p : List Byte) (i : Nat) : Bool :=
  (p.getD (i / 8) 0#8).getLsbD (7 - i % 8)

/-- `unpack(p, n)`, for n at most 8 x |p| (R151). -/
def unpackBits (p : List Byte) (n : Nat) : List Bool :=
  (List.range n).map (bitOf p)

/-! ### The u32 fields of a container -/

/-- `be32(b)` of the four bytes at offset `p` (R88). -/
def be32At (c : List Byte) (p : Nat) : Nat :=
  (c.getD p 0#8).toNat * 2 ^ 24 + (c.getD (p + 1) 0#8).toNat * 2 ^ 16
    + (c.getD (p + 2) 0#8).toNat * 2 ^ 8 + (c.getD (p + 3) 0#8).toNat

/-- `be32bytes(v)`: byte j is (v div 2^(8 (3 - j))) mod 256 (R88). -/
def be32Bytes (v : Nat) : List Byte :=
  [BitVec.ofNat 8 (v / 2 ^ 24), BitVec.ofNat 8 (v / 2 ^ 16), BitVec.ofNat 8 (v / 2 ^ 8), BitVec.ofNat 8 v]

/-! ### Buffers as sequences -/

/-- IN[0..IN_LEN) (R30). -/
def State.input (s : State) : List Byte := (List.range s.inLen.toNat).map s.inAt

/-- BITS[0..BITS_LEN) (R35). -/
def State.bitString (s : State) : List Bool := (List.range s.bitsLen.toNat).map s.bitAt

/-- PAY[0..PAY_LEN) (R32). -/
def State.payload (s : State) : List Byte := (List.range s.payLen.toNat).map s.payAt

/-- CONT[0..CONT_LEN) (R33). -/
def State.container (s : State) : List Byte := (List.range s.contLen.toNat).map s.contAt

/-- OUT[0..OUT_LEN) (R34). -/
def State.output (s : State) : List Byte := (List.range s.outLen.toNat).map s.outAt

/-! ### The Code Table -/

/-- The valid code that a table's cells give symbol `k`, if they give one (R44). -/
def codeIn (m : Memory CodeCell) (k : Nat) : Option Code :=
  match Memory.lookup m k with
  | some (.valid c) => some c
  | some (.invalid _) | none => none

/-- The valid entries (s, code) of a table, ascending in s (R44). -/
def validEntries (m : Memory CodeCell) : List (Nat × Code) :=
  (List.range 256).filterMap (fun k => (codeIn m k).map (fun c => (k, c)))

/-- `isPrefix(p, c)` (R9). -/
def isPrefix (p c : Code) : Bool := p.bits.isPrefixOf c.bits

/-- A valid entry offends if its code is empty or in a prefix relation with another valid entry's (R170). -/
def offends (table : List (Nat × Code)) (e : Nat × Code) : Bool :=
  e.2.bits.length == 0
    || table.any (fun f => f.1 != e.1 && (isPrefix e.2 f.2 || isPrefix f.2 e.2))

/-- The smallest offending symbol of a table; none iff `TableValid` holds (R170). -/
def offender (table : List (Nat × Code)) : Option Nat :=
  (table.find? (offends table)).map (fun e => e.1)

/-- The check of ENCODE, DECODE, WRCONT and RDCONT: InvalidCode(offender) unless the table is valid (R170). -/
def checkTable (table : List (Nat × Code)) : Except Raise Unit :=
  match offender table with
  | none => .ok ()
  | some k => .error { kind := .invalidCode, info := k }

/-- The Code Table of a state. -/
def State.table (s : State) : List (Nat × Code) := validEntries s.code.cells

end Sys2Proof.Machine
end

