-- ==== Sys2Proof/Machine/CodeTable.lean ====
section
/-! DEFINITION. The code table generator: command GENCODE (R140 to R142). -/

namespace Sys2Proof.Machine

/-- `walk(i, path)` of R140, pre-order and left first: the leaves it meets with their paths. `nodes` is the
number of nodes of the tree. It has no answer where it leaves NODE[0..nodes), meets a node of the kind no rule
writes, goes deeper than 255, or runs out of `fuel`: none of these can happen in a tree of R50. -/
def walk (node : Nat → NodeRec) (nodes : Nat) : Nat → Nat → List Bool → Option (List (Byte × Code))
  | 0, _, _ => none
  | fuel + 1, i, path =>
    if nodes ≤ i then none
    else
      match (node i).kind with
      | .leaf => if h : path.length ≤ 255 then some [((node i).sym, ⟨path, h⟩)] else none
      | .internal =>
        match walk node nodes fuel (node i).left.toNat (path ++ [false]),
            walk node nodes fuel (node i).right.toNat (path ++ [true]) with
        | some l, some r => some (l ++ r)
        | some _, none | none, _ => none
      | .unary => walk node nodes fuel (node i).left.toNat (path ++ [false])
      | .reserved => none

/-- The leaves of the tree with their codes; none of them when there is no tree (R141). A walk is at most 256
nodes deep (R126). -/
def State.walkTree (s : State) : Option (List (Byte × Code)) :=
  if s.root = noRoot then some []
  else walk s.nodeAt s.nnodes.toNat 256 s.root.toNat []

/-- A fresh table with one valid entry for each leaf (R140). -/
def codeCells (leaves : List (Byte × Code)) : Memory CodeCell :=
  leaves.foldl (fun m e => Memory.insert m e.1.toNat (.valid e.2)) []

/-- GENCODE: walk the tree and write one code per leaf into the Code Table (R140). -/
def execGencode (s : State) : Host.Outcome State Fault Refusal :=
  if s.status.err then .next s
  else
    match s.walkTree with
    | some leaves => .next (command .gencode (fun t => .ok (t.storeCode (codeCells leaves))) s)
    | none => .fault .notATree

end Sys2Proof.Machine
end

