-- ==== Sys2Proof/Machine/Container.lean ====
section
/-! DEFINITION. The container codec: commands WRCONT and RDCONT (R202, R210), over the layout of R84 to R96. -/

namespace Sys2Proof.Machine

/-! ### Write path -/

/-- A header record: symbolValue, codeBitLength, the code bits packed (R89, R90, R91). -/
def record (e : Nat × Code) : List Byte :=
  BitVec.ofNat 8 e.1 :: BitVec.ofNat 8 e.2.bits.length :: packBits e.2.bits

/-- The container's bytes: symbolCount, the records, originalSymbolCount, the payload (R85, R202). -/
def containerBytes (table : List (Nat × Code)) (osc : Nat) (payload : List Byte) : List Byte :=
  be32Bytes table.length ++ table.flatMap record ++ be32Bytes osc ++ payload

/-- The length of a container: 4 + sum of (2 + ceil8(len)) + 4 + PAY_LEN (R96, R202). -/
def containerLength (table : List (Nat × Code)) (payLen : Nat) : Nat :=
  4 + (table.map (fun e => 2 + ceil8 e.2.bits.length)).sum + 4 + payLen

/-- The body of WRCONT (R202). -/
def runWrcont (s : State) : Except Raise State :=
  match checkTable s.table with
  | .error r => .error r
  | .ok () =>
    if s.caps.cont.toNat < containerLength s.table s.payLen.toNat then
      .error { kind := .capacity, info := SpaceId.number .cont }
    else .ok (s.storeCont (containerBytes s.table s.osc.toNat s.payload))

/-- WRCONT: serialize the Code Table, the symbol count and the payload into the container buffer (R202). -/
def execWrcont (s : State) : Host.Outcome State Fault Refusal :=
  .next (command .wrcont runWrcont s)

/-! ### Read path -/

/-- MalformedHeader with the offset where the first field that cannot be read whole begins, or of a repeated
symbolValue (R212, R213, R252). -/
def malformed (p : Nat) : Raise := { kind := .malformedHeader, info := p }

/-- The record loop of R210: `n` records are still to be parsed from offset `p`, `cells` holds the table so far.
Answers the table and the offset after the last record. -/
def parseRecords (c : List Byte) : Nat → Nat → Memory CodeCell → Except Raise (Memory CodeCell × Nat)
  | 0, p, cells => .ok (cells, p)
  | n + 1, p, cells =>
    if c.length < p + 1 then .error (malformed p)
    else
      let sym := (c.getD p 0#8).toNat
      if (codeIn cells sym).isSome then .error (malformed p)
      else if c.length < p + 2 then .error (malformed (p + 1))
      else
        let len := (c.getD (p + 1) 0#8).toNat
        if c.length < p + 2 + ceil8 len then .error (malformed (p + 2))
        else
          let code := Code.clip (unpackBits ((c.drop (p + 2)).take (ceil8 len)) len)
          parseRecords c n (p + 2 + ceil8 len) (Memory.insert cells sym (.valid code))

/-- What RDCONT reads out of a container: the Code Table's cells, originalSymbolCount, the payload. -/
structure Parsed where
  cells : Memory CodeCell
  osc : Nat
  payload : List Byte
deriving DecidableEq, Repr

/-- The header tests and fields of R210 in stream order, up to the InvalidCode test; the payload is what
remains (R94). -/
def parseContainer (c : List Byte) : Except Raise Parsed :=
  if c.length < 4 then .error (malformed 0)
  else if 256 < be32At c 0 then .error (malformed 0)
  else
    match parseRecords c (be32At c 0) 4 [] with
    | .error r => .error r
    | .ok (cells, p) =>
      if c.length < p + 4 then .error (malformed p)
      else .ok { cells := cells, osc := be32At c p, payload := c.drop (p + 4) }

/-- The body of RDCONT (R210). -/
def runRdcont (s : State) : Except Raise State :=
  match parseContainer s.container with
  | .error r => .error r
  | .ok parsed =>
    match checkTable (validEntries parsed.cells) with
    | .error r => .error r
    | .ok () =>
      if s.caps.pay.toNat < parsed.payload.length then
        .error { kind := .capacity, info := SpaceId.number .pay }
      else
        .ok (((s.storeCode parsed.cells).storePay parsed.payload).setOsc (BitVec.ofNat 32 parsed.osc))

/-- RDCONT: parse the container buffer into the Code Table, the symbol count and the payload (R210). -/
def execRdcont (s : State) : Host.Outcome State Fault Refusal :=
  .next (command .rdcont runRdcont s)

end Sys2Proof.Machine
end

