-- ==== Sys2Proof/Machine/Control.lean ====
section
/-! DEFINITION. The control commands NOP and CLR (R232, R234). -/

namespace Sys2Proof.Machine

/-- NOP: nothing but the handshake of an accepted command (R232). -/
def execNop (s : State) : Host.Outcome State Fault Refusal :=
  .next (command .nop .ok s)

/-- CLR: the reset state with DONE = 1, whether or not an error is latched (R234, R230). -/
def execClr (s : State) : Host.Outcome State Fault Refusal :=
  .next s.clearDone

end Sys2Proof.Machine
end

