-- ==== Sys2Proof/Machine/Decoder.lean ====
section
/-! DEFINITION. The decoder: command DECODE (R182). -/

namespace Sys2Proof.Machine

/-- `match(c)`: the symbol whose valid code is `c` (R180); in a valid table there is at most one. -/
def matchCode (table : List (Nat × Code)) (c : List Bool) : Option Byte :=
  (table.find? (fun e => e.2.bits == c)).map (fun e => BitVec.ofNat 8 e.1)

/-- The `while` of R182: from the candidate bits `cur` and the payload bits left, the next symbol and the bits
left after it; none if the payload runs out first. -/
def decodeSymbol (table : List (Nat × Code)) : List Bool → List Bool → Option (Byte × List Bool)
  | cur, [] => (matchCode table cur).map (fun b => (b, []))
  | cur, bit :: rest =>
    match matchCode table cur with
    | some b => some (b, bit :: rest)
    | none => decodeSymbol table (cur ++ [bit]) rest

/-- The `for` of R182: `m` symbols are still to be emitted, `k` have been. -/
def decodeLoop (table : List (Nat × Code)) : Nat → Nat → List Bool → Except Raise (List Byte)
  | 0, _, _ => .ok []
  | m + 1, k, bits =>
    match decodeSymbol table [] bits with
    | none => .error { kind := .truncatedPayload, info := k }
    | some (b, rest) =>
      match decodeLoop table m (k + 1) rest with
      | .error r => .error r
      | .ok out => .ok (b :: out)

/-- The body of DECODE (R182). -/
def runDecode (s : State) : Except Raise State :=
  match checkTable s.table with
  | .error r => .error r
  | .ok () =>
    if s.caps.out.toNat < s.osc.toNat then
      .error { kind := .capacity, info := SpaceId.number .out }
    else
      match decodeLoop s.table s.osc.toNat 0 (unpackBits s.payload (8 * s.payLen.toNat)) with
      | .error r => .error r
      | .ok out => .ok ((s.storeOut out).setEmpty (s.osc == 0#32))

/-- DECODE: turn the packed payload back into OSC symbols by greedy code matching (R182). -/
def execDecode (s : State) : Host.Outcome State Fault Refusal :=
  .next (command .decode runDecode s)

end Sys2Proof.Machine
end

