-- ==== Sys2Proof/Machine/Encoder.lean ====
section
/-! DEFINITION. The encoder: command ENCODE (R172). -/

namespace Sys2Proof.Machine

/-- The loop of R172 from input index `i` on, with the bits so far: the codes of the input bytes in order, or
the first MissingCode or Capacity error. -/
def encodeLoop (cells : Memory CodeCell) (capPay : Nat) :
    List Byte → Nat → List Bool → Except Raise (List Bool)
  | [], _, bits => .ok bits
  | b :: rest, i, bits =>
    match codeIn cells b.toNat with
    | none => .error { kind := .missingCode, info := i }
    | some c =>
      if capPay < ceil8 (bits ++ c.bits).length then
        .error { kind := .capacity, info := SpaceId.number .pay }
      else encodeLoop cells capPay rest (i + 1) (bits ++ c.bits)

/-- The body of ENCODE (R172). -/
def runEncode (s : State) : Except Raise State :=
  match checkTable s.table with
  | .error r => .error r
  | .ok () =>
    match encodeLoop s.code.cells s.caps.pay.toNat s.input 0 [] with
    | .error r => .error r
    | .ok bits => .ok (((s.storePay (packBits bits)).setOsc s.inLen).setEmpty (s.inLen == 0#32))

/-- ENCODE: replace each input byte by its code, pack the bits, record the symbol count (R172). -/
def execEncode (s : State) : Host.Outcome State Fault Refusal :=
  .next (command .encode runEncode s)

end Sys2Proof.Machine
end

