-- ==== Sys2Proof/Machine/Frequency.lean ====
section
/-! DEFINITION. The frequency counter: command FREQ (R110). -/

namespace Sys2Proof.Machine

/-- How often byte value `k` occurs in a byte sequence (R110). -/
def occurrences (bytes : List Byte) (k : Nat) : Nat := bytes.count (BitVec.ofNat 8 k)

/-- The Frequency Table of a byte sequence: a cell for every byte value that occurs; every other cell is 0, which
is "absent" (R42, R110). A count fits 32 bits, the sequence having at most 2^32 - 1 bytes. -/
def frequencyTable (bytes : List Byte) : Memory Word :=
  (List.range 256).filterMap (fun k =>
    let w : Word := BitVec.ofNat 32 (occurrences bytes k)
    if w = 0#32 then none else some (k, w))

/-- The body of FREQ (R110): all 256 FREQ cells and EMPTY. -/
def runFreq (s : State) : Except Raise State :=
  .ok ((s.storeFreq (frequencyTable s.input)).setEmpty (s.inLen == 0#32))

/-- FREQ: count the occurrences of each byte value in IN[0..IN_LEN) (R110). -/
def execFreq (s : State) : Host.Outcome State Fault Refusal :=
  .next (command .freq runFreq s)

end Sys2Proof.Machine
end

