-- ==== Sys2Proof/Machine/Packer.lean ====
section
/-! DEFINITION. The bit packer and unpacker: commands PACK and UNPACK (R152, R155). -/

namespace Sys2Proof.Machine

/-- The body of PACK (R152). -/
def runPack (s : State) : Except Raise State :=
  if s.caps.pay.toNat < ceil8 s.bitsLen.toNat then
    .error { kind := .capacity, info := SpaceId.number .pay }
  else .ok (s.storePay (packBits s.bitString))

/-- PACK: pack the loose bit-string into the payload buffer (R152). -/
def execPack (s : State) : Host.Outcome State Fault Refusal :=
  .next (command .pack runPack s)

/-- The body of UNPACK (R155). The comparison with 8 x PAY_LEN is exact. -/
def runUnpack (s : State) : Except Raise State :=
  if 8 * s.payLen.toNat < s.bitsLen.toNat then
    .error { kind := .truncatedPayload, info := s.payLen.toNat }
  else .ok (s.storeBits (unpackBits s.payload s.bitsLen.toNat))

/-- UNPACK: unpack BITS_LEN bits of the payload into the loose bit-string (R155). -/
def execUnpack (s : State) : Host.Outcome State Fault Refusal :=
  .next (command .unpack runUnpack s)

end Sys2Proof.Machine
end

