-- ==== Sys2Proof/Machine/Tree.lean ====
section
/-! DEFINITION. The tree builder: command BUILD (R120 to R132). -/

namespace Sys2Proof.Machine

/-- S: the symbols with FREQ[s] > 0, ascending (R121). -/
def State.present (s : State) : List Nat := (List.range 256).filter (fun k => s.freqAt k != 0#32)

/-- The leaf of symbol `k` with count `f` (R123, R125). A 32-bit count fits the 40-bit field. -/
def leafNode (k : Nat) (f : Word) : NodeRec :=
  { kind := .leaf, sym := BitVec.ofNat 8 k, freq := f.setWidth 40, left := 0#9, right := 0#9 }

/-- The synthetic root of a one-symbol tree: its only child, on the left, is node 0 (R123). -/
def unaryRoot (f : Word) : NodeRec :=
  { kind := .unary, sym := 0#8, freq := f.setWidth 40, left := 0#9, right := 0#9 }

/-- An entry of the queue: a node's frequency, exact, and its index (R124, R132). -/
structure Key where
  freq : Nat
  index : Nat
deriving DecidableEq, Repr

/-- The internal node that merges the first extracted `a` and the second extracted `b` (R125). The sum fits
40 bits (R132). -/
def internalNode (a b : Key) : NodeRec :=
  { kind := .internal, sym := 0#8, freq := BitVec.ofNat 40 (a.freq + b.freq)
    left := BitVec.ofNat 9 a.index, right := BitVec.ofNat 9 b.index }

/-- Node `a` is before node `b` in the queue order: lexicographic on (freq, index) (R124). -/
def before (a b : Key) : Bool :=
  decide (a.freq < b.freq) || (a.freq == b.freq && decide (a.index < b.index))

/-- The first of two keys in the queue order. -/
def minKey (a b : Key) : Key := if before b a then b else a

/-- Extract the minimum of the queue (R124): the one least key, and the queue without it. -/
def extractMin : List Key → Option (Key × List Key)
  | [] => none
  | k :: ks =>
    let m := ks.foldl minKey k
    some (m, (k :: ks).erase m)

/-- The merge loop of R125: while two nodes are queued, extract two, append their parent to the arena and queue
it. Each pass takes one node off the queue, so as many passes as there are queued nodes are enough. -/
def mergeLoop : Nat → List Key → List NodeRec → List NodeRec
  | 0, _, arena => arena
  | passes + 1, queue, arena =>
    match extractMin queue with
    | none => arena
    | some (a, queue₁) =>
      match extractMin queue₁ with
      | none => arena
      | some (b, queue₂) =>
        mergeLoop passes (queue₂ ++ [{ freq := a.freq + b.freq, index := arena.length }])
          (arena ++ [internalNode a b])

/-- The leaves of R125, in ascending symbol order. -/
def State.leaves (s : State) : List NodeRec := s.present.map (fun k => leafNode k (s.freqAt k))

/-- The first queue of R125: every leaf, by its position. -/
def State.firstQueue (s : State) : List Key :=
  s.present.zipIdx.map (fun e => { freq := (s.freqAt e.1).toNat, index := e.2 })

/-- The body of BUILD (R120): no tree for N = 0 (R122), a leaf under a synthetic root for N = 1 (R123), greedy
merging for N >= 2 (R125). -/
def runBuild (s : State) : Except Raise State :=
  match s.present with
  | [] => .ok (s.storeTree [] noRoot)
  | [k] => .ok (s.storeTree [leafNode k (s.freqAt k), unaryRoot (s.freqAt k)] 1#32)
  | _ :: _ :: _ =>
    let arena := mergeLoop s.firstQueue.length s.firstQueue s.leaves
    .ok (s.storeTree arena (BitVec.ofNat 32 (arena.length - 1)))

/-- BUILD: build the prefix-code tree from the Frequency Table (R120). -/
def execBuild (s : State) : Host.Outcome State Fault Refusal :=
  .next (command .build runBuild s)

end Sys2Proof.Machine
end

