-- ==== Sys2Proof/Machine/HostPort.lean ====
section
/-! DEFINITION. What one input of the outside does to the block: a host access (R66), a command word written to
CMD (R230), the reset event (R290). -/

namespace Sys2Proof.Machine

/-- A write of `w` to CMD (R22, R230): the command `w` selects, or IllegalCommand. -/
def commandWrite (w : Word) (s : State) : Host.Outcome State Fault Refusal :=
  match decodeWord w with
  | .ok i => exec i s
  | .error _ => .next (illegalCommand w s)

/-- A host read: the port returns the value; nothing of the block changes (R64, R66). -/
def State.answerRead (s : State) (sp : SpaceId) (i : Nat) : State :=
  { s with reply := some (s.hostRead sp i) }

/-- One input while no command runs (R66, R69). -/
def performIdle (a : Input) (s : State) : Host.Outcome State Fault Refusal :=
  match a with
  | .reset => .next s.clear
  | .read sp i => .next (s.answerRead sp i)
  | .write (.reg 0 w) => commandWrite w s
  | .write v => .next (s.hostWrite v)

/-- One input while STATUS.BUSY = 1: reset abandons the command (R290), the host may read STATUS, and every other
access is UNPREDICTABLE and refused (R300). -/
def performBusy (a : Input) (s : State) : Host.Outcome State Fault Refusal :=
  match a with
  | .reset => .next s.clear
  | .read .reg 1 => .next (s.answerRead .reg 1)
  | .read _ _ => .refused .hostAccessWhileBusy
  | .write _ => .refused .hostAccessWhileBusy

/-- One input. -/
def perform (a : Input) (s : State) : Host.Outcome State Fault Refusal :=
  if s.status.busy then performBusy a s else performIdle a s

end Sys2Proof.Machine
end

