-- ==== Sys2Proof/Machine/Step.lean ====
section
/-! DEFINITION. One step: the next input of the outside, or none. -/

namespace Sys2Proof.Machine

/-- With no input pending the block holds its state (R261, R275, R291); else the next input is taken (R66). -/
def step (s : State) : Host.Outcome State Fault Refusal :=
  match s.inputs with
  | [] => .next s
  | a :: rest => perform a (s.setInputs rest)

/-- `s` with the host about to write the command word `w` to CMD, which is where a command reaches the engine
(R72); log entry 5. -/
def State.withFetchWord (s : State) (nbits w : Nat) : State :=
  { s with inputs := .write (.reg 0 (BitVec.ofNat 32 (w % 2 ^ nbits))) :: s.inputs }

end Sys2Proof.Machine
end

