-- ==== Sys2Proof/Machine/Script.lean ====
section
/-! DEFINITION. Host scripts (R100) and the pseudo-commands (R240 to R245), as lists of inputs. -/

namespace Sys2Proof.Machine

/-- `cmd MNEMONIC`: write the command's word to CMD, then read STATUS until BUSY = 0; a command is one atomic
step, so one read is enough (R100, R27). -/
def Script.cmd (i : Instr) : List Input := [.write (.reg 0 (encode i)), .read .reg 1]

/-- The pseudo-commands (R240 to R245). -/
inductive Pseudo where
  | compress
  | decompress
  | writeContainer
  | readContainer
  | compressFile
  | decompressFile
deriving DecidableEq, Repr

/-- The commands a pseudo-command is the sequence of (R240 to R245). -/
def Pseudo.commands : Pseudo → List Instr
  | .compress => [.freq, .build, .gencode, .encode]
  | .decompress => [.decode]
  | .writeContainer => [.wrcont]
  | .readContainer => [.rdcont]
  | .compressFile => [.freq, .build, .gencode, .encode, .wrcont]
  | .decompressFile => [.rdcont, .decode]

/-- A pseudo-command is only its expansion (R246). -/
def Pseudo.script (p : Pseudo) : List Input := p.commands.flatMap Script.cmd

/-- `wr IN[i..] = b0 b1 ...` (R100). -/
def Script.writeIn : Nat → List Byte → List Input
  | _, [] => []
  | i, b :: rest => .write (.inp i b) :: Script.writeIn (i + 1) rest

/-- `wr CONT[i..] = b0 b1 ...` (R100). -/
def Script.writeCont : Nat → List Byte → List Input
  | _, [] => []
  | i, b :: rest => .write (.cont i b) :: Script.writeCont (i + 1) rest

/-- `wr BITS[i..] = b0 b1 ...` (R100). -/
def Script.writeBits : Nat → List Bool → List Input
  | _, [] => []
  | i, b :: rest => .write (.bits i b) :: Script.writeBits (i + 1) rest

end Sys2Proof.Machine
end

