-- ==== Sys2Proof/Safety.lean ====
section
/-! DEFINITION. The invariants of the block (R49, R50, R27, R28, R29), the validity of its Code Table (R170), and what
each command may change (R54, R259), in the terms the statements use. -/

namespace Sys2Proof.Machine

/-! ### Invariants -/

/-- The buffer invariant (R49). -/
structure State.BuffersFit (s : State) : Prop where
  inp : s.inLen.toNat ≤ s.caps.inp.toNat
  bits : s.bitsLen.toNat ≤ s.caps.bits.toNat
  pay : s.payLen.toNat ≤ s.caps.pay.toNat
  cont : s.contLen.toNat ≤ s.caps.cont.toNat
  out : s.outLen.toNat ≤ s.caps.out.toNat

/-- The shape Empty of R50. -/
structure State.TreeEmpty (s : State) : Prop where
  nnodes : s.nnodes = 0#32
  root : s.root = noRoot

/-- The shape Single of R50. -/
structure State.TreeSingle (s : State) : Prop where
  nnodes : s.nnodes = 2#32
  root : s.root = 1#32
  leaf : (s.nodeAt 0).kind = .leaf
  unary : (s.nodeAt 1).kind = .unary
  child : (s.nodeAt 1).left = 0#9
  freq : (s.nodeAt 1).freq = (s.nodeAt 0).freq

/-- Node `m` is a child of node `n`. -/
def State.IsChild (s : State) (m n : Nat) : Prop :=
  (s.nodeAt n).left.toNat = m ∨ (s.nodeAt n).right.toNat = m

/-- The shape Full of R50, for `N` leaves. -/
structure State.TreeFull (s : State) (N : Nat) : Prop where
  low : 2 ≤ N
  high : N ≤ 256
  nnodes : s.nnodes.toNat = 2 * N - 1
  root : s.root.toNat = 2 * N - 2
  leaf : ∀ k < N, (s.nodeAt k).kind = .leaf ∧ 1 ≤ (s.nodeAt k).freq.toNat
  ascending : ∀ k < N, ∀ j < k, (s.nodeAt j).sym.toNat < (s.nodeAt k).sym.toNat
  internal : ∀ n, N ≤ n → n < 2 * N - 1 →
    (s.nodeAt n).kind = .internal
      ∧ (s.nodeAt n).left.toNat < n ∧ (s.nodeAt n).right.toNat < n
      ∧ (s.nodeAt n).left ≠ (s.nodeAt n).right
      ∧ (s.nodeAt n).freq.toNat
          = (s.nodeAt (s.nodeAt n).left.toNat).freq.toNat + (s.nodeAt (s.nodeAt n).right.toNat).freq.toNat
  parent : ∀ m < 2 * N - 2, ∃ n, (N ≤ n ∧ n < 2 * N - 1 ∧ s.IsChild m n)
    ∧ ∀ n', N ≤ n' → n' < 2 * N - 1 → s.IsChild m n' → n' = n

/-- The tree invariant (R50). -/
def State.TreeOk (s : State) : Prop :=
  s.TreeEmpty ∨ s.TreeSingle ∨ ∃ N, s.TreeFull N

/-- ERRCODE and ERRINFO against STATUS.ERR: both 0 while ERR = 0, and ERRCODE a kind of R250 while ERR = 1
(R28, R29). -/
def State.LatchOk (s : State) : Prop :=
  if s.status.err then 1 ≤ s.errcode.toNat ∧ s.errcode.toNat ≤ 6
  else s.errcode = 0#32 ∧ s.errinfo = 0#32

/-- Every memory is in its one canonical form: rising indexes below the space's size, no entry equal to what an
unlisted cell reads as. -/
structure State.MemoriesOk (s : State) : Prop where
  inp : Memory.wf none s.caps.inp.toNat s.inp.cells = true
  freq : Memory.wf (some 0#32) 256 s.freq = true
  node : Memory.wf none 511 s.node.cells = true
  code : Memory.wf (some (.invalid s.code.draw)) 256 s.code.cells = true
  bits : Memory.wf none s.caps.bits.toNat s.bits.cells = true
  pay : Memory.wf none s.caps.pay.toNat s.pay.cells = true
  cont : Memory.wf none s.caps.cont.toNat s.cont.cells = true
  out : Memory.wf none s.caps.out.toNat s.out.cells = true

/-- Every draw in use was taken before the next one (log entry 2), so that a new draw is new. -/
structure State.DrawsOk (s : State) : Prop where
  inp : s.inp.draw < s.draws
  node : s.node.draw < s.draws
  code : s.code.draw < s.draws
  bits : s.bits.draw < s.draws
  pay : s.pay.draw < s.draws
  cont : s.cont.draw < s.draws
  out : s.out.draw < s.draws
  codeCell : ∀ i d, Memory.lookup s.code.cells i = some (.invalid d) → d < s.draws

/-- Everything that holds at every point the host can observe: the block is idle (R27), the buffer invariant, the
tree invariant, the latch, and the form of the model's own data. -/
structure State.Inv (s : State) : Prop where
  idle : s.status.busy = false
  buffers : s.BuffersFit
  tree : s.TreeOk
  latch : s.LatchOk
  memories : s.MemoriesOk
  draws : s.DrawsOk

/-! ### The Code Table -/

/-- `TableValid` on the cells of CODE, as R170 writes it: (V1) and (V2). -/
def State.TableValid (s : State) : Prop :=
  (∀ k < 256, (s.codeAt k).valid = true → 1 ≤ (s.codeAt k).code.bits.length)
  ∧ ∀ j < 256, ∀ k < 256, j ≠ k → (s.codeAt j).valid = true → (s.codeAt k).valid = true →
      ¬ (s.codeAt j).code.bits <+: (s.codeAt k).code.bits

/-- Symbol `k` offends (R170): its entry is valid and its code is empty or in a prefix relation with the code of
another valid entry. -/
def State.Offending (s : State) (k : Nat) : Prop :=
  k < 256 ∧ (s.codeAt k).valid = true
  ∧ ((s.codeAt k).code.bits.length = 0
    ∨ ∃ j < 256, j ≠ k ∧ (s.codeAt j).valid = true
        ∧ ((s.codeAt k).code.bits <+: (s.codeAt j).code.bits
          ∨ (s.codeAt j).code.bits <+: (s.codeAt k).code.bits))

/-- `offender` is `k`: the smallest offending symbol (R170). -/
def State.OffenderIs (s : State) (k : Nat) : Prop :=
  s.Offending k ∧ ∀ j < k, ¬ s.Offending j

/-- The code of byte `b` as a bit-string (of an invalid entry: whatever it reads as). -/
def State.codeBits (s : State) (b : Byte) : List Bool := (s.codeAt b.toNat).code.bits

/-- A path leads from node `i` to node `k`: through INTERNAL nodes, left for 0 and right for 1 (R143). -/
def State.LeadsTo (s : State) : Nat → List Bool → Nat → Prop
  | i, [], k => i = k
  | i, false :: rest, k => (s.nodeAt i).kind = .internal ∧ State.LeadsTo s (s.nodeAt i).left.toNat rest k
  | i, true :: rest, k => (s.nodeAt i).kind = .internal ∧ State.LeadsTo s (s.nodeAt i).right.toNat rest k

/-- Node `a` is before node `b` in the queue order (R124). -/
def State.NodeBefore (s : State) (a b : Nat) : Prop :=
  (s.nodeAt a).freq.toNat < (s.nodeAt b).freq.toNat
    ∨ ((s.nodeAt a).freq.toNat = (s.nodeAt b).freq.toNat ∧ a < b)

/-- Node `j` is in the queue of R125 when node `n` is made, with `N` leaves: it exists, and no INTERNAL node made so
far has it as a child. -/
def State.Queued (s : State) (N n j : Nat) : Prop :=
  j < n ∧ ∀ m, N ≤ m → m < n → ¬ s.IsChild j m

/-! ### Containers and host reads -/

/-- A header record as it stands in a container: symbolValue, codeBitLength, the bytes of the code field (R89 to R91). -/
abbrev HeaderRecord := Byte × Byte × List Byte

/-- The code that a header record holds: the first codeBitLength bits of its code field (R91). -/
def HeaderRecord.bits (r : HeaderRecord) : List Bool := unpackBits r.2.2 r.2.1.toNat

/-- Symbol `k` offends (R170) in the table that records of distinct symbols make: its record's code is empty or in a prefix
relation with another record's. -/
def RecordOffends (records : List HeaderRecord) (k : Nat) : Prop :=
  ∃ r ∈ records, r.1.toNat = k
    ∧ (r.2.1 = 0#8 ∨ ∃ q ∈ records, q.1 ≠ r.1
        ∧ (HeaderRecord.bits r <+: HeaderRecord.bits q ∨ HeaderRecord.bits q <+: HeaderRecord.bits r))

/-- The value is one of the space's cell type (R40). -/
def OfCellType : SpaceId → Value → Prop
  | .reg, .word _ => True
  | .inp, .byte _ => True
  | .freq, .word _ => True
  | .node, .node _ => True
  | .code, .code _ => True
  | .bits, .bit _ => True
  | .pay, .byte _ => True
  | .cont, .byte _ => True
  | .out, .byte _ => True
  | _, _ => False

/-! ### What a command may change -/

/-- The cells a command may change, on normal end or on an error (R54, R259): STATUS, ERRCODE and ERRINFO (registers
1, 2, 3) and the command's destinations. NSYM (register 12) is a view of CODE (R38). -/
def mayChange (i : Instr) (sp : SpaceId) (n : Nat) : Prop :=
  match i, sp with
  | .clr, _ => True
  | .nop, .reg => n = 1
  | .freq, .reg => n = 1
  | .freq, .freq => True
  | .build, .reg => n = 1 ∨ n = 10 ∨ n = 11
  | .build, .node => True
  | .gencode, .reg => n = 1 ∨ n = 12
  | .gencode, .code => True
  | .pack, .reg => n = 1 ∨ n = 2 ∨ n = 3 ∨ n = 6
  | .pack, .pay => True
  | .unpack, .reg => n = 1 ∨ n = 2 ∨ n = 3 ∨ n = 9
  | .unpack, .bits => True
  | .encode, .reg => n = 1 ∨ n = 2 ∨ n = 3 ∨ n = 5 ∨ n = 6
  | .encode, .pay => True
  | .decode, .reg => n = 1 ∨ n = 2 ∨ n = 3 ∨ n = 8
  | .decode, .out => True
  | .wrcont, .reg => n = 1 ∨ n = 2 ∨ n = 3 ∨ n = 7
  | .wrcont, .cont => True
  | .rdcont, .reg => n = 1 ∨ n = 2 ∨ n = 3 ∨ n = 5 ∨ n = 6 ∨ n = 12
  | .rdcont, .pay => True
  | .rdcont, .code => True
  | _, _ => False

/-- The registers an error of a command sets to 0 (R259), by number. -/
def zeroedOnError : Instr → List Nat
  | .pack => [6]
  | .unpack => [9]
  | .encode => [5, 6]
  | .decode => [8]
  | .wrcont => [7]
  | .rdcont => [5, 6]
  | .nop | .freq | .build | .gencode | .clr => []

/-- The kinds of error a command can raise (R258). -/
def raisable : Instr → List ErrorKind
  | .pack => [.capacity]
  | .unpack => [.truncatedPayload]
  | .encode => [.invalidCode, .missingCode, .capacity]
  | .decode => [.truncatedPayload, .invalidCode, .capacity]
  | .wrcont => [.invalidCode, .capacity]
  | .rdcont => [.malformedHeader, .invalidCode, .capacity]
  | .nop | .freq | .build | .gencode | .clr => []

/-- Every cell of every space (the registers among them) outside what command `i` may change reads as before, and so
do the capacities, the pending inputs and the latest reply. -/
def Framed (i : Instr) (s t : State) : Prop :=
  (∀ sp n, ¬ mayChange i sp n → t.cell sp n = s.cell sp n)
  ∧ t.caps = s.caps ∧ t.inputs = s.inputs ∧ t.reply = s.reply

/-- The handshake of a command that ended normally, EMPTY as given: BUSY 0, DONE 1, ERR 0. -/
def Status.ended (empty : Bool) : Status := { busy := false, done := true, err := false, empty := empty }

/-- The state an erroring command leaves in the error registers and STATUS (R259): ERR and DONE set, BUSY clear, EMPTY
as before, ERRCODE the kind's number, ERRINFO the value. -/
structure Raised (s t : State) (kind : ErrorKind) (info : Nat) : Prop where
  status : t.status = { busy := false, done := true, err := true, empty := s.status.empty }
  errcode : t.errcode = BitVec.ofNat 32 kind.number
  errinfo : t.errinfo = BitVec.ofNat 32 info

/-- The commands of a sequence, one after the other (R240 to R246). -/
def execAll : List Instr → State → Host.Outcome State Fault Refusal
  | [], s => .next s
  | i :: rest, s =>
    match exec i s with
    | .next t => execAll rest t
    | .fault f => .fault f
    | .refused r => .refused r

end Sys2Proof.Machine
end

