-- ==== Sys2Proof/Certificates/Slice0/Obligations.lean ====
section
/-! DEFINITION. The statements about the block, from the numbered rules of spec/. -/

open Sys2Proof Sys2Proof.Machine

/-! ### Encoding, acceptance, the host port, reset -/

/-- R81: the word of every command decodes to it, and three illegal words (T25, R82) are rejected by name. -/
def Obligations.CommandWordsDecode : Prop :=
  decodeWord 0x00000000#32 = .ok .nop ∧ decodeWord 0x00000001#32 = .ok .freq
  ∧ decodeWord 0x00000002#32 = .ok .build ∧ decodeWord 0x00000003#32 = .ok .gencode
  ∧ decodeWord 0x00000004#32 = .ok .pack ∧ decodeWord 0x00000005#32 = .ok .unpack
  ∧ decodeWord 0x00000006#32 = .ok .encode ∧ decodeWord 0x00000007#32 = .ok .decode
  ∧ decodeWord 0x00000008#32 = .ok .wrcont ∧ decodeWord 0x00000009#32 = .ok .rdcont
  ∧ decodeWord 0x0000000F#32 = .ok .clr
  ∧ decodeWord 0x0000000A#32 = .error (.reservedOpcode 0x0A#8)
  ∧ decodeWord 0x000000FF#32 = .error (.reservedOpcode 0xFF#8)
  ∧ decodeWord 0x00000101#32 = .error (.upperBitsNotZero 0x00000101#32)

/-- R81: each command's word is the one of the opcode map, a word decodes to a command iff it is that command's word, and
every other word is illegal. -/
def Obligations.DecodeIffEncode : Prop :=
  (encode .nop = 0x00000000#32 ∧ encode .freq = 0x00000001#32 ∧ encode .build = 0x00000002#32
    ∧ encode .gencode = 0x00000003#32 ∧ encode .pack = 0x00000004#32 ∧ encode .unpack = 0x00000005#32
    ∧ encode .encode = 0x00000006#32 ∧ encode .decode = 0x00000007#32 ∧ encode .wrcont = 0x00000008#32
    ∧ encode .rdcont = 0x00000009#32 ∧ encode .clr = 0x0000000F#32)
  ∧ (∀ (w : Word) (i : Instr), decodeWord w = .ok i ↔ w = encode i)
  ∧ ∀ w : Word, CommandWord.wellFormed w = true ↔ ∃ i, decodeWord w = .ok i

/-- R82, R231: a word with a bit set in 31:8, or with an opcode 0x0A to 0x0E or 0x10 to 0xFF, written to CMD while
ERR = 0 raises IllegalCommand with ERRINFO = the word and changes nothing else; no other word is illegal. -/
def Obligations.IllegalWordRaisesIllegalCommand : Prop :=
  ∀ (s : State) (w : Word) (rest : List Input), s.inputs = .write (.reg 0 w) :: rest →
    s.status.busy = false → s.status.err = false →
    (2 ^ 8 ≤ w.toNat ∨ (0x0A ≤ w.toNat % 256 ∧ w.toNat % 256 ≤ 0x0E) ∨ 0x10 ≤ w.toNat % 256 →
      step s = .next { s with
        inputs := rest
        status := { busy := false, done := true, err := true, empty := s.status.empty }
        errcode := 6#32
        errinfo := w })
    ∧ (¬ (2 ^ 8 ≤ w.toNat ∨ (0x0A ≤ w.toNat % 256 ∧ w.toNat % 256 ≤ 0x0E) ∨ 0x10 ≤ w.toNat % 256) →
      ∃ i, w = encode i ∧ step s = exec i (s.setInputs rest))

/-- R22, R230: when the host's next access writes the word of a command to CMD while no command runs, the step is that
command's meaning on the state with the access taken. -/
def Obligations.StepRunsDecodedCommand : Prop :=
  ∀ (s : State) (w : Word) (rest : List Input) (i : Instr), s.inputs = .write (.reg 0 w) :: rest →
    s.status.busy = false → decodeWord w = .ok i → step s = exec i (s.setInputs rest)

/-- R230, R25: while ERR = 1 a write to CMD of any word other than CLR's changes no state at all. -/
def Obligations.LatchedErrorIgnoresCommandWords : Prop :=
  ∀ (s : State) (w : Word) (rest : List Input), s.inputs = .write (.reg 0 w) :: rest →
    s.status.busy = false → s.status.err = true → w ≠ 0x0000000F#32 →
    step s = .next (s.setInputs rest)

/-- R260: a latched error is never overwritten: any step from it that is not CLR or reset leaves ERR, ERRCODE and
ERRINFO as they are. -/
def Obligations.FirstErrorStaysLatched : Prop :=
  ∀ s t : State, s.status.err = true → step s = .next t →
    (∃ rest, s.inputs = .reset :: rest) ∨ (∃ rest, s.inputs = .write (.reg 0 (encode .clr)) :: rest)
    ∨ (t.status.err = true ∧ t.errcode = s.errcode ∧ t.errinfo = s.errinfo)

/-- R261, R275: with no access made and no command running the block holds its state. -/
def Obligations.StepHoldsStateWithoutInput : Prop :=
  ∀ s : State, s.inputs = [] → step s = .next s

/-- R64, R66, R21, R23, R38, R40: a host read below a space's size returns the cell's current value, one at or beyond it
some value of the cell type, and neither changes anything else; which register each number is, how STATUS is laid out, what
NSYM counts; which memory each other space is, and its size. -/
def Obligations.HostReadReturnsCell : Prop :=
  ∀ (s : State) (sp : SpaceId) (i : Nat) (rest : List Input), s.inputs = .read sp i :: rest →
    s.status.busy = false →
    (s.inRange sp i = true → step s = .next { s with inputs := rest, reply := some (s.cell sp i) })
    ∧ (s.inRange sp i = false →
      ∃ v, OfCellType sp v ∧ step s = .next { s with inputs := rest, reply := some v })
    ∧ (sp = .reg → s.inRange sp i = true ∧ ∃ w, s.cell sp i = .word w
      ∧ (i = 1 → w.toNat = s.status.busy.toNat + 2 * s.status.done.toNat + 4 * s.status.err.toNat
          + 8 * s.status.empty.toNat)
      ∧ (i = 2 → w = s.errcode) ∧ (i = 3 → w = s.errinfo) ∧ (i = 4 → w = s.inLen) ∧ (i = 5 → w = s.osc)
      ∧ (i = 6 → w = s.payLen) ∧ (i = 7 → w = s.contLen) ∧ (i = 8 → w = s.outLen) ∧ (i = 9 → w = s.bitsLen)
      ∧ (i = 10 → w = s.nnodes) ∧ (i = 11 → w = s.root)
      ∧ (i = 12 → w.toNat = ((List.range 256).filter (fun k => (s.codeAt k).valid)).length)
      ∧ (i = 0 ∨ 13 ≤ i → w = 0#32))
    ∧ (sp = .inp → s.cell sp i = .byte (s.inAt i) ∧ (s.inRange sp i = true ↔ i < s.caps.inp.toNat))
    ∧ (sp = .freq → s.cell sp i = .word (s.freqAt i) ∧ (s.inRange sp i = true ↔ i < 256))
    ∧ (sp = .node → s.cell sp i = .node (s.nodeAt i) ∧ (s.inRange sp i = true ↔ i < 511))
    ∧ (sp = .code → s.cell sp i = .code (s.codeAt i) ∧ (s.inRange sp i = true ↔ i < 256))
    ∧ (sp = .bits → s.cell sp i = .bit (s.bitAt i) ∧ (s.inRange sp i = true ↔ i < s.caps.bits.toNat))
    ∧ (sp = .pay → s.cell sp i = .byte (s.payAt i) ∧ (s.inRange sp i = true ↔ i < s.caps.pay.toNat))
    ∧ (sp = .cont → s.cell sp i = .byte (s.contAt i) ∧ (s.inRange sp i = true ↔ i < s.caps.cont.toNat))
    ∧ (sp = .out → s.cell sp i = .byte (s.outAt i) ∧ (s.inRange sp i = true ↔ i < s.caps.out.toNat))

/-- R66, R49: a host write to an in-range cell of a read-write space sets that cell and changes that cell only (writing
CODE, NSYM, its view, too; of a CODE pair with valid = 0 the code part is unspecified, R44). -/
def Obligations.HostWriteSetsThatCellOnly : Prop :=
  ∀ (s : State) (sp : SpaceId) (i : Nat) (v : CellWrite) (x : Value) (rest : List Input),
    s.inputs = .write v :: rest → s.status.busy = false → s.inRange sp i = true →
    ((∃ b, sp = .inp ∧ v = .inp i b ∧ x = .byte b)
      ∨ (∃ w, sp = .freq ∧ v = .freq i w ∧ x = .word w)
      ∨ (∃ c, sp = .code ∧ v = .code i ⟨true, c⟩ ∧ x = .code ⟨true, c⟩)
      ∨ (∃ c, sp = .code ∧ v = .code i ⟨false, c⟩ ∧ x = .code ⟨false, Config.freeCode s.draws i⟩)
      ∨ (∃ b, sp = .bits ∧ v = .bits i b ∧ x = .bit b)
      ∨ (∃ b, sp = .pay ∧ v = .pay i b ∧ x = .byte b)
      ∨ (∃ b, sp = .cont ∧ v = .cont i b ∧ x = .byte b)) →
    ∃ t, step s = .next t ∧ t.cell sp i = x
      ∧ (∀ sp' j, (sp', j) ≠ (sp, i) → ¬ (sp = .code ∧ sp' = .reg ∧ j = 12) → t.cell sp' j = s.cell sp' j)
      ∧ t.inputs = rest ∧ t.caps = s.caps ∧ t.reply = s.reply

/-- R21, R40: host writes that are ignored: to a read-only register or space, to a reserved register number, at or
beyond a space's size, or of a length above its capacity. -/
def Obligations.HostWriteIgnored : Prop :=
  ∀ (s : State) (v : CellWrite) (rest : List Input), s.inputs = .write v :: rest → s.status.busy = false →
    ((∃ n w, v = .reg n w ∧ (n = 1 ∨ n = 2 ∨ n = 3 ∨ n = 8 ∨ 10 ≤ n))
      ∨ (∃ w : Word, v = .reg 4 w ∧ s.caps.inp.toNat < w.toNat)
      ∨ (∃ w : Word, v = .reg 6 w ∧ s.caps.pay.toNat < w.toNat)
      ∨ (∃ w : Word, v = .reg 7 w ∧ s.caps.cont.toNat < w.toNat)
      ∨ (∃ w : Word, v = .reg 9 w ∧ s.caps.bits.toNat < w.toNat)
      ∨ (∃ i r, v = .node i r) ∨ (∃ i b, v = .out i b)
      ∨ (∃ i b, v = .inp i b ∧ s.caps.inp.toNat ≤ i) ∨ (∃ i w, v = .freq i w ∧ 256 ≤ i)
      ∨ (∃ i e, v = .code i e ∧ 256 ≤ i) ∨ (∃ i b, v = .bits i b ∧ s.caps.bits.toNat ≤ i)
      ∨ (∃ i b, v = .pay i b ∧ s.caps.pay.toNat ≤ i) ∨ (∃ i b, v = .cont i b ∧ s.caps.cont.toNat ≤ i)) →
    step s = .next (s.setInputs rest)

/-- R21, R30 to R35: a host write of a length register takes a value up to its capacity, OSC takes every value, and
nothing else changes. -/
def Obligations.HostWriteSetsRegister : Prop :=
  ∀ (s : State) (n : Nat) (w : Word) (rest : List Input), s.inputs = .write (.reg n w) :: rest →
    s.status.busy = false →
    (n = 4 → w.toNat ≤ s.caps.inp.toNat → step s = .next { s with inputs := rest, inLen := w })
    ∧ (n = 5 → step s = .next { s with inputs := rest, osc := w })
    ∧ (n = 6 → w.toNat ≤ s.caps.pay.toNat → step s = .next { s with inputs := rest, payLen := w })
    ∧ (n = 7 → w.toNat ≤ s.caps.cont.toNat → step s = .next { s with inputs := rest, contLen := w })
    ∧ (n = 9 → w.toNat ≤ s.caps.bits.toNat → step s = .next { s with inputs := rest, bitsLen := w })

/-- R300: while BUSY = 1 a host read of STATUS is answered and every other host access is refused. -/
def Obligations.BusyBlockAnswersOnlyStatus : Prop :=
  ∀ (s : State) (a : Input) (rest : List Input), s.inputs = a :: rest → s.status.busy = true → a ≠ .reset →
    (a = .read .reg 1 → step s = .next { s with inputs := rest, reply := some (.word s.status.word) })
    ∧ (a ≠ .read .reg 1 → step s = .refused .hostAccessWhileBusy)

/-- R53, R290: the reset state, as State.reset has it and as the reset event puts it in place from any state, BUSY or
not. -/
def Obligations.ResetPutsResetState : Prop :=
  (∀ n, State.reset.register n = if n = 11 then 0xFFFFFFFF#32 else 0#32)
  ∧ (∀ k < 256, State.reset.freqAt k = 0#32 ∧ (State.reset.codeAt k).valid = false)
  ∧ ∀ (s : State) (rest : List Input), s.inputs = .reset :: rest →
      ∃ t, step s = .next t ∧ (∀ n, t.register n = if n = 11 then 0xFFFFFFFF#32 else 0#32)
        ∧ (∀ k < 256, t.freqAt k = 0#32 ∧ (t.codeAt k).valid = false)
        ∧ t.caps = s.caps ∧ t.inputs = rest

/-- R234, R293: CLR, whether or not an error is latched, gives the state that the reset event gives (`r`) except that
DONE = 1. -/
def Obligations.ClrGivesResetWithDone : Prop :=
  ∀ s : State, ∃ t, exec .clr s = .next t
    ∧ (∃ r, step { s with inputs := .reset :: s.inputs } = .next r
      ∧ t = { r with status := { r.status with done := true } })
    ∧ (∀ n, t.register n = if n = 1 then 2#32 else if n = 11 then 0xFFFFFFFF#32 else 0#32)
    ∧ (∀ k < 256, t.freqAt k = 0#32 ∧ (t.codeAt k).valid = false)
    ∧ t.caps = s.caps ∧ t.inputs = s.inputs ∧ t.reply = s.reply

/-! ### NOP, FREQ -/

/-- R232: NOP sets DONE, leaves BUSY clear, and leaves everything else as before; while an error is latched it is
ignored. -/
def Obligations.NopOnlySetsDone : Prop :=
  ∀ s : State,
    (s.status.err = false →
      exec .nop s = .next { s with status := { s.status with busy := false, done := true } })
    ∧ (s.status.err = true → exec .nop s = .next s)

/-- R110: after FREQ, FREQ[k] is the number of indexes i < IN_LEN with IN[i] = k, for every k, and EMPTY = (IN_LEN = 0);
no other cell changes. -/
def Obligations.FreqCountsEveryByteValue : Prop :=
  ∀ s : State, s.status.err = false →
    ∃ t, exec .freq s = .next t
      ∧ (∀ k < 256, (t.freqAt k).toNat
          = ((List.range s.inLen.toNat).filter (fun i => (s.inAt i).toNat == k)).length)
      ∧ t.status = Status.ended (decide (s.inLen = 0#32)) ∧ Framed .freq s t

/-- R111: the counts sum to IN_LEN, and as many of them are positive as IN[0..IN_LEN) has distinct byte values. -/
def Obligations.FreqCountsSumToLength : Prop :=
  ∀ s t : State, s.status.err = false → exec .freq s = .next t →
    ((List.range 256).map (fun k => (t.freqAt k).toNat)).sum = s.inLen.toNat
    ∧ ((List.range 256).filter (fun k => decide (0 < (t.freqAt k).toNat))).length = s.input.dedup.length

/-! ### BUILD -/

/-- R122: with every FREQ cell 0, BUILD leaves NNODES = 0 and ROOT = NONE. -/
def Obligations.BuildOfNothingGivesNoTree : Prop :=
  ∀ s : State, s.status.err = false → (∀ k < 256, s.freqAt k = 0#32) →
    ∃ t, exec .build s = .next t ∧ t.nnodes = 0#32 ∧ t.root = 0xFFFFFFFF#32
      ∧ t.status = Status.ended s.status.empty ∧ Framed .build s t

/-- R123: with exactly one non-zero FREQ cell, BUILD makes the leaf and its synthetic root. -/
def Obligations.BuildOfOneSymbolGivesUnaryRoot : Prop :=
  ∀ (s : State) (k : Nat), s.status.err = false → k < 256 → s.freqAt k ≠ 0#32 →
    (∀ j < 256, j ≠ k → s.freqAt j = 0#32) →
    ∃ t, exec .build s = .next t
      ∧ t.nodeAt 0 = ⟨.leaf, BitVec.ofNat 8 k, (s.freqAt k).setWidth 40, 0#9, 0#9⟩
      ∧ t.nodeAt 1 = ⟨.unary, 0#8, (s.freqAt k).setWidth 40, 0#9, 0#9⟩
      ∧ t.nnodes = 2#32 ∧ t.root = 1#32
      ∧ t.status = Status.ended s.status.empty ∧ Framed .build s t

/-- R121, R124, R125: with N >= 2 present symbols, BUILD writes the leaves in ascending symbol order and then N - 1
internal nodes, each merging the first and the second of the nodes then in the queue under the order of R124, its
frequency their exact sum. -/
def Obligations.BuildMergesTwoFirstOfQueue : Prop :=
  ∀ (s : State) (S : List Nat), s.status.err = false →
    S = (List.range 256).filter (fun k => decide (0 < (s.freqAt k).toNat)) → 2 ≤ S.length →
    ∃ t, exec .build s = .next t
      ∧ t.nnodes.toNat = 2 * S.length - 1 ∧ t.root.toNat = 2 * S.length - 2
      ∧ (∀ k < S.length, t.nodeAt k
          = ⟨.leaf, BitVec.ofNat 8 (S.getD k 0), (s.freqAt (S.getD k 0)).setWidth 40, 0#9, 0#9⟩)
      ∧ (∀ n, S.length ≤ n → n < 2 * S.length - 1 →
          ∃ a b, t.nodeAt n = ⟨.internal, 0#8, (t.nodeAt a).freq + (t.nodeAt b).freq, BitVec.ofNat 9 a, BitVec.ofNat 9 b⟩
            ∧ (t.nodeAt n).freq.toNat = (t.nodeAt a).freq.toNat + (t.nodeAt b).freq.toNat
            ∧ t.Queued S.length n a ∧ t.Queued S.length n b ∧ a ≠ b
            ∧ (∀ j, t.Queued S.length n j → j ≠ a → t.NodeBefore a j)
            ∧ (∀ j, t.Queued S.length n j → j ≠ a → j ≠ b → t.NodeBefore b j))
      ∧ t.status = Status.ended s.status.empty ∧ Framed .build s t

/-- R127: BUILD is a function of FREQ[0..255] alone. -/
def Obligations.BuildDependsOnFreqAlone : Prop :=
  ∀ s s' t t' : State, s.status.err = false → s'.status.err = false →
    (∀ k < 256, s.freqAt k = s'.freqAt k) → exec .build s = .next t → exec .build s' = .next t' →
    t.nnodes = t'.nnodes ∧ t.root = t'.root ∧ ∀ n < t.nnodes.toNat, t.nodeAt n = t'.nodeAt n

/-! ### GENCODE -/

/-- R141: with ROOT = NONE, GENCODE leaves all 256 entries invalid and NSYM reads 0. -/
def Obligations.GencodeOfNoTreeGivesEmptyTable : Prop :=
  ∀ s : State, s.status.err = false → s.root = 0xFFFFFFFF#32 →
    ∃ t, exec .gencode s = .next t ∧ (∀ k < 256, (t.codeAt k).valid = false) ∧ t.register 12 = 0#32
      ∧ t.status = Status.ended s.status.empty ∧ Framed .gencode s t

/-- R142: for a one-symbol tree GENCODE gives the symbol the code `0` and leaves every other entry invalid. -/
def Obligations.GencodeOfOneSymbolGivesZeroBit : Prop :=
  ∀ s : State, s.status.err = false → s.TreeSingle →
    ∃ t, exec .gencode s = .next t
      ∧ t.codeAt (s.nodeAt 0).sym.toNat = ⟨true, Code.clip [false]⟩
      ∧ (∀ k < 256, k ≠ (s.nodeAt 0).sym.toNat → (t.codeAt k).valid = false)
      ∧ t.status = Status.ended s.status.empty ∧ Framed .gencode s t

/-- R143, R144 (a): for a tree of shape Full with N leaves GENCODE gives the symbol of leaf k the edge labels of the
only path from ROOT to NODE[k] as its code, of 1 to N - 1 bits, and leaves every other entry invalid. -/
def Obligations.GencodeCodesArePaths : Prop :=
  ∀ (s : State) (N : Nat), s.status.err = false → s.TreeFull N →
    ∃ t, exec .gencode s = .next t
      ∧ (∀ k < N, ∃ c : Code, t.codeAt (s.nodeAt k).sym.toNat = ⟨true, c⟩
          ∧ s.LeadsTo s.root.toNat c.bits k ∧ (∀ path, s.LeadsTo s.root.toNat path k → path = c.bits)
          ∧ 1 ≤ c.bits.length ∧ c.bits.length ≤ N - 1)
      ∧ (∀ j < 256, (∀ k < N, (s.nodeAt k).sym.toNat ≠ j) → (t.codeAt j).valid = false)
      ∧ t.status = Status.ended s.status.empty ∧ Framed .gencode s t

/-- R144 (b), (c), (d): GENCODE on any tree of R50 ends normally and leaves a table that is TableValid. -/
def Obligations.GencodeTableIsValid : Prop :=
  ∀ s : State, s.status.err = false → s.TreeOk →
    ∃ t, exec .gencode s = .next t ∧ t.status.err = false ∧ t.TableValid

/-! ### PACK, UNPACK -/

/-- R152: PACK leaves PAY_LEN = ceil8(BITS_LEN), bit i of the bit-string in bit 7 - (i mod 8) of PAY[i div 8], and every
padding bit 0. -/
def Obligations.PackPlacesBitsMsbFirst : Prop :=
  ∀ s : State, s.status.err = false → ceil8 s.bitsLen.toNat ≤ s.caps.pay.toNat →
    ∃ t, exec .pack s = .next t ∧ t.payLen.toNat = ceil8 s.bitsLen.toNat
      ∧ (∀ i < 8 * ceil8 s.bitsLen.toNat, (t.payAt (i / 8)).getLsbD (7 - i % 8)
          = if i < s.bitsLen.toNat then s.bitAt i else false)
      ∧ t.status = Status.ended s.status.empty ∧ Framed .pack s t

/-- R155: UNPACK writes bit i of the payload to BITS[i] for i < BITS_LEN and changes no register but STATUS. -/
def Obligations.UnpackReadsBitsMsbFirst : Prop :=
  ∀ s : State, s.status.err = false → s.bitsLen.toNat ≤ 8 * s.payLen.toNat →
    ∃ t, exec .unpack s = .next t ∧ t.bitsLen = s.bitsLen
      ∧ (∀ i < s.bitsLen.toNat, t.bitAt i = (s.payAt (i / 8)).getLsbD (7 - i % 8))
      ∧ t.status = Status.ended s.status.empty ∧ Framed .unpack s t
      ∧ t.errcode = s.errcode ∧ t.errinfo = s.errinfo

/-- R155, R253: UNPACK raises TruncatedPayload(PAY_LEN) when BITS_LEN > 8 x PAY_LEN, and BITS_LEN becomes 0. -/
def Obligations.UnpackOfShortPayloadRaises : Prop :=
  ∀ s : State, s.status.err = false → 8 * s.payLen.toNat < s.bitsLen.toNat →
    ∃ t, exec .unpack s = .next t ∧ Raised s t .truncatedPayload s.payLen.toNat ∧ t.bitsLen = 0#32
      ∧ Framed .unpack s t

/-- R156: UNPACK after a PACK that ended normally, with BITS_LEN and the payload unchanged, ends normally and writes back
the bits that PACK read. -/
def Obligations.UnpackAfterPackRestoresBits : Prop :=
  ∀ s t t' : State, s.status.err = false → exec .pack s = .next t → t.status.err = false →
    t'.status.err = false → t'.bitsLen = t.bitsLen → t'.payLen = t.payLen →
    (∀ i < t.payLen.toNat, t'.payAt i = t.payAt i) →
    ∃ u, exec .unpack t' = .next u ∧ u.status.err = false ∧ u.bitsLen = s.bitsLen
      ∧ ∀ i < s.bitsLen.toNat, u.bitAt i = s.bitAt i

/-- R153: the laws of pack and unpack. -/
def Obligations.PackAndUnpackLaws : Prop :=
  (∀ b : List Bool, (packBits b).length = ceil8 b.length ∧ unpackBits (packBits b) b.length = b
    ∧ unpackBits (packBits b) (8 * ceil8 b.length) = b ++ List.replicate (8 * ceil8 b.length - b.length) false)
  ∧ (∀ p : List Byte, packBits (unpackBits p (8 * p.length)) = p)
  ∧ (∀ b c : List Bool, b.length % 8 = 0 → packBits (b ++ c) = packBits b ++ packBits c)
  ∧ (∃ b c : List Bool, packBits (b ++ c) ≠ packBits b ++ packBits c)
  ∧ (∀ b c : List Bool, b.length = c.length → packBits b = packBits c → b = c)
  ∧ packBits [true] = [0x80#8] ∧ packBits [true, false] = [0x80#8]
  ∧ packBits [true, false, false, false, false, false, false] = [0x80#8]

/-! ### The Code Table, ENCODE, DECODE -/

/-- R170: the table check finds no offender iff TableValid holds of CODE, and the offender it finds is the smallest. -/
def Obligations.TableCheckFindsSmallestOffender : Prop :=
  ∀ s : State, (offender s.table = none ↔ s.TableValid)
    ∧ ∀ k, offender s.table = some k ↔ s.OffenderIs k

/-- R170, R254, R262: ENCODE, DECODE and WRCONT on a table that is not valid raise InvalidCode(offender) before anything
else, whatever the lengths. R214, R216: so does RDCONT on a complete container whose records make a table that is not valid,
whatever the payload's length, and leaves no entry valid. -/
def Obligations.InvalidTableRaisesInvalidCode : Prop :=
  (∀ (s : State) (i : Instr) (k : Nat), i = .encode ∨ i = .decode ∨ i = .wrcont →
    s.status.err = false → s.OffenderIs k →
    ∃ t, exec i s = .next t ∧ Raised s t .invalidCode k ∧ Framed i s t
      ∧ ∀ n ∈ zeroedOnError i, t.register n = 0#32)
  ∧ ∀ (s : State) (records : List HeaderRecord) (osc : Word) (payload : List Byte) (k : Nat),
    s.status.err = false → (∀ r ∈ records, r.2.2.length = ceil8 r.2.1.toNat) →
    records.Pairwise (fun r q => r.1 ≠ q.1) →
    s.container = be32Bytes records.length ++ records.flatMap (fun r => r.1 :: r.2.1 :: r.2.2)
      ++ be32Bytes osc.toNat ++ payload →
    RecordOffends records k → (∀ j < k, ¬ RecordOffends records j) →
    ∃ t, exec .rdcont s = .next t ∧ Raised s t .invalidCode k ∧ Framed .rdcont s t
      ∧ t.osc = 0#32 ∧ t.payLen = 0#32 ∧ ∀ j < 256, (t.codeAt j).valid = false

/-- R172: ENCODE of an input whose bytes all have codes and whose code bits fit CAP_PAY leaves the packed concatenation
of the codes, in input order, PAY_LEN its length, OSC = IN_LEN. -/
def Obligations.EncodePacksConcatenatedCodes : Prop :=
  ∀ s : State, s.status.err = false → s.TableValid →
    (∀ i < s.inLen.toNat, (s.codeAt (s.inAt i).toNat).valid = true) →
    ceil8 (s.input.flatMap s.codeBits).length ≤ s.caps.pay.toNat →
    ∃ t, exec .encode s = .next t ∧ t.payload = packBits (s.input.flatMap s.codeBits)
      ∧ t.payLen.toNat = ceil8 (s.input.flatMap s.codeBits).length ∧ t.osc = s.inLen
      ∧ t.status = Status.ended (decide (s.inLen = 0#32)) ∧ Framed .encode s t
      ∧ t.errcode = s.errcode ∧ t.errinfo = s.errinfo

/-- R172, R255: ENCODE raises MissingCode(i) at the first input byte without a valid entry, if what comes before it fits
CAP_PAY; PAY_LEN and OSC become 0. -/
def Obligations.EncodeOfUncodedByteRaises : Prop :=
  ∀ (s : State) (i : Nat), s.status.err = false → s.TableValid → i < s.inLen.toNat →
    (s.codeAt (s.inAt i).toNat).valid = false → (∀ j < i, (s.codeAt (s.inAt j).toNat).valid = true) →
    ceil8 ((s.input.take i).flatMap s.codeBits).length ≤ s.caps.pay.toNat →
    ∃ t, exec .encode s = .next t ∧ Raised s t .missingCode i ∧ t.payLen = 0#32 ∧ t.osc = 0#32
      ∧ Framed .encode s t

/-- R172, R256: ENCODE raises Capacity(6) when the codes of the first i + 1 input bytes, all valid, do not fit CAP_PAY;
PAY_LEN and OSC become 0. -/
def Obligations.EncodeBeyondCapacityRaises : Prop :=
  ∀ (s : State) (i : Nat), s.status.err = false → s.TableValid → i < s.inLen.toNat →
    (∀ j ≤ i, (s.codeAt (s.inAt j).toNat).valid = true) →
    s.caps.pay.toNat < ceil8 ((s.input.take (i + 1)).flatMap s.codeBits).length →
    ∃ t, exec .encode s = .next t ∧ Raised s t .capacity 6 ∧ t.payLen = 0#32 ∧ t.osc = 0#32
      ∧ Framed .encode s t

/-- R173: when ENCODE ends normally the number of data bits is the sum of the code lengths of the input bytes, which is
the sum over symbols of occurrences times code length; PAY_LEN is ceil8 of it, and unpacking that many bits gives the
concatenated codes. -/
def Obligations.EncodeLengthLaw : Prop :=
  ∀ s t : State, s.status.err = false → exec .encode s = .next t → t.status.err = false →
    ((List.range s.inLen.toNat).map (fun i => (s.codeBits (s.inAt i)).length)).sum
      = ((List.range 256).map (fun k =>
          ((List.range s.inLen.toNat).filter (fun i => (s.inAt i).toNat == k)).length
            * (s.codeAt k).code.bits.length)).sum
    ∧ t.payLen.toNat = ceil8 ((List.range s.inLen.toNat).map (fun i => (s.codeBits (s.inAt i)).length)).sum
    ∧ unpackBits t.payload ((List.range s.inLen.toNat).map (fun i => (s.codeBits (s.inAt i)).length)).sum
      = s.input.flatMap s.codeBits

/-- R182, R184: when the payload bits begin with the codes of OSC symbols, DECODE emits exactly those symbols, whatever
bits are left. -/
def Obligations.DecodeEmitsCodedSymbols : Prop :=
  ∀ (s : State) (out : List Byte) (rest : List Bool), s.status.err = false → s.TableValid →
    s.osc.toNat ≤ s.caps.out.toNat → out.length = s.osc.toNat →
    (∀ b ∈ out, (s.codeAt b.toNat).valid = true) →
    unpackBits s.payload (8 * s.payLen.toNat) = out.flatMap s.codeBits ++ rest →
    ∃ t, exec .decode s = .next t ∧ t.outLen = s.osc ∧ t.output = out
      ∧ t.status = Status.ended (decide (s.osc = 0#32)) ∧ Framed .decode s t
      ∧ t.errcode = s.errcode ∧ t.errinfo = s.errinfo

/-- R182, R185, R253: when after k < OSC coded symbols the bits left begin with no valid code, DECODE raises
TruncatedPayload(k) and OUT_LEN becomes 0. -/
def Obligations.DecodeWithoutMatchRaises : Prop :=
  ∀ (s : State) (out : List Byte) (rest : List Bool), s.status.err = false → s.TableValid →
    s.osc.toNat ≤ s.caps.out.toNat → out.length < s.osc.toNat →
    (∀ b ∈ out, (s.codeAt b.toNat).valid = true) →
    unpackBits s.payload (8 * s.payLen.toNat) = out.flatMap s.codeBits ++ rest →
    (∀ k < 256, (s.codeAt k).valid = true → ¬ (s.codeAt k).code.bits <+: rest) →
    ∃ t, exec .decode s = .next t ∧ Raised s t .truncatedPayload out.length ∧ t.outLen = 0#32
      ∧ Framed .decode s t

/-- R187: DECODE after an ENCODE that ended normally, with CODE, PAY, PAY_LEN and OSC unchanged and OSC at most CAP_OUT,
ends normally and gives back the input. -/
def Obligations.DecodeAfterEncodeRestoresInput : Prop :=
  ∀ s t t' : State, s.status.err = false → exec .encode s = .next t → t.status.err = false →
    t'.status.err = false → (∀ k < 256, t'.codeAt k = t.codeAt k) → t'.payLen = t.payLen →
    (∀ i < t.payLen.toNat, t'.payAt i = t.payAt i) → t'.osc = t.osc → t'.osc.toNat ≤ t'.caps.out.toNat →
    ∃ u, exec .decode t' = .next u ∧ u.status.err = false ∧ u.outLen = s.inLen ∧ u.output = s.input

/-! ### WRCONT, RDCONT -/

/-- R202, R201: WRCONT writes symbolCount, one record for each valid symbol in ascending order, originalSymbolCount and
the payload, and CONT_LEN. -/
def Obligations.WrcontWritesContainer : Prop :=
  ∀ (s : State) (V : List Nat) (bytes : List Byte), s.status.err = false → s.TableValid →
    V = (List.range 256).filter (fun k => (s.codeAt k).valid) →
    bytes = be32Bytes V.length
      ++ V.flatMap (fun k => BitVec.ofNat 8 k :: BitVec.ofNat 8 (s.codeAt k).code.bits.length
          :: packBits (s.codeAt k).code.bits)
      ++ be32Bytes s.osc.toNat ++ (List.range s.payLen.toNat).map s.payAt →
    4 + (V.map (fun k => 2 + ceil8 (s.codeAt k).code.bits.length)).sum + 4 + s.payLen.toNat
      ≤ s.caps.cont.toNat →
    ∃ t, exec .wrcont s = .next t ∧ t.container = bytes
      ∧ t.contLen.toNat
        = 4 + (V.map (fun k => 2 + ceil8 (s.codeAt k).code.bits.length)).sum + 4 + s.payLen.toNat
      ∧ t.status = Status.ended s.status.empty ∧ Framed .wrcont s t
      ∧ t.errcode = s.errcode ∧ t.errinfo = s.errinfo

/-- R210, R91, R94, R217: RDCONT of a complete container, its records in any order and their unused code bits whatever
they hold, leaves exactly the recorded codes, OSC and the payload. A record is given as its symbolValue, its codeBitLength
and its code field. -/
def Obligations.RdcontReadsContainer : Prop :=
  ∀ (s : State) (records : List HeaderRecord) (osc : Word) (payload : List Byte),
    s.status.err = false → records.length ≤ 256 →
    (∀ r ∈ records, 1 ≤ r.2.1.toNat ∧ r.2.2.length = ceil8 r.2.1.toNat) →
    records.Pairwise (fun r q => r.1 ≠ q.1
      ∧ ¬ unpackBits r.2.2 r.2.1.toNat <+: unpackBits q.2.2 q.2.1.toNat
      ∧ ¬ unpackBits q.2.2 q.2.1.toNat <+: unpackBits r.2.2 r.2.1.toNat) →
    s.container = be32Bytes records.length ++ records.flatMap (fun r => r.1 :: r.2.1 :: r.2.2)
      ++ be32Bytes osc.toNat ++ payload →
    payload.length ≤ s.caps.pay.toNat →
    ∃ t, exec .rdcont s = .next t
      ∧ (∀ r ∈ records, t.codeAt r.1.toNat = ⟨true, Code.clip (unpackBits r.2.2 r.2.1.toNat)⟩)
      ∧ (∀ k < 256, (∀ r ∈ records, r.1.toNat ≠ k) → (t.codeAt k).valid = false)
      ∧ t.osc = osc ∧ t.payLen.toNat = payload.length ∧ t.payload = payload
      ∧ t.status = Status.ended s.status.empty ∧ Framed .rdcont s t
      ∧ t.errcode = s.errcode ∧ t.errinfo = s.errinfo

/-- R210 to R213: RDCONT raises MalformedHeader with the offset of the first field that cannot be read whole, of
symbolCount above 256, or of a repeated symbolValue. `tail` is what follows the complete records. -/
def Obligations.RdcontOfMalformedHeaderRaises : Prop :=
  ∀ (s : State) (p : Nat), s.status.err = false →
    ((s.container.length < 4 ∧ p = 0)
      ∨ (4 ≤ s.container.length ∧ 256 < be32At s.container 0 ∧ p = 0)
      ∨ ∃ (n : Nat) (records : List HeaderRecord) (tail : List Byte), n ≤ 256
          ∧ s.container = be32Bytes n ++ records.flatMap (fun r => r.1 :: r.2.1 :: r.2.2) ++ tail
          ∧ (∀ r ∈ records, r.2.2.length = ceil8 r.2.1.toNat)
          ∧ records.Pairwise (fun r q => r.1 ≠ q.1)
          ∧ ((records.length < n ∧ tail = [] ∧ p = s.container.length)
            ∨ (records.length < n
                ∧ ∃ sym more, tail = sym :: more ∧ (∃ r ∈ records, r.1 = sym)
                  ∧ p = s.container.length - tail.length)
            ∨ (records.length < n
                ∧ ∃ sym, tail = [sym] ∧ (∀ r ∈ records, r.1 ≠ sym) ∧ p = s.container.length)
            ∨ (records.length < n
                ∧ ∃ sym len field, tail = sym :: len :: field ∧ (∀ r ∈ records, r.1 ≠ sym)
                  ∧ field.length < ceil8 len.toNat ∧ p = s.container.length - field.length)
            ∨ (records.length = n ∧ tail.length < 4 ∧ p = s.container.length - tail.length))) →
    ∃ t, exec .rdcont s = .next t ∧ Raised s t .malformedHeader p ∧ Framed .rdcont s t
      ∧ t.osc = 0#32 ∧ t.payLen = 0#32 ∧ ∀ k < 256, (t.codeAt k).valid = false

/-- R220, R259: every RDCONT ends normally or in MalformedHeader, InvalidCode or Capacity, and on each error leaves every
CODE entry invalid and OSC and PAY_LEN 0. -/
def Obligations.RdcontNeverLeavesHalfReadTable : Prop :=
  ∀ s : State, s.status.err = false →
    ∃ t, exec .rdcont s = .next t
      ∧ (t.status = Status.ended s.status.empty
        ∨ ((∃ info, Raised s t .malformedHeader info ∨ Raised s t .invalidCode info ∨ Raised s t .capacity 6)
          ∧ t.osc = 0#32 ∧ t.payLen = 0#32 ∧ ∀ k < 256, (t.codeAt k).valid = false))

/-- R218: RDCONT after a WRCONT that ended normally, on any state with CONT and CONT_LEN unchanged, ends normally and gives
back the table, OSC and the payload, whatever CODE, OSC and PAY held before it; and WRCONT after that reproduces the same
bytes. Two premises are instances of the buffer invariant (R49): the payload fits CAP_PAY, the container CAP_CONT. -/
def Obligations.RdcontAfterWrcontRestoresAll : Prop :=
  ∀ s t t' : State, s.status.err = false → exec .wrcont s = .next t → t.status.err = false →
    t'.status.err = false → t'.contLen = t.contLen → (∀ i < t.contLen.toNat, t'.contAt i = t.contAt i) →
    s.payLen.toNat ≤ t'.caps.pay.toNat →
    ∃ u, exec .rdcont t' = .next u ∧ u.status.err = false
      ∧ (∀ k < 256, (u.codeAt k).valid = (s.codeAt k).valid
          ∧ ((s.codeAt k).valid = true → (u.codeAt k).code = (s.codeAt k).code))
      ∧ u.osc = s.osc ∧ u.payLen = s.payLen ∧ u.payload = s.payload
      ∧ (t'.contLen.toNat ≤ t'.caps.cont.toNat →
        ∃ v, exec .wrcont u = .next v ∧ v.status.err = false ∧ v.container = t.container)

/-! ### Errors and frames -/

/-- R256: PACK, DECODE, WRCONT and RDCONT (R215: on a complete container with a valid table) raise Capacity with the
destination's space id when the result does not fit, and set its length to 0. -/
def Obligations.ResultBeyondCapacityRaises : Prop :=
  ∀ s : State, s.status.err = false →
    (s.caps.pay.toNat < ceil8 s.bitsLen.toNat →
      ∃ t, exec .pack s = .next t ∧ Raised s t .capacity 6 ∧ t.payLen = 0#32 ∧ Framed .pack s t)
    ∧ (s.TableValid → s.caps.out.toNat < s.osc.toNat →
      ∃ t, exec .decode s = .next t ∧ Raised s t .capacity 8 ∧ t.outLen = 0#32 ∧ Framed .decode s t)
    ∧ (s.TableValid →
      s.caps.cont.toNat < 4 + (((List.range 256).filter (fun k => (s.codeAt k).valid)).map
        (fun k => 2 + ceil8 (s.codeAt k).code.bits.length)).sum + 4 + s.payLen.toNat →
      ∃ t, exec .wrcont s = .next t ∧ Raised s t .capacity 7 ∧ t.contLen = 0#32 ∧ Framed .wrcont s t)
    ∧ ∀ (records : List HeaderRecord) (osc : Word) (payload : List Byte),
      (∀ r ∈ records, r.2.2.length = ceil8 r.2.1.toNat) → records.Pairwise (fun r q => r.1 ≠ q.1) →
      (∀ j, ¬ RecordOffends records j) →
      s.container = be32Bytes records.length ++ records.flatMap (fun r => r.1 :: r.2.1 :: r.2.2)
        ++ be32Bytes osc.toNat ++ payload →
      s.caps.pay.toNat < payload.length →
      ∃ t, exec .rdcont s = .next t ∧ Raised s t .capacity 6 ∧ Framed .rdcont s t
        ∧ t.osc = 0#32 ∧ t.payLen = 0#32 ∧ ∀ k < 256, (t.codeAt k).valid = false

/-- R259: what an error leaves, for every command: the latch and the handshake, EMPTY as before, the command's length and
count registers 0, CODE invalid for RDCONT, and every cell that is no destination as before. -/
def Obligations.ErrorEffectOfEveryCommand : Prop :=
  ∀ (i : Instr) (s t : State), s.status.err = false → exec i s = .next t → t.status.err = true →
    (∃ kind info, Raised s t kind info) ∧ (∀ n ∈ zeroedOnError i, t.register n = 0#32)
    ∧ (i = .rdcont → ∀ k < 256, (t.codeAt k).valid = false) ∧ Framed i s t

/-- R258: which command can raise which kind; NOP, CLR, FREQ, BUILD and GENCODE raise none. -/
def Obligations.CommandsRaiseOnlyTheirKinds : Prop :=
  ∀ (i : Instr) (s t : State), s.status.err = false → exec i s = .next t → t.status.err = true →
    ∃ kind ∈ raisable i, t.errcode = BitVec.ofNat 32 kind.number

/-- R54, R26, R25: what NOP, FREQ, BUILD, GENCODE and CLR may change. Each changes no cell of any space but those named for
it (CLR may change every one) and none of the capacities; EMPTY changes only by FREQ and CLR, ERR only by CLR; while an
error is latched all but CLR change nothing. -/
def Obligations.FrameOfTableCommands : Prop :=
  ∀ (i : Instr) (s t : State),
    i = .nop ∨ i = .freq ∨ i = .build ∨ i = .gencode ∨ i = .clr → exec i s = .next t →
    Framed i s t
    ∧ (i ≠ .freq → i ≠ .clr → t.status.empty = s.status.empty)
    ∧ (i ≠ .clr → t.status.err = s.status.err ∧ (s.status.err = true → t = s))

/-- R54, R259, R26: what PACK, UNPACK, ENCODE, DECODE, WRCONT and RDCONT may change, on normal end or on an error: STATUS,
ERRCODE, ERRINFO, their length and count registers, and their destination space; EMPTY changes only on a normal end of ENCODE
or DECODE, ERRCODE and ERRINFO only on an error; while an error is latched nothing changes. -/
def Obligations.FrameOfBufferCommands : Prop :=
  ∀ (i : Instr) (s t : State),
    i = .pack ∨ i = .unpack ∨ i = .encode ∨ i = .decode ∨ i = .wrcont ∨ i = .rdcont → exec i s = .next t →
    Framed i s t
    ∧ (t.status.err = true ∨ (i ≠ .encode ∧ i ≠ .decode) → t.status.empty = s.status.empty)
    ∧ (t.status.err = false → t.errcode = s.errcode ∧ t.errinfo = s.errinfo)
    ∧ (s.status.err = true → t = s)

/-! ### Invariants -/

/-- The buffer invariant (R49), the tree invariant (R50), the latch, the idle engine (R27) and the form of the memories
hold at reset. -/
def Obligations.ResetMeetsInvariant : Prop := State.reset.Inv

/-- R49: every step keeps every length at most its capacity. -/
def Obligations.StepKeepsBufferBounds : Prop :=
  ∀ s t : State, s.BuffersFit → step s = .next t → t.BuffersFit

/-- R50: every step keeps the tree invariant, and no state has two of the three shapes. -/
def Obligations.StepKeepsTreeInvariant : Prop :=
  (∀ s t : State, s.TreeOk → step s = .next t → t.TreeOk)
  ∧ ∀ s : State, ¬ (s.TreeEmpty ∧ s.TreeSingle) ∧ (∀ N, ¬ (s.TreeEmpty ∧ s.TreeFull N))
      ∧ ∀ N, ¬ (s.TreeSingle ∧ s.TreeFull N)

/-- R27, R28, R29: every step keeps BUSY = 0 as the host sees it, ERRCODE and ERRINFO 0 while ERR = 0, and ERRCODE one of
1 to 6 while ERR = 1. -/
def Obligations.StepKeepsLatchAndIdle : Prop :=
  ∀ s t : State, s.status.busy = false → s.LatchOk → step s = .next t →
    t.status.busy = false ∧ t.LatchOk

/-- Every step keeps every memory in its one canonical form and every draw in use older than the next (the model's own
data: log entry 2). -/
def Obligations.StepKeepsMemoryForm : Prop :=
  ∀ s t : State, s.BuffersFit → s.MemoriesOk → s.DrawsOk → step s = .next t → t.MemoriesOk ∧ t.DrawsOk

/-- R220, R230, R310: from a state with BUSY = 0 and a tree of R50 every step completes: no accepted command stops the
machine. -/
def Obligations.StepAlwaysCompletes : Prop :=
  ∀ s : State, s.status.busy = false → s.TreeOk → ∃ t, step s = .next t ∧ t.caps = s.caps

/-! ### The whole flows -/

/-- R174, R144 (a): FREQ, BUILD, GENCODE over one input leave a valid table with an entry exactly for the byte values that
occur, of at most max(1, N - 1) bits each for N distinct bytes, and ENCODE then ends normally unless the payload does not
fit CAP_PAY, which ceil8(IN_LEN x 255), and for N <= 2 ceil8(IN_LEN), bytes are enough for. -/
def Obligations.CompressFailsOnlyOnCapacity : Prop :=
  ∀ s : State, s.status.err = false →
    ∃ t, execAll [.freq, .build, .gencode] s = .next t ∧ t.TableValid ∧ t.status.err = false
      ∧ (∀ k < 256, (t.codeAt k).valid = true ↔ ∃ i < s.inLen.toNat, (s.inAt i).toNat = k)
      ∧ (∀ k < 256, (t.codeAt k).valid = true →
          (t.codeAt k).code.bits.length ≤ max 1 (s.input.dedup.length - 1))
      ∧ ∃ u, exec .encode t = .next u
        ∧ (ceil8 (s.input.flatMap t.codeBits).length ≤ s.caps.pay.toNat → u.status.err = false)
        ∧ (u.status.err = true → Raised t u .capacity 6)
        ∧ (ceil8 (s.inLen.toNat * 255) ≤ s.caps.pay.toNat → u.status.err = false)
        ∧ (s.input.dedup.length ≤ 2 → ceil8 s.inLen.toNat ≤ s.caps.pay.toNat → u.status.err = false)

/-- R245: COMPRESS_FILE, if it ends without an error, and then DECOMPRESS_FILE, on any state with CONT and CONT_LEN
unchanged and CAP_PAY and CAP_OUT large enough, leave the input bytes in OUT. -/
def Obligations.DecompressFileRestoresInput : Prop :=
  ∀ s t t' : State, s.status.err = false →
    execAll Pseudo.compressFile.commands s = .next t → t.status.err = false →
    t'.status.err = false → t'.contLen = t.contLen → (∀ i < t.contLen.toNat, t'.contAt i = t.contAt i) →
    t.payLen.toNat ≤ t'.caps.pay.toNat → s.inLen.toNat ≤ t'.caps.out.toNat →
    ∃ u, execAll Pseudo.decompressFile.commands t' = .next u ∧ u.status.err = false
      ∧ u.outLen = s.inLen ∧ u.output = s.input
end

