-- ==== Sys2Proof/Laws/Bits.lean ====
section
/-! SUPPORT. The laws of the bits in a byte, of `packBits` and `unpackBits`, and of the u32 fields. -/

namespace Sys2Proof.Machine

/-- Bit 7 - k of the byte is `f k` (R150). -/
theorem byteOfBits_bit (f : Nat → Bool) {k : Nat} (hk : k < 8) :
    (byteOfBits f).getLsbD (7 - k) = f k := by
  have all : ∀ a b c d e g h i : Bool, ∀ k < 8,
      (BitVec.ofNat 8 (128 * a.toNat + 64 * b.toNat + 32 * c.toNat + 16 * d.toNat + 8 * e.toNat
        + 4 * g.toNat + 2 * h.toNat + i.toNat)).getLsbD (7 - k)
      = [a, b, c, d, e, g, h, i].getD k false := by decide
  unfold byteOfBits
  rw [all _ _ _ _ _ _ _ _ k hk]
  have : k = 0 ∨ k = 1 ∨ k = 2 ∨ k = 3 ∨ k = 4 ∨ k = 5 ∨ k = 6 ∨ k = 7 := by omega
  rcases this with rfl | rfl | rfl | rfl | rfl | rfl | rfl | rfl <;> rfl

@[simp] theorem length_packBits (b : List Bool) : (packBits b).length = ceil8 b.length := by
  simp [packBits]

@[simp] theorem length_unpackBits (p : List Byte) (n : Nat) : (unpackBits p n).length = n := by
  simp [unpackBits]

/-- Bit i of the packed bytes: the bit-string's, or 0 past its end (R150). -/
theorem bitOf_packBits (b : List Bool) {i : Nat} (h : i < 8 * ceil8 b.length) :
    bitOf (packBits b) i = b.getD i false := by
  have hj : i / 8 < ceil8 b.length := by omega
  have hb : (packBits b).getD (i / 8) 0#8 = byteOfBits (fun k => b.getD (8 * (i / 8) + k) false) := by
    simp [packBits, hj]
  rw [bitOf, hb, byteOfBits_bit _ (Nat.mod_lt i (by omega)), Nat.div_add_mod]

theorem getElem_unpackBits (p : List Byte) {n i : Nat} (h : i < (unpackBits p n).length) :
    (unpackBits p n)[i] = bitOf p i := by
  simp [unpackBits]

@[simp] theorem length_be32Bytes (v : Nat) : (be32Bytes v).length = 4 := rfl

end Sys2Proof.Machine
end

