-- ==== Sys2Proof/Laws/Table.lean ====
section
/-! SUPPORT. What the Code Table's readers answer: an entry as the pair of R44 and as a member of the table. -/

namespace Sys2Proof.Machine

theorem codeIn_eq_some {m : Memory CodeCell} {k : Nat} {c : Code} :
    codeIn m k = some c ↔ Memory.lookup m k = some (.valid c) := by
  unfold codeIn
  split <;> simp_all

/-- Entry `k` is valid with code `c` iff the table gives `k` the code `c`. -/
theorem State.codeAt_eq_valid {s : State} {k : Nat} {c : Code} :
    s.codeAt k = { valid := true, code := c } ↔ codeIn s.code.cells k = some c := by
  rw [codeIn_eq_some, State.codeAt, State.codeCell]
  rcases Memory.lookup s.code.cells k with _ | (c' | d) <;> simp [CodeCell.value]

theorem State.codeAt_valid {s : State} {k : Nat} :
    (s.codeAt k).valid = true ↔ ∃ c, codeIn s.code.cells k = some c := by
  simp only [← State.codeAt_eq_valid]
  constructor
  · intro h
    refine ⟨(s.codeAt k).code, ?_⟩
    rw [← h]
  · rintro ⟨c, h⟩
    rw [h]

theorem State.codeAt_code {s : State} {k : Nat} {c : Code} (h : codeIn s.code.cells k = some c) :
    (s.codeAt k).code = c := by
  rw [State.codeAt_eq_valid.2 h]

/-- The members of a table. -/
theorem mem_validEntries {m : Memory CodeCell} {e : Nat × Code} :
    e ∈ validEntries m ↔ e.1 < 256 ∧ codeIn m e.1 = some e.2 := by
  obtain ⟨k, c⟩ := e
  simp only [validEntries, List.mem_filterMap, List.mem_range, Option.map_eq_some_iff, Prod.mk.injEq]
  constructor
  · rintro ⟨k', hk, c', hc, rfl, rfl⟩
    exact ⟨hk, hc⟩
  · rintro ⟨hk, hc⟩
    exact ⟨k, hk, c, hc, rfl, rfl⟩

/-- A table is in ascending order of symbol. -/
theorem validEntries_ascending (m : Memory CodeCell) :
    (validEntries m).Pairwise (fun e f => e.1 < f.1) := by
  unfold validEntries
  refine List.Pairwise.filterMap _ ?_ List.pairwise_lt_range
  intro a b hab e he f hf
  simp only [Option.map_eq_some_iff] at he hf
  obtain ⟨_, _, rfl⟩ := he
  obtain ⟨_, _, rfl⟩ := hf
  exact hab

/-- Everything the table check can answer: it passes, or the smallest offender of the table. -/
theorem checkTable_cases (table : List (Nat × Code)) :
    (checkTable table = .ok () ∧ ∀ e ∈ table, offends table e = false)
    ∨ ∃ e ∈ table, offends table e = true
        ∧ checkTable table = .error { kind := .invalidCode, info := e.1 }
        ∧ ∃ front back, table = front ++ e :: back ∧ ∀ f ∈ front, offends table f = false := by
  unfold checkTable offender
  cases h : table.find? (offends table) with
  | none =>
    exact .inl ⟨rfl, fun e he => by simpa using List.find?_eq_none.1 h e he⟩
  | some e =>
    obtain ⟨ho, front, back, heq, hf⟩ := List.find?_eq_some_iff_append.1 h
    refine .inr ⟨e, List.mem_of_find?_eq_some h, ho, rfl, front, back, heq, fun f hf' => ?_⟩
    simpa using hf f hf'

end Sys2Proof.Machine
end

