-- ==== Sys2Proof/Laws/Loops.lean ====
section
/-! SUPPORT. Everything the loops of ENCODE, DECODE and RDCONT can answer (R172, R182, R210), said once. -/

namespace Sys2Proof.Machine

theorem ceil8_mono {m n : Nat} (h : m ≤ n) : ceil8 m ≤ ceil8 n := by
  unfold ceil8
  omega

/-! ### ENCODE -/

/-- The bits a table gives a byte; none if it gives no code. -/
def bitsIn (cells : Memory CodeCell) (b : Byte) : List Bool :=
  match codeIn cells b.toNat with
  | some c => c.bits
  | none => []

theorem bitsIn_eq {cells : Memory CodeCell} {b : Byte} {c : Code} (h : codeIn cells b.toNat = some c) :
    bitsIn cells b = c.bits := by
  simp [bitsIn, h]

/-- The loop of ENCODE ends with the concatenated codes if every byte has one and they fit (R172). -/
theorem encodeLoop_ok {cells : Memory CodeCell} {cap : Nat} : ∀ (l : List Byte) (i : Nat) (bits : List Bool),
    (∀ b ∈ l, (codeIn cells b.toNat).isSome) → ceil8 (bits ++ l.flatMap (bitsIn cells)).length ≤ cap →
    encodeLoop cells cap l i bits = .ok (bits ++ l.flatMap (bitsIn cells)) := by
  intro l
  induction l with
  | nil => intro i bits _ _; simp [encodeLoop]
  | cons b l ih =>
    intro i bits hc hfit
    obtain ⟨c, hcb⟩ := Option.isSome_iff_exists.1 (hc b (by simp))
    have hb := bitsIn_eq hcb
    rw [List.flatMap_cons, hb, ← List.append_assoc] at hfit ⊢
    have hle : ceil8 (bits ++ c.bits).length ≤ cap := by
      refine Nat.le_trans (ceil8_mono ?_) hfit
      rw [List.length_append (as := bits ++ c.bits)]
      exact Nat.le_add_right _ _
    simp only [encodeLoop, hcb]
    rw [if_neg (by omega), ih _ _ (fun b' hb' => hc b' (by simp [hb'])) hfit]

/-- The loop of ENCODE on input whose first part has codes that fit goes on with the rest of it (R172). -/
theorem encodeLoop_append {cells : Memory CodeCell} {cap : Nat} : ∀ (l l' : List Byte) (i : Nat) (bits : List Bool),
    (∀ b ∈ l, (codeIn cells b.toNat).isSome) → ceil8 (bits ++ l.flatMap (bitsIn cells)).length ≤ cap →
    encodeLoop cells cap (l ++ l') i bits
      = encodeLoop cells cap l' (i + l.length) (bits ++ l.flatMap (bitsIn cells)) := by
  intro l
  induction l with
  | nil => intro l' i bits _ _; simp
  | cons b l ih =>
    intro l' i bits hc hfit
    obtain ⟨c, hcb⟩ := Option.isSome_iff_exists.1 (hc b (by simp))
    have hb := bitsIn_eq hcb
    rw [List.flatMap_cons, hb, ← List.append_assoc] at hfit
    have hle : ceil8 (bits ++ c.bits).length ≤ cap := by
      refine Nat.le_trans (ceil8_mono ?_) hfit
      rw [List.length_append (as := bits ++ c.bits)]
      exact Nat.le_add_right _ _
    simp only [encodeLoop, hcb, List.cons_append, List.flatMap_cons, hb, List.length_cons]
    rw [if_neg (by omega), ih _ _ _ (fun b' hb' => hc b' (by simp [hb'])) hfit, List.append_assoc]
    congr 1
    omega

/-- Everything the loop of ENCODE can answer: the concatenated codes, MissingCode at the first byte without a
code, or Capacity at the first byte whose code no longer fits (R172). -/
theorem encodeLoop_cases {cells : Memory CodeCell} {cap : Nat} : ∀ (l : List Byte) (i : Nat) (bits : List Bool),
    (encodeLoop cells cap l i bits = .ok (bits ++ l.flatMap (bitsIn cells))
      ∧ (∀ b ∈ l, (codeIn cells b.toNat).isSome)
      ∧ (l = [] ∨ ceil8 (bits ++ l.flatMap (bitsIn cells)).length ≤ cap))
    ∨ ∃ front b back, l = front ++ b :: back ∧ (∀ x ∈ front, (codeIn cells x.toNat).isSome)
      ∧ (front = [] ∨ ceil8 (bits ++ front.flatMap (bitsIn cells)).length ≤ cap)
      ∧ ((codeIn cells b.toNat = none
          ∧ encodeLoop cells cap l i bits = .error { kind := .missingCode, info := i + front.length })
        ∨ ((codeIn cells b.toNat).isSome ∧ cap < ceil8 (bits ++ (front ++ [b]).flatMap (bitsIn cells)).length
          ∧ encodeLoop cells cap l i bits = .error { kind := .capacity, info := SpaceId.number .pay })) := by
  intro l
  induction l with
  | nil => intro i bits; exact .inl ⟨by simp [encodeLoop], by simp, .inl rfl⟩
  | cons b l ih =>
    intro i bits
    cases hcb : codeIn cells b.toNat with
    | none =>
      exact .inr ⟨[], b, l, rfl, by simp, .inl rfl, .inl ⟨hcb, by simp [encodeLoop, hcb]⟩⟩
    | some c =>
      have hb := bitsIn_eq hcb
      by_cases hfit : cap < ceil8 (bits ++ c.bits).length
      · refine .inr ⟨[], b, l, rfl, by simp, .inl rfl, .inr ⟨by simp [hcb], by simpa [hb] using hfit, ?_⟩⟩
        simp only [encodeLoop, hcb]
        rw [if_pos hfit]
      · have hstep : encodeLoop cells cap (b :: l) i bits = encodeLoop cells cap l (i + 1) (bits ++ c.bits) := by
          simp only [encodeLoop, hcb]
          rw [if_neg hfit]
        rw [hstep]
        rcases ih (i + 1) (bits ++ c.bits) with ⟨h1, h2, h3⟩ | ⟨front, d, back, h1, h2, h3, h4⟩
        · refine .inl ⟨?_, ?_, .inr ?_⟩
          · rw [h1, List.flatMap_cons, hb, List.append_assoc]
          · simpa [hcb] using h2
          · rw [List.flatMap_cons, hb, ← List.append_assoc]
            rcases h3 with rfl | h3
            · simpa using Nat.le_of_not_lt hfit
            · exact h3
        · refine .inr ⟨b :: front, d, back, by rw [h1, List.cons_append], by simpa [hcb] using h2, .inr ?_, ?_⟩
          · rw [List.flatMap_cons, hb, ← List.append_assoc]
            rcases h3 with rfl | h3
            · simpa using Nat.le_of_not_lt hfit
            · exact h3
          · have hlen : i + 1 + front.length = i + (b :: front).length := by
              rw [List.length_cons]
              omega
            rcases h4 with ⟨h4, h5⟩ | ⟨h4, h5, h6⟩
            · exact .inl ⟨h4, by rw [h5, hlen]⟩
            · refine .inr ⟨h4, ?_, h6⟩
              rw [List.cons_append, List.flatMap_cons, hb, ← List.append_assoc]
              exact h5

/-! ### DECODE -/

/-- The answer of `match`: a symbol of the table with that code (R180). -/
theorem matchCode_some {table : List (Nat × Code)} {c : List Bool} {b : Byte} (h : matchCode table c = some b) :
    ∃ e ∈ table, e.2.bits = c ∧ b = BitVec.ofNat 8 e.1 := by
  obtain ⟨e, he, rfl⟩ := Option.map_eq_some_iff.1 h
  exact ⟨e, List.mem_of_find?_eq_some he, by simpa using List.find?_some he, rfl⟩

theorem matchCode_none {table : List (Nat × Code)} {c : List Bool} :
    matchCode table c = none ↔ ∀ e ∈ table, e.2.bits ≠ c := by
  simp [matchCode, List.find?_eq_none]

/-- Everything the candidate loop of DECODE can answer: the symbol of the shortest code that matches, with the bits
after it, or nothing when no code matches a beginning of the bits that is at least as long as the candidate (R182). -/
theorem decodeSymbol_cases {table : List (Nat × Code)} : ∀ (bits cur : List Bool),
    (∃ front rest b, bits = front ++ rest ∧ decodeSymbol table cur bits = some (b, rest)
      ∧ matchCode table (cur ++ front) = some b
      ∧ ∀ short : List Bool, short <+: front → short ≠ front → matchCode table (cur ++ short) = none)
    ∨ (decodeSymbol table cur bits = none
      ∧ ∀ front : List Bool, front <+: bits → matchCode table (cur ++ front) = none) := by
  intro bits
  induction bits with
  | nil =>
    intro cur
    cases h : matchCode table cur with
    | none => exact .inr ⟨by simp [decodeSymbol, h], fun front hf => by simp [List.prefix_nil.1 hf, h]⟩
    | some b =>
      refine .inl ⟨[], [], b, rfl, by simp [decodeSymbol, h], by simpa using h, fun short hs hne => ?_⟩
      exact absurd (List.prefix_nil.1 hs) hne
  | cons x bits ih =>
    intro cur
    cases h : matchCode table cur with
    | some b =>
      refine .inl ⟨[], x :: bits, b, rfl, by simp [decodeSymbol, h], by simpa using h, fun short hs hne => ?_⟩
      exact absurd (List.prefix_nil.1 hs) hne
    | none =>
      have hstep : decodeSymbol table cur (x :: bits) = decodeSymbol table (cur ++ [x]) bits := by
        simp [decodeSymbol, h]
      rw [hstep]
      have tail : ∀ (short front : List Bool), short <+: x :: front →
          short = [] ∨ ∃ t, short = x :: t ∧ t <+: front := by
        intro short front hs
        cases short with
        | nil => exact .inl rfl
        | cons y t =>
          obtain ⟨rfl, ht⟩ := List.cons_prefix_cons.1 hs
          exact .inr ⟨t, rfl, ht⟩
      rcases ih (cur ++ [x]) with ⟨front, rest, b, h1, h2, h3, h4⟩ | ⟨h1, h2⟩
      · refine .inl ⟨x :: front, rest, b, by rw [h1, List.cons_append], h2, by simpa using h3, ?_⟩
        intro short hs hne
        rcases tail short front hs with rfl | ⟨t, rfl, ht⟩
        · simpa using h
        · have := h4 t ht (fun he => hne (by rw [he]))
          simpa using this
      · refine .inr ⟨h1, fun front hf => ?_⟩
        rcases tail front bits hf with rfl | ⟨t, rfl, ht⟩
        · simpa using h
        · simpa using h2 t ht

/-- The symbol loop of DECODE emits as many symbols as it was asked for, or raises TruncatedPayload with the number
emitted before (R182, R253). -/
theorem decodeLoop_cases {table : List (Nat × Code)} : ∀ (m k : Nat) (bits : List Bool),
    (∃ out, decodeLoop table m k bits = .ok out ∧ out.length = m)
    ∨ ∃ j < m, decodeLoop table m k bits = .error { kind := .truncatedPayload, info := k + j } := by
  intro m
  induction m with
  | zero => intro k bits; exact .inl ⟨[], rfl, rfl⟩
  | succ m ih =>
    intro k bits
    cases h : decodeSymbol table [] bits with
    | none => exact .inr ⟨0, by omega, by simp [decodeLoop, h]⟩
    | some p =>
      obtain ⟨b, rest⟩ := p
      rcases ih (k + 1) rest with ⟨out, h1, h2⟩ | ⟨j, hj, h1⟩
      · exact .inl ⟨b :: out, by simp [decodeLoop, h, h1], by simp [h2]⟩
      · refine .inr ⟨j + 1, by omega, ?_⟩
        simp only [decodeLoop, h, h1]
        congr 2
        omega

/-! ### RDCONT -/

/-- Everything the record loop of RDCONT can answer: a table and the offset after the last record, which lies in the
container, or MalformedHeader (R210, R212). -/
theorem parseRecords_cases (c : List Byte) : ∀ (n p : Nat) (cells : Memory CodeCell), p ≤ c.length →
    (∃ cells' p', parseRecords c n p cells = .ok (cells', p') ∧ p ≤ p' ∧ p' ≤ c.length)
    ∨ ∃ p', parseRecords c n p cells = .error (malformed p') ∧ p ≤ p' ∧ p' ≤ c.length := by
  intro n
  induction n with
  | zero => intro p cells hp; exact .inl ⟨cells, p, rfl, Nat.le_refl p, hp⟩
  | succ n ih =>
    intro p cells hp
    unfold parseRecords
    split
    · exact .inr ⟨p, rfl, Nat.le_refl p, hp⟩
    · dsimp only
      split
      · exact .inr ⟨p, rfl, Nat.le_refl p, hp⟩
      · split
        · exact .inr ⟨p + 1, rfl, by omega, by omega⟩
        · split
          · exact .inr ⟨p + 2, rfl, by omega, by omega⟩
          · rename_i hfit
            rcases ih _ (Memory.insert cells (c.getD p 0#8).toNat (.valid (Code.clip (unpackBits
                ((c.drop (p + 2)).take (ceil8 (c.getD (p + 1) 0#8).toNat)) (c.getD (p + 1) 0#8).toNat))))
                (Nat.le_of_not_lt hfit) with ⟨cells', p', h1, h2, h3⟩ | ⟨p', h1, h2, h3⟩
            · exact .inl ⟨cells', p', h1, by omega, h3⟩
            · exact .inr ⟨p', h1, by omega, h3⟩

/-- Everything the header tests of RDCONT can answer: the parsed container, whose payload is not longer than it, or
MalformedHeader with an offset in it (R210, R252). -/
theorem parseContainer_cases (c : List Byte) :
    (∃ parsed, parseContainer c = .ok parsed ∧ parsed.payload.length + 8 ≤ c.length)
    ∨ ∃ p, parseContainer c = .error (malformed p) ∧ p ≤ c.length := by
  unfold parseContainer
  split
  · exact .inr ⟨0, rfl, Nat.zero_le _⟩
  · split
    · exact .inr ⟨0, rfl, Nat.zero_le _⟩
    · rcases parseRecords_cases c (be32At c 0) 4 [] (by omega) with ⟨cells, p, h1, h2, h3⟩ | ⟨p, h1, h2, h3⟩
      · rw [h1]
        dsimp only
        split
        · exact .inr ⟨p, rfl, h3⟩
        · refine .inl ⟨_, rfl, ?_⟩
          simp only [List.length_drop]
          omega
      · rw [h1]
        exact .inr ⟨p, rfl, h3⟩

end Sys2Proof.Machine
end

