-- ==== Sys2Proof/Laws/Bodies.lean ====
section
/-! SUPPORT. Everything the body of each command can answer: the state of its normal end, or the error it raises (R258),
with the condition of each. -/

namespace Sys2Proof.Machine

theorem runPack_cases (s : State) :
    (ceil8 s.bitsLen.toNat ≤ s.caps.pay.toNat ∧ runPack s = .ok (s.storePay (packBits s.bitString)))
    ∨ (s.caps.pay.toNat < ceil8 s.bitsLen.toNat ∧ runPack s = .error { kind := .capacity, info := 6 }) := by
  unfold runPack
  split
  · exact .inr ⟨‹_›, rfl⟩
  · exact .inl ⟨Nat.le_of_not_lt ‹_›, rfl⟩

theorem runUnpack_cases (s : State) :
    (s.bitsLen.toNat ≤ 8 * s.payLen.toNat
      ∧ runUnpack s = .ok (s.storeBits (unpackBits s.payload s.bitsLen.toNat)))
    ∨ (8 * s.payLen.toNat < s.bitsLen.toNat
      ∧ runUnpack s = .error { kind := .truncatedPayload, info := s.payLen.toNat }) := by
  unfold runUnpack
  split
  · exact .inr ⟨‹_›, rfl⟩
  · exact .inl ⟨Nat.le_of_not_lt ‹_›, rfl⟩

theorem runEncode_cases (s : State) :
    (∃ bits, checkTable s.table = .ok ()
      ∧ encodeLoop s.code.cells s.caps.pay.toNat s.input 0 [] = .ok bits
      ∧ runEncode s = .ok (((s.storePay (packBits bits)).setOsc s.inLen).setEmpty (s.inLen == 0#32)))
    ∨ (∃ r, checkTable s.table = .error r ∧ runEncode s = .error r)
    ∨ ∃ r, checkTable s.table = .ok ()
      ∧ encodeLoop s.code.cells s.caps.pay.toNat s.input 0 [] = .error r ∧ runEncode s = .error r := by
  unfold runEncode
  cases hc : checkTable s.table with
  | error r => exact .inr (.inl ⟨r, rfl, rfl⟩)
  | ok _ =>
    cases hl : encodeLoop s.code.cells s.caps.pay.toNat s.input 0 [] with
    | error r => exact .inr (.inr ⟨r, rfl, rfl, rfl⟩)
    | ok bits => exact .inl ⟨bits, rfl, rfl, rfl⟩

theorem runDecode_cases (s : State) :
    (∃ out, checkTable s.table = .ok () ∧ s.osc.toNat ≤ s.caps.out.toNat ∧ out.length = s.osc.toNat
      ∧ decodeLoop s.table s.osc.toNat 0 (unpackBits s.payload (8 * s.payLen.toNat)) = .ok out
      ∧ runDecode s = .ok ((s.storeOut out).setEmpty (s.osc == 0#32)))
    ∨ (∃ r, checkTable s.table = .error r ∧ runDecode s = .error r)
    ∨ (checkTable s.table = .ok () ∧ s.caps.out.toNat < s.osc.toNat
      ∧ runDecode s = .error { kind := .capacity, info := 8 })
    ∨ ∃ k < s.osc.toNat, checkTable s.table = .ok () ∧ s.osc.toNat ≤ s.caps.out.toNat
      ∧ decodeLoop s.table s.osc.toNat 0 (unpackBits s.payload (8 * s.payLen.toNat))
          = .error { kind := .truncatedPayload, info := k }
      ∧ runDecode s = .error { kind := .truncatedPayload, info := k } := by
  unfold runDecode
  cases hc : checkTable s.table with
  | error r => exact .inr (.inl ⟨r, rfl, rfl⟩)
  | ok _ =>
    dsimp only
    split
    · exact .inr (.inr (.inl ⟨rfl, ‹_›, rfl⟩))
    · rename_i hcap
      have hle := Nat.le_of_not_lt hcap
      rcases decodeLoop_cases (table := s.table) s.osc.toNat 0 (unpackBits s.payload (8 * s.payLen.toNat))
        with ⟨out, h1, h2⟩ | ⟨k, hk, h1⟩
      · exact .inl ⟨out, rfl, hle, h2, h1, by rw [h1]⟩
      · rw [Nat.zero_add] at h1
        exact .inr (.inr (.inr ⟨k, hk, rfl, hle, h1, by rw [h1]⟩))

theorem runWrcont_cases (s : State) :
    (checkTable s.table = .ok () ∧ containerLength s.table s.payLen.toNat ≤ s.caps.cont.toNat
      ∧ runWrcont s = .ok (s.storeCont (containerBytes s.table s.osc.toNat s.payload)))
    ∨ (∃ r, checkTable s.table = .error r ∧ runWrcont s = .error r)
    ∨ (checkTable s.table = .ok () ∧ s.caps.cont.toNat < containerLength s.table s.payLen.toNat
      ∧ runWrcont s = .error { kind := .capacity, info := 7 }) := by
  unfold runWrcont
  cases hc : checkTable s.table with
  | error r => exact .inr (.inl ⟨r, rfl, rfl⟩)
  | ok _ =>
    dsimp only
    split
    · exact .inr (.inr ⟨rfl, ‹_›, rfl⟩)
    · exact .inl ⟨rfl, Nat.le_of_not_lt ‹_›, rfl⟩

theorem runRdcont_cases (s : State) :
    (∃ parsed, parseContainer s.container = .ok parsed
      ∧ checkTable (validEntries parsed.cells) = .ok () ∧ parsed.payload.length ≤ s.caps.pay.toNat
      ∧ runRdcont s
          = .ok (((s.storeCode parsed.cells).storePay parsed.payload).setOsc (BitVec.ofNat 32 parsed.osc)))
    ∨ (∃ p, parseContainer s.container = .error (malformed p) ∧ runRdcont s = .error (malformed p))
    ∨ (∃ parsed r, parseContainer s.container = .ok parsed
      ∧ checkTable (validEntries parsed.cells) = .error r ∧ runRdcont s = .error r)
    ∨ ∃ parsed, parseContainer s.container = .ok parsed
      ∧ checkTable (validEntries parsed.cells) = .ok () ∧ s.caps.pay.toNat < parsed.payload.length
      ∧ runRdcont s = .error { kind := .capacity, info := 6 } := by
  unfold runRdcont
  rcases parseContainer_cases s.container with ⟨parsed, h1, _⟩ | ⟨p, h1, _⟩
  · rw [h1]
    dsimp only
    cases hc : checkTable (validEntries parsed.cells) with
    | error r => exact .inr (.inr (.inl ⟨parsed, r, rfl, hc, rfl⟩))
    | ok _ =>
      dsimp only
      split
      · exact .inr (.inr (.inr ⟨parsed, rfl, hc, ‹_›, rfl⟩))
      · exact .inl ⟨parsed, rfl, hc, Nat.le_of_not_lt ‹_›, rfl⟩
  · rw [h1]
    exact .inr (.inl ⟨p, rfl, rfl⟩)

end Sys2Proof.Machine
end

