-- ==== Sys2Proof/Laws/State.lean ====
section
/-! SUPPORT. What every named update of the state does to every field, one lemma each, true by rfl. -/

namespace Sys2Proof.Machine

/-! ### accept -/

@[simp] theorem State.accept_status (s : State) : s.accept.status = { s.status with done := false, busy := true } := rfl
@[simp] theorem State.accept_errcode (s : State) : s.accept.errcode = s.errcode := rfl
@[simp] theorem State.accept_errinfo (s : State) : s.accept.errinfo = s.errinfo := rfl
@[simp] theorem State.accept_inLen (s : State) : s.accept.inLen = s.inLen := rfl
@[simp] theorem State.accept_osc (s : State) : s.accept.osc = s.osc := rfl
@[simp] theorem State.accept_payLen (s : State) : s.accept.payLen = s.payLen := rfl
@[simp] theorem State.accept_contLen (s : State) : s.accept.contLen = s.contLen := rfl
@[simp] theorem State.accept_outLen (s : State) : s.accept.outLen = s.outLen := rfl
@[simp] theorem State.accept_bitsLen (s : State) : s.accept.bitsLen = s.bitsLen := rfl
@[simp] theorem State.accept_nnodes (s : State) : s.accept.nnodes = s.nnodes := rfl
@[simp] theorem State.accept_root (s : State) : s.accept.root = s.root := rfl
@[simp] theorem State.accept_inp (s : State) : s.accept.inp = s.inp := rfl
@[simp] theorem State.accept_freq (s : State) : s.accept.freq = s.freq := rfl
@[simp] theorem State.accept_node (s : State) : s.accept.node = s.node := rfl
@[simp] theorem State.accept_code (s : State) : s.accept.code = s.code := rfl
@[simp] theorem State.accept_bits (s : State) : s.accept.bits = s.bits := rfl
@[simp] theorem State.accept_pay (s : State) : s.accept.pay = s.pay := rfl
@[simp] theorem State.accept_cont (s : State) : s.accept.cont = s.cont := rfl
@[simp] theorem State.accept_out (s : State) : s.accept.out = s.out := rfl
@[simp] theorem State.accept_caps (s : State) : s.accept.caps = s.caps := rfl
@[simp] theorem State.accept_inputs (s : State) : s.accept.inputs = s.inputs := rfl
@[simp] theorem State.accept_reply (s : State) : s.accept.reply = s.reply := rfl
@[simp] theorem State.accept_draws (s : State) : s.accept.draws = s.draws := rfl

/-! ### finish -/

@[simp] theorem State.finish_status (s : State) : s.finish.status = { s.status with busy := false, done := true } := rfl
@[simp] theorem State.finish_errcode (s : State) : s.finish.errcode = s.errcode := rfl
@[simp] theorem State.finish_errinfo (s : State) : s.finish.errinfo = s.errinfo := rfl
@[simp] theorem State.finish_inLen (s : State) : s.finish.inLen = s.inLen := rfl
@[simp] theorem State.finish_osc (s : State) : s.finish.osc = s.osc := rfl
@[simp] theorem State.finish_payLen (s : State) : s.finish.payLen = s.payLen := rfl
@[simp] theorem State.finish_contLen (s : State) : s.finish.contLen = s.contLen := rfl
@[simp] theorem State.finish_outLen (s : State) : s.finish.outLen = s.outLen := rfl
@[simp] theorem State.finish_bitsLen (s : State) : s.finish.bitsLen = s.bitsLen := rfl
@[simp] theorem State.finish_nnodes (s : State) : s.finish.nnodes = s.nnodes := rfl
@[simp] theorem State.finish_root (s : State) : s.finish.root = s.root := rfl
@[simp] theorem State.finish_inp (s : State) : s.finish.inp = s.inp := rfl
@[simp] theorem State.finish_freq (s : State) : s.finish.freq = s.freq := rfl
@[simp] theorem State.finish_node (s : State) : s.finish.node = s.node := rfl
@[simp] theorem State.finish_code (s : State) : s.finish.code = s.code := rfl
@[simp] theorem State.finish_bits (s : State) : s.finish.bits = s.bits := rfl
@[simp] theorem State.finish_pay (s : State) : s.finish.pay = s.pay := rfl
@[simp] theorem State.finish_cont (s : State) : s.finish.cont = s.cont := rfl
@[simp] theorem State.finish_out (s : State) : s.finish.out = s.out := rfl
@[simp] theorem State.finish_caps (s : State) : s.finish.caps = s.caps := rfl
@[simp] theorem State.finish_inputs (s : State) : s.finish.inputs = s.inputs := rfl
@[simp] theorem State.finish_reply (s : State) : s.finish.reply = s.reply := rfl
@[simp] theorem State.finish_draws (s : State) : s.finish.draws = s.draws := rfl

/-! ### setEmpty -/

@[simp] theorem State.setEmpty_status (s : State) (e : Bool) : (s.setEmpty e).status = { s.status with empty := e } := rfl
@[simp] theorem State.setEmpty_errcode (s : State) (e : Bool) : (s.setEmpty e).errcode = s.errcode := rfl
@[simp] theorem State.setEmpty_errinfo (s : State) (e : Bool) : (s.setEmpty e).errinfo = s.errinfo := rfl
@[simp] theorem State.setEmpty_inLen (s : State) (e : Bool) : (s.setEmpty e).inLen = s.inLen := rfl
@[simp] theorem State.setEmpty_osc (s : State) (e : Bool) : (s.setEmpty e).osc = s.osc := rfl
@[simp] theorem State.setEmpty_payLen (s : State) (e : Bool) : (s.setEmpty e).payLen = s.payLen := rfl
@[simp] theorem State.setEmpty_contLen (s : State) (e : Bool) : (s.setEmpty e).contLen = s.contLen := rfl
@[simp] theorem State.setEmpty_outLen (s : State) (e : Bool) : (s.setEmpty e).outLen = s.outLen := rfl
@[simp] theorem State.setEmpty_bitsLen (s : State) (e : Bool) : (s.setEmpty e).bitsLen = s.bitsLen := rfl
@[simp] theorem State.setEmpty_nnodes (s : State) (e : Bool) : (s.setEmpty e).nnodes = s.nnodes := rfl
@[simp] theorem State.setEmpty_root (s : State) (e : Bool) : (s.setEmpty e).root = s.root := rfl
@[simp] theorem State.setEmpty_inp (s : State) (e : Bool) : (s.setEmpty e).inp = s.inp := rfl
@[simp] theorem State.setEmpty_freq (s : State) (e : Bool) : (s.setEmpty e).freq = s.freq := rfl
@[simp] theorem State.setEmpty_node (s : State) (e : Bool) : (s.setEmpty e).node = s.node := rfl
@[simp] theorem State.setEmpty_code (s : State) (e : Bool) : (s.setEmpty e).code = s.code := rfl
@[simp] theorem State.setEmpty_bits (s : State) (e : Bool) : (s.setEmpty e).bits = s.bits := rfl
@[simp] theorem State.setEmpty_pay (s : State) (e : Bool) : (s.setEmpty e).pay = s.pay := rfl
@[simp] theorem State.setEmpty_cont (s : State) (e : Bool) : (s.setEmpty e).cont = s.cont := rfl
@[simp] theorem State.setEmpty_out (s : State) (e : Bool) : (s.setEmpty e).out = s.out := rfl
@[simp] theorem State.setEmpty_caps (s : State) (e : Bool) : (s.setEmpty e).caps = s.caps := rfl
@[simp] theorem State.setEmpty_inputs (s : State) (e : Bool) : (s.setEmpty e).inputs = s.inputs := rfl
@[simp] theorem State.setEmpty_reply (s : State) (e : Bool) : (s.setEmpty e).reply = s.reply := rfl
@[simp] theorem State.setEmpty_draws (s : State) (e : Bool) : (s.setEmpty e).draws = s.draws := rfl

/-! ### storeFreq -/

@[simp] theorem State.storeFreq_status (s : State) (m : Memory Word) : (s.storeFreq m).status = s.status := rfl
@[simp] theorem State.storeFreq_errcode (s : State) (m : Memory Word) : (s.storeFreq m).errcode = s.errcode := rfl
@[simp] theorem State.storeFreq_errinfo (s : State) (m : Memory Word) : (s.storeFreq m).errinfo = s.errinfo := rfl
@[simp] theorem State.storeFreq_inLen (s : State) (m : Memory Word) : (s.storeFreq m).inLen = s.inLen := rfl
@[simp] theorem State.storeFreq_osc (s : State) (m : Memory Word) : (s.storeFreq m).osc = s.osc := rfl
@[simp] theorem State.storeFreq_payLen (s : State) (m : Memory Word) : (s.storeFreq m).payLen = s.payLen := rfl
@[simp] theorem State.storeFreq_contLen (s : State) (m : Memory Word) : (s.storeFreq m).contLen = s.contLen := rfl
@[simp] theorem State.storeFreq_outLen (s : State) (m : Memory Word) : (s.storeFreq m).outLen = s.outLen := rfl
@[simp] theorem State.storeFreq_bitsLen (s : State) (m : Memory Word) : (s.storeFreq m).bitsLen = s.bitsLen := rfl
@[simp] theorem State.storeFreq_nnodes (s : State) (m : Memory Word) : (s.storeFreq m).nnodes = s.nnodes := rfl
@[simp] theorem State.storeFreq_root (s : State) (m : Memory Word) : (s.storeFreq m).root = s.root := rfl
@[simp] theorem State.storeFreq_inp (s : State) (m : Memory Word) : (s.storeFreq m).inp = s.inp := rfl
@[simp] theorem State.storeFreq_freq (s : State) (m : Memory Word) : (s.storeFreq m).freq = m := rfl
@[simp] theorem State.storeFreq_node (s : State) (m : Memory Word) : (s.storeFreq m).node = s.node := rfl
@[simp] theorem State.storeFreq_code (s : State) (m : Memory Word) : (s.storeFreq m).code = s.code := rfl
@[simp] theorem State.storeFreq_bits (s : State) (m : Memory Word) : (s.storeFreq m).bits = s.bits := rfl
@[simp] theorem State.storeFreq_pay (s : State) (m : Memory Word) : (s.storeFreq m).pay = s.pay := rfl
@[simp] theorem State.storeFreq_cont (s : State) (m : Memory Word) : (s.storeFreq m).cont = s.cont := rfl
@[simp] theorem State.storeFreq_out (s : State) (m : Memory Word) : (s.storeFreq m).out = s.out := rfl
@[simp] theorem State.storeFreq_caps (s : State) (m : Memory Word) : (s.storeFreq m).caps = s.caps := rfl
@[simp] theorem State.storeFreq_inputs (s : State) (m : Memory Word) : (s.storeFreq m).inputs = s.inputs := rfl
@[simp] theorem State.storeFreq_reply (s : State) (m : Memory Word) : (s.storeFreq m).reply = s.reply := rfl
@[simp] theorem State.storeFreq_draws (s : State) (m : Memory Word) : (s.storeFreq m).draws = s.draws := rfl

/-! ### storeTree -/

@[simp] theorem State.storeTree_status (s : State) (a : List NodeRec) (r : Word) : (s.storeTree a r).status = s.status := rfl
@[simp] theorem State.storeTree_errcode (s : State) (a : List NodeRec) (r : Word) : (s.storeTree a r).errcode = s.errcode := rfl
@[simp] theorem State.storeTree_errinfo (s : State) (a : List NodeRec) (r : Word) : (s.storeTree a r).errinfo = s.errinfo := rfl
@[simp] theorem State.storeTree_inLen (s : State) (a : List NodeRec) (r : Word) : (s.storeTree a r).inLen = s.inLen := rfl
@[simp] theorem State.storeTree_osc (s : State) (a : List NodeRec) (r : Word) : (s.storeTree a r).osc = s.osc := rfl
@[simp] theorem State.storeTree_payLen (s : State) (a : List NodeRec) (r : Word) : (s.storeTree a r).payLen = s.payLen := rfl
@[simp] theorem State.storeTree_contLen (s : State) (a : List NodeRec) (r : Word) : (s.storeTree a r).contLen = s.contLen := rfl
@[simp] theorem State.storeTree_outLen (s : State) (a : List NodeRec) (r : Word) : (s.storeTree a r).outLen = s.outLen := rfl
@[simp] theorem State.storeTree_bitsLen (s : State) (a : List NodeRec) (r : Word) : (s.storeTree a r).bitsLen = s.bitsLen := rfl
@[simp] theorem State.storeTree_nnodes (s : State) (a : List NodeRec) (r : Word) : (s.storeTree a r).nnodes = BitVec.ofNat 32 a.length := rfl
@[simp] theorem State.storeTree_root (s : State) (a : List NodeRec) (r : Word) : (s.storeTree a r).root = r := rfl
@[simp] theorem State.storeTree_inp (s : State) (a : List NodeRec) (r : Word) : (s.storeTree a r).inp = s.inp := rfl
@[simp] theorem State.storeTree_freq (s : State) (a : List NodeRec) (r : Word) : (s.storeTree a r).freq = s.freq := rfl
@[simp] theorem State.storeTree_node (s : State) (a : List NodeRec) (r : Word) : (s.storeTree a r).node = Space.filled s.draws a := rfl
@[simp] theorem State.storeTree_code (s : State) (a : List NodeRec) (r : Word) : (s.storeTree a r).code = s.code := rfl
@[simp] theorem State.storeTree_bits (s : State) (a : List NodeRec) (r : Word) : (s.storeTree a r).bits = s.bits := rfl
@[simp] theorem State.storeTree_pay (s : State) (a : List NodeRec) (r : Word) : (s.storeTree a r).pay = s.pay := rfl
@[simp] theorem State.storeTree_cont (s : State) (a : List NodeRec) (r : Word) : (s.storeTree a r).cont = s.cont := rfl
@[simp] theorem State.storeTree_out (s : State) (a : List NodeRec) (r : Word) : (s.storeTree a r).out = s.out := rfl
@[simp] theorem State.storeTree_caps (s : State) (a : List NodeRec) (r : Word) : (s.storeTree a r).caps = s.caps := rfl
@[simp] theorem State.storeTree_inputs (s : State) (a : List NodeRec) (r : Word) : (s.storeTree a r).inputs = s.inputs := rfl
@[simp] theorem State.storeTree_reply (s : State) (a : List NodeRec) (r : Word) : (s.storeTree a r).reply = s.reply := rfl
@[simp] theorem State.storeTree_draws (s : State) (a : List NodeRec) (r : Word) : (s.storeTree a r).draws = s.draws + 1 := rfl

/-! ### storeCode -/

@[simp] theorem State.storeCode_status (s : State) (m : Memory CodeCell) : (s.storeCode m).status = s.status := rfl
@[simp] theorem State.storeCode_errcode (s : State) (m : Memory CodeCell) : (s.storeCode m).errcode = s.errcode := rfl
@[simp] theorem State.storeCode_errinfo (s : State) (m : Memory CodeCell) : (s.storeCode m).errinfo = s.errinfo := rfl
@[simp] theorem State.storeCode_inLen (s : State) (m : Memory CodeCell) : (s.storeCode m).inLen = s.inLen := rfl
@[simp] theorem State.storeCode_osc (s : State) (m : Memory CodeCell) : (s.storeCode m).osc = s.osc := rfl
@[simp] theorem State.storeCode_payLen (s : State) (m : Memory CodeCell) : (s.storeCode m).payLen = s.payLen := rfl
@[simp] theorem State.storeCode_contLen (s : State) (m : Memory CodeCell) : (s.storeCode m).contLen = s.contLen := rfl
@[simp] theorem State.storeCode_outLen (s : State) (m : Memory CodeCell) : (s.storeCode m).outLen = s.outLen := rfl
@[simp] theorem State.storeCode_bitsLen (s : State) (m : Memory CodeCell) : (s.storeCode m).bitsLen = s.bitsLen := rfl
@[simp] theorem State.storeCode_nnodes (s : State) (m : Memory CodeCell) : (s.storeCode m).nnodes = s.nnodes := rfl
@[simp] theorem State.storeCode_root (s : State) (m : Memory CodeCell) : (s.storeCode m).root = s.root := rfl
@[simp] theorem State.storeCode_inp (s : State) (m : Memory CodeCell) : (s.storeCode m).inp = s.inp := rfl
@[simp] theorem State.storeCode_freq (s : State) (m : Memory CodeCell) : (s.storeCode m).freq = s.freq := rfl
@[simp] theorem State.storeCode_node (s : State) (m : Memory CodeCell) : (s.storeCode m).node = s.node := rfl
@[simp] theorem State.storeCode_code (s : State) (m : Memory CodeCell) : (s.storeCode m).code = { draw := s.draws, cells := m } := rfl
@[simp] theorem State.storeCode_bits (s : State) (m : Memory CodeCell) : (s.storeCode m).bits = s.bits := rfl
@[simp] theorem State.storeCode_pay (s : State) (m : Memory CodeCell) : (s.storeCode m).pay = s.pay := rfl
@[simp] theorem State.storeCode_cont (s : State) (m : Memory CodeCell) : (s.storeCode m).cont = s.cont := rfl
@[simp] theorem State.storeCode_out (s : State) (m : Memory CodeCell) : (s.storeCode m).out = s.out := rfl
@[simp] theorem State.storeCode_caps (s : State) (m : Memory CodeCell) : (s.storeCode m).caps = s.caps := rfl
@[simp] theorem State.storeCode_inputs (s : State) (m : Memory CodeCell) : (s.storeCode m).inputs = s.inputs := rfl
@[simp] theorem State.storeCode_reply (s : State) (m : Memory CodeCell) : (s.storeCode m).reply = s.reply := rfl
@[simp] theorem State.storeCode_draws (s : State) (m : Memory CodeCell) : (s.storeCode m).draws = s.draws + 1 := rfl

/-! ### storeBits -/

@[simp] theorem State.storeBits_status (s : State) (b : List Bool) : (s.storeBits b).status = s.status := rfl
@[simp] theorem State.storeBits_errcode (s : State) (b : List Bool) : (s.storeBits b).errcode = s.errcode := rfl
@[simp] theorem State.storeBits_errinfo (s : State) (b : List Bool) : (s.storeBits b).errinfo = s.errinfo := rfl
@[simp] theorem State.storeBits_inLen (s : State) (b : List Bool) : (s.storeBits b).inLen = s.inLen := rfl
@[simp] theorem State.storeBits_osc (s : State) (b : List Bool) : (s.storeBits b).osc = s.osc := rfl
@[simp] theorem State.storeBits_payLen (s : State) (b : List Bool) : (s.storeBits b).payLen = s.payLen := rfl
@[simp] theorem State.storeBits_contLen (s : State) (b : List Bool) : (s.storeBits b).contLen = s.contLen := rfl
@[simp] theorem State.storeBits_outLen (s : State) (b : List Bool) : (s.storeBits b).outLen = s.outLen := rfl
@[simp] theorem State.storeBits_bitsLen (s : State) (b : List Bool) : (s.storeBits b).bitsLen = s.bitsLen := rfl
@[simp] theorem State.storeBits_nnodes (s : State) (b : List Bool) : (s.storeBits b).nnodes = s.nnodes := rfl
@[simp] theorem State.storeBits_root (s : State) (b : List Bool) : (s.storeBits b).root = s.root := rfl
@[simp] theorem State.storeBits_inp (s : State) (b : List Bool) : (s.storeBits b).inp = s.inp := rfl
@[simp] theorem State.storeBits_freq (s : State) (b : List Bool) : (s.storeBits b).freq = s.freq := rfl
@[simp] theorem State.storeBits_node (s : State) (b : List Bool) : (s.storeBits b).node = s.node := rfl
@[simp] theorem State.storeBits_code (s : State) (b : List Bool) : (s.storeBits b).code = s.code := rfl
@[simp] theorem State.storeBits_bits (s : State) (b : List Bool) : (s.storeBits b).bits = Space.filled s.draws b := rfl
@[simp] theorem State.storeBits_pay (s : State) (b : List Bool) : (s.storeBits b).pay = s.pay := rfl
@[simp] theorem State.storeBits_cont (s : State) (b : List Bool) : (s.storeBits b).cont = s.cont := rfl
@[simp] theorem State.storeBits_out (s : State) (b : List Bool) : (s.storeBits b).out = s.out := rfl
@[simp] theorem State.storeBits_caps (s : State) (b : List Bool) : (s.storeBits b).caps = s.caps := rfl
@[simp] theorem State.storeBits_inputs (s : State) (b : List Bool) : (s.storeBits b).inputs = s.inputs := rfl
@[simp] theorem State.storeBits_reply (s : State) (b : List Bool) : (s.storeBits b).reply = s.reply := rfl
@[simp] theorem State.storeBits_draws (s : State) (b : List Bool) : (s.storeBits b).draws = s.draws + 1 := rfl

/-! ### setBitsLen -/

@[simp] theorem State.setBitsLen_status (s : State) (v : Word) : (s.setBitsLen v).status = s.status := rfl
@[simp] theorem State.setBitsLen_errcode (s : State) (v : Word) : (s.setBitsLen v).errcode = s.errcode := rfl
@[simp] theorem State.setBitsLen_errinfo (s : State) (v : Word) : (s.setBitsLen v).errinfo = s.errinfo := rfl
@[simp] theorem State.setBitsLen_inLen (s : State) (v : Word) : (s.setBitsLen v).inLen = s.inLen := rfl
@[simp] theorem State.setBitsLen_osc (s : State) (v : Word) : (s.setBitsLen v).osc = s.osc := rfl
@[simp] theorem State.setBitsLen_payLen (s : State) (v : Word) : (s.setBitsLen v).payLen = s.payLen := rfl
@[simp] theorem State.setBitsLen_contLen (s : State) (v : Word) : (s.setBitsLen v).contLen = s.contLen := rfl
@[simp] theorem State.setBitsLen_outLen (s : State) (v : Word) : (s.setBitsLen v).outLen = s.outLen := rfl
@[simp] theorem State.setBitsLen_bitsLen (s : State) (v : Word) : (s.setBitsLen v).bitsLen = v := rfl
@[simp] theorem State.setBitsLen_nnodes (s : State) (v : Word) : (s.setBitsLen v).nnodes = s.nnodes := rfl
@[simp] theorem State.setBitsLen_root (s : State) (v : Word) : (s.setBitsLen v).root = s.root := rfl
@[simp] theorem State.setBitsLen_inp (s : State) (v : Word) : (s.setBitsLen v).inp = s.inp := rfl
@[simp] theorem State.setBitsLen_freq (s : State) (v : Word) : (s.setBitsLen v).freq = s.freq := rfl
@[simp] theorem State.setBitsLen_node (s : State) (v : Word) : (s.setBitsLen v).node = s.node := rfl
@[simp] theorem State.setBitsLen_code (s : State) (v : Word) : (s.setBitsLen v).code = s.code := rfl
@[simp] theorem State.setBitsLen_bits (s : State) (v : Word) : (s.setBitsLen v).bits = s.bits := rfl
@[simp] theorem State.setBitsLen_pay (s : State) (v : Word) : (s.setBitsLen v).pay = s.pay := rfl
@[simp] theorem State.setBitsLen_cont (s : State) (v : Word) : (s.setBitsLen v).cont = s.cont := rfl
@[simp] theorem State.setBitsLen_out (s : State) (v : Word) : (s.setBitsLen v).out = s.out := rfl
@[simp] theorem State.setBitsLen_caps (s : State) (v : Word) : (s.setBitsLen v).caps = s.caps := rfl
@[simp] theorem State.setBitsLen_inputs (s : State) (v : Word) : (s.setBitsLen v).inputs = s.inputs := rfl
@[simp] theorem State.setBitsLen_reply (s : State) (v : Word) : (s.setBitsLen v).reply = s.reply := rfl
@[simp] theorem State.setBitsLen_draws (s : State) (v : Word) : (s.setBitsLen v).draws = s.draws := rfl

/-! ### storePay -/

@[simp] theorem State.storePay_status (s : State) (p : List Byte) : (s.storePay p).status = s.status := rfl
@[simp] theorem State.storePay_errcode (s : State) (p : List Byte) : (s.storePay p).errcode = s.errcode := rfl
@[simp] theorem State.storePay_errinfo (s : State) (p : List Byte) : (s.storePay p).errinfo = s.errinfo := rfl
@[simp] theorem State.storePay_inLen (s : State) (p : List Byte) : (s.storePay p).inLen = s.inLen := rfl
@[simp] theorem State.storePay_osc (s : State) (p : List Byte) : (s.storePay p).osc = s.osc := rfl
@[simp] theorem State.storePay_payLen (s : State) (p : List Byte) : (s.storePay p).payLen = BitVec.ofNat 32 p.length := rfl
@[simp] theorem State.storePay_contLen (s : State) (p : List Byte) : (s.storePay p).contLen = s.contLen := rfl
@[simp] theorem State.storePay_outLen (s : State) (p : List Byte) : (s.storePay p).outLen = s.outLen := rfl
@[simp] theorem State.storePay_bitsLen (s : State) (p : List Byte) : (s.storePay p).bitsLen = s.bitsLen := rfl
@[simp] theorem State.storePay_nnodes (s : State) (p : List Byte) : (s.storePay p).nnodes = s.nnodes := rfl
@[simp] theorem State.storePay_root (s : State) (p : List Byte) : (s.storePay p).root = s.root := rfl
@[simp] theorem State.storePay_inp (s : State) (p : List Byte) : (s.storePay p).inp = s.inp := rfl
@[simp] theorem State.storePay_freq (s : State) (p : List Byte) : (s.storePay p).freq = s.freq := rfl
@[simp] theorem State.storePay_node (s : State) (p : List Byte) : (s.storePay p).node = s.node := rfl
@[simp] theorem State.storePay_code (s : State) (p : List Byte) : (s.storePay p).code = s.code := rfl
@[simp] theorem State.storePay_bits (s : State) (p : List Byte) : (s.storePay p).bits = s.bits := rfl
@[simp] theorem State.storePay_pay (s : State) (p : List Byte) : (s.storePay p).pay = Space.filled s.draws p := rfl
@[simp] theorem State.storePay_cont (s : State) (p : List Byte) : (s.storePay p).cont = s.cont := rfl
@[simp] theorem State.storePay_out (s : State) (p : List Byte) : (s.storePay p).out = s.out := rfl
@[simp] theorem State.storePay_caps (s : State) (p : List Byte) : (s.storePay p).caps = s.caps := rfl
@[simp] theorem State.storePay_inputs (s : State) (p : List Byte) : (s.storePay p).inputs = s.inputs := rfl
@[simp] theorem State.storePay_reply (s : State) (p : List Byte) : (s.storePay p).reply = s.reply := rfl
@[simp] theorem State.storePay_draws (s : State) (p : List Byte) : (s.storePay p).draws = s.draws + 1 := rfl

/-! ### storeCont -/

@[simp] theorem State.storeCont_status (s : State) (c : List Byte) : (s.storeCont c).status = s.status := rfl
@[simp] theorem State.storeCont_errcode (s : State) (c : List Byte) : (s.storeCont c).errcode = s.errcode := rfl
@[simp] theorem State.storeCont_errinfo (s : State) (c : List Byte) : (s.storeCont c).errinfo = s.errinfo := rfl
@[simp] theorem State.storeCont_inLen (s : State) (c : List Byte) : (s.storeCont c).inLen = s.inLen := rfl
@[simp] theorem State.storeCont_osc (s : State) (c : List Byte) : (s.storeCont c).osc = s.osc := rfl
@[simp] theorem State.storeCont_payLen (s : State) (c : List Byte) : (s.storeCont c).payLen = s.payLen := rfl
@[simp] theorem State.storeCont_contLen (s : State) (c : List Byte) : (s.storeCont c).contLen = BitVec.ofNat 32 c.length := rfl
@[simp] theorem State.storeCont_outLen (s : State) (c : List Byte) : (s.storeCont c).outLen = s.outLen := rfl
@[simp] theorem State.storeCont_bitsLen (s : State) (c : List Byte) : (s.storeCont c).bitsLen = s.bitsLen := rfl
@[simp] theorem State.storeCont_nnodes (s : State) (c : List Byte) : (s.storeCont c).nnodes = s.nnodes := rfl
@[simp] theorem State.storeCont_root (s : State) (c : List Byte) : (s.storeCont c).root = s.root := rfl
@[simp] theorem State.storeCont_inp (s : State) (c : List Byte) : (s.storeCont c).inp = s.inp := rfl
@[simp] theorem State.storeCont_freq (s : State) (c : List Byte) : (s.storeCont c).freq = s.freq := rfl
@[simp] theorem State.storeCont_node (s : State) (c : List Byte) : (s.storeCont c).node = s.node := rfl
@[simp] theorem State.storeCont_code (s : State) (c : List Byte) : (s.storeCont c).code = s.code := rfl
@[simp] theorem State.storeCont_bits (s : State) (c : List Byte) : (s.storeCont c).bits = s.bits := rfl
@[simp] theorem State.storeCont_pay (s : State) (c : List Byte) : (s.storeCont c).pay = s.pay := rfl
@[simp] theorem State.storeCont_cont (s : State) (c : List Byte) : (s.storeCont c).cont = Space.filled s.draws c := rfl
@[simp] theorem State.storeCont_out (s : State) (c : List Byte) : (s.storeCont c).out = s.out := rfl
@[simp] theorem State.storeCont_caps (s : State) (c : List Byte) : (s.storeCont c).caps = s.caps := rfl
@[simp] theorem State.storeCont_inputs (s : State) (c : List Byte) : (s.storeCont c).inputs = s.inputs := rfl
@[simp] theorem State.storeCont_reply (s : State) (c : List Byte) : (s.storeCont c).reply = s.reply := rfl
@[simp] theorem State.storeCont_draws (s : State) (c : List Byte) : (s.storeCont c).draws = s.draws + 1 := rfl

/-! ### storeOut -/

@[simp] theorem State.storeOut_status (s : State) (o : List Byte) : (s.storeOut o).status = s.status := rfl
@[simp] theorem State.storeOut_errcode (s : State) (o : List Byte) : (s.storeOut o).errcode = s.errcode := rfl
@[simp] theorem State.storeOut_errinfo (s : State) (o : List Byte) : (s.storeOut o).errinfo = s.errinfo := rfl
@[simp] theorem State.storeOut_inLen (s : State) (o : List Byte) : (s.storeOut o).inLen = s.inLen := rfl
@[simp] theorem State.storeOut_osc (s : State) (o : List Byte) : (s.storeOut o).osc = s.osc := rfl
@[simp] theorem State.storeOut_payLen (s : State) (o : List Byte) : (s.storeOut o).payLen = s.payLen := rfl
@[simp] theorem State.storeOut_contLen (s : State) (o : List Byte) : (s.storeOut o).contLen = s.contLen := rfl
@[simp] theorem State.storeOut_outLen (s : State) (o : List Byte) : (s.storeOut o).outLen = BitVec.ofNat 32 o.length := rfl
@[simp] theorem State.storeOut_bitsLen (s : State) (o : List Byte) : (s.storeOut o).bitsLen = s.bitsLen := rfl
@[simp] theorem State.storeOut_nnodes (s : State) (o : List Byte) : (s.storeOut o).nnodes = s.nnodes := rfl
@[simp] theorem State.storeOut_root (s : State) (o : List Byte) : (s.storeOut o).root = s.root := rfl
@[simp] theorem State.storeOut_inp (s : State) (o : List Byte) : (s.storeOut o).inp = s.inp := rfl
@[simp] theorem State.storeOut_freq (s : State) (o : List Byte) : (s.storeOut o).freq = s.freq := rfl
@[simp] theorem State.storeOut_node (s : State) (o : List Byte) : (s.storeOut o).node = s.node := rfl
@[simp] theorem State.storeOut_code (s : State) (o : List Byte) : (s.storeOut o).code = s.code := rfl
@[simp] theorem State.storeOut_bits (s : State) (o : List Byte) : (s.storeOut o).bits = s.bits := rfl
@[simp] theorem State.storeOut_pay (s : State) (o : List Byte) : (s.storeOut o).pay = s.pay := rfl
@[simp] theorem State.storeOut_cont (s : State) (o : List Byte) : (s.storeOut o).cont = s.cont := rfl
@[simp] theorem State.storeOut_out (s : State) (o : List Byte) : (s.storeOut o).out = Space.filled s.draws o := rfl
@[simp] theorem State.storeOut_caps (s : State) (o : List Byte) : (s.storeOut o).caps = s.caps := rfl
@[simp] theorem State.storeOut_inputs (s : State) (o : List Byte) : (s.storeOut o).inputs = s.inputs := rfl
@[simp] theorem State.storeOut_reply (s : State) (o : List Byte) : (s.storeOut o).reply = s.reply := rfl
@[simp] theorem State.storeOut_draws (s : State) (o : List Byte) : (s.storeOut o).draws = s.draws + 1 := rfl

/-! ### setOsc -/

@[simp] theorem State.setOsc_status (s : State) (v : Word) : (s.setOsc v).status = s.status := rfl
@[simp] theorem State.setOsc_errcode (s : State) (v : Word) : (s.setOsc v).errcode = s.errcode := rfl
@[simp] theorem State.setOsc_errinfo (s : State) (v : Word) : (s.setOsc v).errinfo = s.errinfo := rfl
@[simp] theorem State.setOsc_inLen (s : State) (v : Word) : (s.setOsc v).inLen = s.inLen := rfl
@[simp] theorem State.setOsc_osc (s : State) (v : Word) : (s.setOsc v).osc = v := rfl
@[simp] theorem State.setOsc_payLen (s : State) (v : Word) : (s.setOsc v).payLen = s.payLen := rfl
@[simp] theorem State.setOsc_contLen (s : State) (v : Word) : (s.setOsc v).contLen = s.contLen := rfl
@[simp] theorem State.setOsc_outLen (s : State) (v : Word) : (s.setOsc v).outLen = s.outLen := rfl
@[simp] theorem State.setOsc_bitsLen (s : State) (v : Word) : (s.setOsc v).bitsLen = s.bitsLen := rfl
@[simp] theorem State.setOsc_nnodes (s : State) (v : Word) : (s.setOsc v).nnodes = s.nnodes := rfl
@[simp] theorem State.setOsc_root (s : State) (v : Word) : (s.setOsc v).root = s.root := rfl
@[simp] theorem State.setOsc_inp (s : State) (v : Word) : (s.setOsc v).inp = s.inp := rfl
@[simp] theorem State.setOsc_freq (s : State) (v : Word) : (s.setOsc v).freq = s.freq := rfl
@[simp] theorem State.setOsc_node (s : State) (v : Word) : (s.setOsc v).node = s.node := rfl
@[simp] theorem State.setOsc_code (s : State) (v : Word) : (s.setOsc v).code = s.code := rfl
@[simp] theorem State.setOsc_bits (s : State) (v : Word) : (s.setOsc v).bits = s.bits := rfl
@[simp] theorem State.setOsc_pay (s : State) (v : Word) : (s.setOsc v).pay = s.pay := rfl
@[simp] theorem State.setOsc_cont (s : State) (v : Word) : (s.setOsc v).cont = s.cont := rfl
@[simp] theorem State.setOsc_out (s : State) (v : Word) : (s.setOsc v).out = s.out := rfl
@[simp] theorem State.setOsc_caps (s : State) (v : Word) : (s.setOsc v).caps = s.caps := rfl
@[simp] theorem State.setOsc_inputs (s : State) (v : Word) : (s.setOsc v).inputs = s.inputs := rfl
@[simp] theorem State.setOsc_reply (s : State) (v : Word) : (s.setOsc v).reply = s.reply := rfl
@[simp] theorem State.setOsc_draws (s : State) (v : Word) : (s.setOsc v).draws = s.draws := rfl

/-! ### latch -/

@[simp] theorem State.latch_status (s : State) (r : Raise) : (s.latch r).status = { s.status with err := true } := rfl
@[simp] theorem State.latch_errcode (s : State) (r : Raise) : (s.latch r).errcode = BitVec.ofNat 32 r.kind.number := rfl
@[simp] theorem State.latch_errinfo (s : State) (r : Raise) : (s.latch r).errinfo = BitVec.ofNat 32 r.info := rfl
@[simp] theorem State.latch_inLen (s : State) (r : Raise) : (s.latch r).inLen = s.inLen := rfl
@[simp] theorem State.latch_osc (s : State) (r : Raise) : (s.latch r).osc = s.osc := rfl
@[simp] theorem State.latch_payLen (s : State) (r : Raise) : (s.latch r).payLen = s.payLen := rfl
@[simp] theorem State.latch_contLen (s : State) (r : Raise) : (s.latch r).contLen = s.contLen := rfl
@[simp] theorem State.latch_outLen (s : State) (r : Raise) : (s.latch r).outLen = s.outLen := rfl
@[simp] theorem State.latch_bitsLen (s : State) (r : Raise) : (s.latch r).bitsLen = s.bitsLen := rfl
@[simp] theorem State.latch_nnodes (s : State) (r : Raise) : (s.latch r).nnodes = s.nnodes := rfl
@[simp] theorem State.latch_root (s : State) (r : Raise) : (s.latch r).root = s.root := rfl
@[simp] theorem State.latch_inp (s : State) (r : Raise) : (s.latch r).inp = s.inp := rfl
@[simp] theorem State.latch_freq (s : State) (r : Raise) : (s.latch r).freq = s.freq := rfl
@[simp] theorem State.latch_node (s : State) (r : Raise) : (s.latch r).node = s.node := rfl
@[simp] theorem State.latch_code (s : State) (r : Raise) : (s.latch r).code = s.code := rfl
@[simp] theorem State.latch_bits (s : State) (r : Raise) : (s.latch r).bits = s.bits := rfl
@[simp] theorem State.latch_pay (s : State) (r : Raise) : (s.latch r).pay = s.pay := rfl
@[simp] theorem State.latch_cont (s : State) (r : Raise) : (s.latch r).cont = s.cont := rfl
@[simp] theorem State.latch_out (s : State) (r : Raise) : (s.latch r).out = s.out := rfl
@[simp] theorem State.latch_caps (s : State) (r : Raise) : (s.latch r).caps = s.caps := rfl
@[simp] theorem State.latch_inputs (s : State) (r : Raise) : (s.latch r).inputs = s.inputs := rfl
@[simp] theorem State.latch_reply (s : State) (r : Raise) : (s.latch r).reply = s.reply := rfl
@[simp] theorem State.latch_draws (s : State) (r : Raise) : (s.latch r).draws = s.draws := rfl

/-! ### setInputs -/

@[simp] theorem State.setInputs_status (s : State) (rest : List Input) : (s.setInputs rest).status = s.status := rfl
@[simp] theorem State.setInputs_errcode (s : State) (rest : List Input) : (s.setInputs rest).errcode = s.errcode := rfl
@[simp] theorem State.setInputs_errinfo (s : State) (rest : List Input) : (s.setInputs rest).errinfo = s.errinfo := rfl
@[simp] theorem State.setInputs_inLen (s : State) (rest : List Input) : (s.setInputs rest).inLen = s.inLen := rfl
@[simp] theorem State.setInputs_osc (s : State) (rest : List Input) : (s.setInputs rest).osc = s.osc := rfl
@[simp] theorem State.setInputs_payLen (s : State) (rest : List Input) : (s.setInputs rest).payLen = s.payLen := rfl
@[simp] theorem State.setInputs_contLen (s : State) (rest : List Input) : (s.setInputs rest).contLen = s.contLen := rfl
@[simp] theorem State.setInputs_outLen (s : State) (rest : List Input) : (s.setInputs rest).outLen = s.outLen := rfl
@[simp] theorem State.setInputs_bitsLen (s : State) (rest : List Input) : (s.setInputs rest).bitsLen = s.bitsLen := rfl
@[simp] theorem State.setInputs_nnodes (s : State) (rest : List Input) : (s.setInputs rest).nnodes = s.nnodes := rfl
@[simp] theorem State.setInputs_root (s : State) (rest : List Input) : (s.setInputs rest).root = s.root := rfl
@[simp] theorem State.setInputs_inp (s : State) (rest : List Input) : (s.setInputs rest).inp = s.inp := rfl
@[simp] theorem State.setInputs_freq (s : State) (rest : List Input) : (s.setInputs rest).freq = s.freq := rfl
@[simp] theorem State.setInputs_node (s : State) (rest : List Input) : (s.setInputs rest).node = s.node := rfl
@[simp] theorem State.setInputs_code (s : State) (rest : List Input) : (s.setInputs rest).code = s.code := rfl
@[simp] theorem State.setInputs_bits (s : State) (rest : List Input) : (s.setInputs rest).bits = s.bits := rfl
@[simp] theorem State.setInputs_pay (s : State) (rest : List Input) : (s.setInputs rest).pay = s.pay := rfl
@[simp] theorem State.setInputs_cont (s : State) (rest : List Input) : (s.setInputs rest).cont = s.cont := rfl
@[simp] theorem State.setInputs_out (s : State) (rest : List Input) : (s.setInputs rest).out = s.out := rfl
@[simp] theorem State.setInputs_caps (s : State) (rest : List Input) : (s.setInputs rest).caps = s.caps := rfl
@[simp] theorem State.setInputs_inputs (s : State) (rest : List Input) : (s.setInputs rest).inputs = rest := rfl
@[simp] theorem State.setInputs_reply (s : State) (rest : List Input) : (s.setInputs rest).reply = s.reply := rfl
@[simp] theorem State.setInputs_draws (s : State) (rest : List Input) : (s.setInputs rest).draws = s.draws := rfl

/-! ### answerRead -/

@[simp] theorem State.answerRead_status (s : State) (sp : SpaceId) (i : Nat) : (s.answerRead sp i).status = s.status := rfl
@[simp] theorem State.answerRead_errcode (s : State) (sp : SpaceId) (i : Nat) : (s.answerRead sp i).errcode = s.errcode := rfl
@[simp] theorem State.answerRead_errinfo (s : State) (sp : SpaceId) (i : Nat) : (s.answerRead sp i).errinfo = s.errinfo := rfl
@[simp] theorem State.answerRead_inLen (s : State) (sp : SpaceId) (i : Nat) : (s.answerRead sp i).inLen = s.inLen := rfl
@[simp] theorem State.answerRead_osc (s : State) (sp : SpaceId) (i : Nat) : (s.answerRead sp i).osc = s.osc := rfl
@[simp] theorem State.answerRead_payLen (s : State) (sp : SpaceId) (i : Nat) : (s.answerRead sp i).payLen = s.payLen := rfl
@[simp] theorem State.answerRead_contLen (s : State) (sp : SpaceId) (i : Nat) : (s.answerRead sp i).contLen = s.contLen := rfl
@[simp] theorem State.answerRead_outLen (s : State) (sp : SpaceId) (i : Nat) : (s.answerRead sp i).outLen = s.outLen := rfl
@[simp] theorem State.answerRead_bitsLen (s : State) (sp : SpaceId) (i : Nat) : (s.answerRead sp i).bitsLen = s.bitsLen := rfl
@[simp] theorem State.answerRead_nnodes (s : State) (sp : SpaceId) (i : Nat) : (s.answerRead sp i).nnodes = s.nnodes := rfl
@[simp] theorem State.answerRead_root (s : State) (sp : SpaceId) (i : Nat) : (s.answerRead sp i).root = s.root := rfl
@[simp] theorem State.answerRead_inp (s : State) (sp : SpaceId) (i : Nat) : (s.answerRead sp i).inp = s.inp := rfl
@[simp] theorem State.answerRead_freq (s : State) (sp : SpaceId) (i : Nat) : (s.answerRead sp i).freq = s.freq := rfl
@[simp] theorem State.answerRead_node (s : State) (sp : SpaceId) (i : Nat) : (s.answerRead sp i).node = s.node := rfl
@[simp] theorem State.answerRead_code (s : State) (sp : SpaceId) (i : Nat) : (s.answerRead sp i).code = s.code := rfl
@[simp] theorem State.answerRead_bits (s : State) (sp : SpaceId) (i : Nat) : (s.answerRead sp i).bits = s.bits := rfl
@[simp] theorem State.answerRead_pay (s : State) (sp : SpaceId) (i : Nat) : (s.answerRead sp i).pay = s.pay := rfl
@[simp] theorem State.answerRead_cont (s : State) (sp : SpaceId) (i : Nat) : (s.answerRead sp i).cont = s.cont := rfl
@[simp] theorem State.answerRead_out (s : State) (sp : SpaceId) (i : Nat) : (s.answerRead sp i).out = s.out := rfl
@[simp] theorem State.answerRead_caps (s : State) (sp : SpaceId) (i : Nat) : (s.answerRead sp i).caps = s.caps := rfl
@[simp] theorem State.answerRead_inputs (s : State) (sp : SpaceId) (i : Nat) : (s.answerRead sp i).inputs = s.inputs := rfl
@[simp] theorem State.answerRead_reply (s : State) (sp : SpaceId) (i : Nat) : (s.answerRead sp i).reply = some (s.hostRead sp i) := rfl
@[simp] theorem State.answerRead_draws (s : State) (sp : SpaceId) (i : Nat) : (s.answerRead sp i).draws = s.draws := rfl

/-! ### clear -/

@[simp] theorem State.clear_status (s : State) : s.clear.status = { busy := false, done := false, err := false, empty := false } := rfl
@[simp] theorem State.clear_errcode (s : State) : s.clear.errcode = 0#32 := rfl
@[simp] theorem State.clear_errinfo (s : State) : s.clear.errinfo = 0#32 := rfl
@[simp] theorem State.clear_inLen (s : State) : s.clear.inLen = 0#32 := rfl
@[simp] theorem State.clear_osc (s : State) : s.clear.osc = 0#32 := rfl
@[simp] theorem State.clear_payLen (s : State) : s.clear.payLen = 0#32 := rfl
@[simp] theorem State.clear_contLen (s : State) : s.clear.contLen = 0#32 := rfl
@[simp] theorem State.clear_outLen (s : State) : s.clear.outLen = 0#32 := rfl
@[simp] theorem State.clear_bitsLen (s : State) : s.clear.bitsLen = 0#32 := rfl
@[simp] theorem State.clear_nnodes (s : State) : s.clear.nnodes = 0#32 := rfl
@[simp] theorem State.clear_root (s : State) : s.clear.root = noRoot := rfl
@[simp] theorem State.clear_inp (s : State) : s.clear.inp = Space.filled s.draws [] := rfl
@[simp] theorem State.clear_freq (s : State) : s.clear.freq = [] := rfl
@[simp] theorem State.clear_node (s : State) : s.clear.node = Space.filled s.draws [] := rfl
@[simp] theorem State.clear_code (s : State) : s.clear.code = { draw := s.draws, cells := [] } := rfl
@[simp] theorem State.clear_bits (s : State) : s.clear.bits = Space.filled s.draws [] := rfl
@[simp] theorem State.clear_pay (s : State) : s.clear.pay = Space.filled s.draws [] := rfl
@[simp] theorem State.clear_cont (s : State) : s.clear.cont = Space.filled s.draws [] := rfl
@[simp] theorem State.clear_out (s : State) : s.clear.out = Space.filled s.draws [] := rfl
@[simp] theorem State.clear_caps (s : State) : s.clear.caps = s.caps := rfl
@[simp] theorem State.clear_inputs (s : State) : s.clear.inputs = s.inputs := rfl
@[simp] theorem State.clear_reply (s : State) : s.clear.reply = s.reply := rfl
@[simp] theorem State.clear_draws (s : State) : s.clear.draws = s.draws + 1 := rfl

end Sys2Proof.Machine
end

