-- ==== Sys2Proof/Laws/Command.lean ====
section
/-! SUPPORT. What the frame of a command, the error effect and each command's meaning can do, said once. -/

namespace Sys2Proof.Machine

/-! ### The frame of a command (R230) -/

theorem command_latched {s : State} (h : s.status.err = true) (i : Instr)
    (body : State → Except Raise State) : command i body s = s := by
  simp [command, h]

theorem command_ok {s t : State} (h : s.status.err = false) (i : Instr)
    {body : State → Except Raise State} (hb : body s.accept = .ok t) : command i body s = t.finish := by
  simp [command, h, hb]

theorem command_error {s : State} (h : s.status.err = false) (i : Instr)
    {body : State → Except Raise State} {r : Raise} (hb : body s.accept = .error r) :
    command i body s = s.accept.raise (some i) r := by
  simp [command, h, hb]

/-- Everything `command` can do: nothing, the normal end, the error effect. -/
theorem command_cases (i : Instr) (body : State → Except Raise State) (s : State) :
    (s.status.err = true ∧ command i body s = s)
    ∨ (s.status.err = false ∧ ∃ t, body s.accept = .ok t ∧ command i body s = t.finish)
    ∨ (s.status.err = false ∧ ∃ r, body s.accept = .error r
        ∧ command i body s = s.accept.raise (some i) r) := by
  cases h : s.status.err
  · cases hb : body s.accept with
    | ok t => exact .inr (.inl ⟨rfl, t, rfl, command_ok h i hb⟩)
    | error r => exact .inr (.inr ⟨rfl, r, rfl, command_error h i hb⟩)
  · exact .inl ⟨rfl, command_latched h i body⟩

/-- Everything `illegalCommand` can do: nothing, or the error effect without a destination (R231). -/
theorem illegalCommand_cases (w : Word) (s : State) :
    (s.status.err = true ∧ illegalCommand w s = s)
    ∨ (s.status.err = false
      ∧ illegalCommand w s = s.accept.raise none { kind := .illegalCommand, info := w.toNat }) := by
  cases h : s.status.err <;> simp [illegalCommand, h]

/-! ### The error effect (R259) -/

@[simp] theorem State.spoil_status (c : Option Instr) (s : State) : (s.spoil c).status = s.status := by
  rcases c with _ | c <;> [rfl; cases c <;> rfl]

@[simp] theorem State.raise_status (c : Option Instr) (r : Raise) (s : State) :
    (s.raise c r).status = { s.status with busy := false, done := true, err := true } := by
  simp [State.raise]

@[simp] theorem State.raise_errcode (c : Option Instr) (r : Raise) (s : State) :
    (s.raise c r).errcode = BitVec.ofNat 32 r.kind.number := rfl

@[simp] theorem State.raise_errinfo (c : Option Instr) (r : Raise) (s : State) :
    (s.raise c r).errinfo = BitVec.ofNat 32 r.info := rfl

@[simp] theorem State.raise_caps (c : Option Instr) (r : Raise) (s : State) : (s.raise c r).caps = s.caps := by
  rcases c with _ | c <;> [rfl; cases c <;> rfl]

@[simp] theorem State.raise_inputs (c : Option Instr) (r : Raise) (s : State) :
    (s.raise c r).inputs = s.inputs := by
  rcases c with _ | c <;> [rfl; cases c <;> rfl]

@[simp] theorem State.raise_reply (c : Option Instr) (r : Raise) (s : State) :
    (s.raise c r).reply = s.reply := by
  rcases c with _ | c <;> [rfl; cases c <;> rfl]

/-! ### What accepting a command leaves alone -/

@[simp] theorem State.accept_input (s : State) : s.accept.input = s.input := rfl
@[simp] theorem State.accept_bitString (s : State) : s.accept.bitString = s.bitString := rfl
@[simp] theorem State.accept_payload (s : State) : s.accept.payload = s.payload := rfl
@[simp] theorem State.accept_container (s : State) : s.accept.container = s.container := rfl
@[simp] theorem State.accept_output (s : State) : s.accept.output = s.output := rfl
@[simp] theorem State.accept_table (s : State) : s.accept.table = s.table := rfl
@[simp] theorem State.accept_present (s : State) : s.accept.present = s.present := rfl
@[simp] theorem State.accept_leaves (s : State) : s.accept.leaves = s.leaves := rfl
@[simp] theorem State.accept_firstQueue (s : State) : s.accept.firstQueue = s.firstQueue := rfl
@[simp] theorem State.accept_walkTree (s : State) : s.accept.walkTree = s.walkTree := rfl

/-! ### Each meaning as a command -/

theorem exec_nop (s : State) : exec .nop s = .next (command .nop .ok s) := rfl
theorem exec_freq (s : State) : exec .freq s = .next (command .freq runFreq s) := rfl
theorem exec_build (s : State) : exec .build s = .next (command .build runBuild s) := rfl
theorem exec_pack (s : State) : exec .pack s = .next (command .pack runPack s) := rfl
theorem exec_unpack (s : State) : exec .unpack s = .next (command .unpack runUnpack s) := rfl
theorem exec_encode (s : State) : exec .encode s = .next (command .encode runEncode s) := rfl
theorem exec_decode (s : State) : exec .decode s = .next (command .decode runDecode s) := rfl
theorem exec_wrcont (s : State) : exec .wrcont s = .next (command .wrcont runWrcont s) := rfl
theorem exec_rdcont (s : State) : exec .rdcont s = .next (command .rdcont runRdcont s) := rfl
theorem exec_clr (s : State) : exec .clr s = .next s.clearDone := rfl

/-- Everything GENCODE can do: nothing, a fresh table, or the fault of a state without a tree. -/
theorem exec_gencode_cases (s : State) :
    (s.status.err = true ∧ exec .gencode s = .next s)
    ∨ (s.status.err = false ∧ ∃ leaves, s.walkTree = some leaves
        ∧ exec .gencode s = .next (s.accept.storeCode (codeCells leaves)).finish)
    ∨ (s.status.err = false ∧ s.walkTree = none ∧ exec .gencode s = .fault .notATree) := by
  cases h : s.status.err
  · cases hw : s.walkTree with
    | none => exact .inr (.inr ⟨rfl, rfl, by simp [exec, execGencode, h, hw]⟩)
    | some leaves => exact .inr (.inl ⟨rfl, leaves, rfl, by simp [exec, execGencode, h, hw, command]⟩)
  · exact .inl ⟨rfl, by simp [exec, execGencode, h]⟩

/-! ### One step -/

theorem step_idle {s : State} (h : s.inputs = []) : step s = .next s := by
  simp [step, h]

theorem step_input {s : State} {a : Input} {rest : List Input} (h : s.inputs = a :: rest) :
    step s = perform a (s.setInputs rest) := by
  simp [step, h]

theorem perform_idle {s : State} (h : s.status.busy = false) (a : Input) : perform a s = performIdle a s := by
  simp [perform, h]

theorem perform_busy {s : State} (h : s.status.busy = true) (a : Input) : perform a s = performBusy a s := by
  simp [perform, h]

/-- One step with an input pending and no command running. -/
theorem step_performIdle {s : State} {a : Input} {rest : List Input} (h : s.inputs = a :: rest)
    (hb : s.status.busy = false) : step s = performIdle a (s.setInputs rest) := by
  rw [step_input h, perform_idle (by exact hb)]

/-- One step with an input pending and BUSY = 1. -/
theorem step_performBusy {s : State} {a : Input} {rest : List Input} (h : s.inputs = a :: rest)
    (hb : s.status.busy = true) : step s = performBusy a (s.setInputs rest) := by
  rw [step_input h, perform_busy (by exact hb)]

/-- Everything one input can do while no command runs: the reset state, a read, a command, an illegal word, a
host write of a cell or register other than CMD. -/
theorem performIdle_cases (a : Input) (s : State) :
    (a = .reset ∧ performIdle a s = .next s.clear)
    ∨ (∃ sp i, a = .read sp i ∧ performIdle a s = .next (s.answerRead sp i))
    ∨ (∃ w i, a = .write (.reg 0 w) ∧ decodeWord w = .ok i ∧ performIdle a s = exec i s)
    ∨ (∃ w e, a = .write (.reg 0 w) ∧ decodeWord w = .error e
        ∧ performIdle a s = .next (illegalCommand w s))
    ∨ (∃ v, a = .write v ∧ (∀ w, v ≠ .reg 0 w) ∧ performIdle a s = .next (s.hostWrite v)) := by
  cases a with
  | reset => exact .inl ⟨rfl, rfl⟩
  | read sp i => exact .inr (.inl ⟨sp, i, rfl, rfl⟩)
  | write v =>
    by_cases h : ∃ w, v = .reg 0 w
    · obtain ⟨w, rfl⟩ := h
      cases hd : decodeWord w with
      | ok i => exact .inr (.inr (.inl ⟨w, i, rfl, hd, by simp [performIdle, commandWrite, hd]⟩))
      | error e => exact .inr (.inr (.inr (.inl ⟨w, e, rfl, hd, by simp [performIdle, commandWrite, hd]⟩)))
    · have h' : ∀ w, v ≠ .reg 0 w := fun w hw => h ⟨w, hw⟩
      refine .inr (.inr (.inr (.inr ⟨v, rfl, h', ?_⟩)))
      unfold performIdle
      split <;> first | rfl | simp_all

end Sys2Proof.Machine
end

