-- ==== Sys2Proof/Laws/Memory.lean ====
section
/-! SUPPORT. The laws of memories and spaces: what a read sees after a write, and that every operation keeps the
canonical form. -/

namespace Sys2Proof.Machine

variable {α : Type}

/-! ### Reading after writing -/

@[simp] theorem Memory.lookup_nil (i : Nat) : Memory.lookup ([] : Memory α) i = none := rfl

@[simp] theorem Memory.lookup_cons (e : Nat × α) (m : Memory α) (i : Nat) :
    Memory.lookup (e :: m) i = if e.1 = i then some e.2 else Memory.lookup m i := rfl

theorem Memory.lookup_insert_self (m : Memory α) (i : Nat) (v : α) :
    Memory.lookup (Memory.insert m i v) i = some v := by
  induction m with
  | nil => simp [Memory.insert]
  | cons e m ih =>
    simp only [Memory.insert]
    split
    · simp
    · split
      · simp
      · rename_i _ h
        simp [ih, Ne.symm h]

theorem Memory.lookup_insert_ne (m : Memory α) {i j : Nat} (v : α) (h : j ≠ i) :
    Memory.lookup (Memory.insert m i v) j = Memory.lookup m j := by
  induction m with
  | nil => simp [Memory.insert, Ne.symm h]
  | cons e m ih =>
    simp only [Memory.insert]
    split
    · simp [Ne.symm h]
    · split
      · subst_vars
        simp [Ne.symm h]
      · simp [ih]

/-- A read after listing a value: the value there, the old one elsewhere. -/
theorem Memory.lookup_insert (m : Memory α) (i j : Nat) (v : α) :
    Memory.lookup (Memory.insert m i v) j = if j = i then some v else Memory.lookup m j := by
  split
  · subst_vars
    exact Memory.lookup_insert_self m _ v
  · exact Memory.lookup_insert_ne m v ‹_›

/-- A read after taking an entry out: nothing there, the old value elsewhere. -/
theorem Memory.lookup_erase (m : Memory α) (i j : Nat) :
    Memory.lookup (Memory.erase m i) j = if j = i then none else Memory.lookup m j := by
  induction m with
  | nil => simp [Memory.erase]
  | cons e m ih =>
    unfold Memory.erase at ih ⊢
    by_cases h : e.1 = i
    · rw [List.filter_cons_of_neg (by simp [h]), ih]
      by_cases h' : j = i
      · simp [h']
      · simp [h', h, Ne.symm h']
    · rw [List.filter_cons_of_pos (by simp [h])]
      simp only [Memory.lookup_cons, ih]
      by_cases h' : j = i
      · subst h'
        simp [h]
      · simp [h']

/-- A read after a write, an unlisted cell reading as `dflt`: the value written there, the old value elsewhere. -/
theorem Memory.lookup_write [DecidableEq α] (dflt : Option α) (m : Memory α) (i j : Nat) (v : α) :
    (Memory.lookup (Memory.write dflt m i v) j).or dflt
      = if j = i then some v else (Memory.lookup m j).or dflt := by
  unfold Memory.write
  split
  · rename_i h
    rw [Memory.lookup_erase]
    split <;> simp [h]
  · rw [Memory.lookup_insert]
    split <;> simp

/-- A read of consecutive cells. -/
theorem Memory.lookup_fill (vs : List α) (n i : Nat) :
    Memory.lookup (Memory.fill vs n) i = if n ≤ i then vs[i - n]? else none := by
  induction vs generalizing n with
  | nil => simp [Memory.fill]
  | cons v vs ih =>
    simp only [Memory.fill, Memory.lookup_cons, ih]
    by_cases h : n = i
    · simp [h]
    · rcases Nat.lt_or_ge i n with h' | h'
      · simp [h, Nat.not_le.2 h', show ¬ n + 1 ≤ i by omega]
      · have : i - n = (i - (n + 1)) + 1 := by omega
        simp [h, h', show n + 1 ≤ i by omega, this]

@[simp] theorem Space.filled_draw (d : Nat) (vs : List α) : (Space.filled d vs).draw = d := rfl

@[simp] theorem Space.filled_cells (d : Nat) (vs : List α) :
    (Space.filled d vs).cells = Memory.fill vs 0 := rfl

/-- A filled space: the stored value below its length, the draw at and beyond it (R49). -/
theorem Space.read_filled (free : Nat → Nat → α) (d : Nat) (vs : List α) (i : Nat) :
    (Space.filled d vs).read free i = vs[i]?.getD (free d i) := by
  simp [Space.read, Memory.lookup_fill]

/-- A filled space gives back what it was filled with. -/
theorem Space.map_read_filled (free : Nat → Nat → α) (d : Nat) (vs : List α) :
    (List.range vs.length).map ((Space.filled d vs).read free) = vs := by
  apply List.ext_getElem
  · simp
  · intro i h _
    have h : i < vs.length := by simpa using h
    simp [Space.read_filled, h]

@[simp] theorem Space.put_draw [DecidableEq α] (sp : Space α) (i : Nat) (v : α) :
    (sp.put i v).draw = sp.draw := rfl

/-- A read after a host write of one cell (R66). -/
theorem Space.read_put [DecidableEq α] (free : Nat → Nat → α) (sp : Space α) (i j : Nat) (v : α) :
    (sp.put i v).read free j = if j = i then v else sp.read free j := by
  have h : (sp.put i v).cells = Memory.insert sp.cells i v := by
    simp [Space.put, Memory.write]
  simp only [Space.read, Space.put_draw, h, Memory.lookup_insert]
  split <;> simp

/-! ### The canonical form -/

/-- Every index of a memory is at least `n`. -/
def Memory.from (n : Nat) (m : Memory α) : Prop := ∀ e ∈ m, n ≤ e.1

theorem Memory.rising_cons (e : Nat × α) (m : Memory α) :
    Memory.rising (e :: m) = true ↔ Memory.from (e.1 + 1) m ∧ Memory.rising m = true := by
  induction m generalizing e with
  | nil => simp [Memory.rising, Memory.from]
  | cons f m ih =>
    simp only [Memory.rising, Bool.and_eq_true, decide_eq_true_eq]
    constructor
    · rintro ⟨h, hr⟩
      refine ⟨?_, hr⟩
      have := ((ih f).1 hr).1
      intro g hg
      rcases List.mem_cons.1 hg with rfl | hg
      · exact h
      · have := this g hg
        omega
    · rintro ⟨hf, hr⟩
      exact ⟨hf f (by simp), hr⟩

theorem Memory.from_mono {n k : Nat} {m : Memory α} (h : Memory.from n m) (hk : k ≤ n) : Memory.from k m :=
  fun e he => Nat.le_trans hk (h e he)

theorem Memory.mem_insert {m : Memory α} {i : Nat} {v : α} {e : Nat × α} (h : e ∈ Memory.insert m i v) :
    e = (i, v) ∨ e ∈ m := by
  induction m with
  | nil => simpa [Memory.insert] using h
  | cons f m ih =>
    simp only [Memory.insert] at h
    split at h
    · simpa using h
    · split at h
      · rcases List.mem_cons.1 h with h | h
        · exact .inl h
        · exact .inr (List.mem_cons_of_mem _ h)
      · rcases List.mem_cons.1 h with h | h
        · exact .inr (by simp [h])
        · rcases ih h with h | h
          · exact .inl h
          · exact .inr (List.mem_cons_of_mem _ h)

theorem Memory.rising_insert {m : Memory α} (hm : Memory.rising m = true) (i : Nat) (v : α) :
    Memory.rising (Memory.insert m i v) = true := by
  induction m with
  | nil => rfl
  | cons f m ih =>
    obtain ⟨hf, hr⟩ := (Memory.rising_cons f m).1 hm
    simp only [Memory.insert]
    split
    · rename_i h
      refine (Memory.rising_cons _ _).2 ⟨fun e he => ?_, hm⟩
      rcases List.mem_cons.1 he with rfl | he
      · exact h
      · have := hf e he
        simp only
        omega
    · split
      · rename_i _ h
        subst h
        exact (Memory.rising_cons _ _).2 ⟨hf, hr⟩
      · refine (Memory.rising_cons _ _).2 ⟨fun e he => ?_, ih hr⟩
        rcases Memory.mem_insert he with rfl | he
        · simp only
          omega
        · exact hf e he

theorem Memory.rising_filter {m : Memory α} (hm : Memory.rising m = true) (p : Nat × α → Bool) :
    Memory.rising (m.filter p) = true := by
  induction m with
  | nil => rfl
  | cons f m ih =>
    obtain ⟨hf, hr⟩ := (Memory.rising_cons f m).1 hm
    rw [List.filter_cons]
    split
    · exact (Memory.rising_cons _ _).2 ⟨fun e he => hf e (List.mem_filter.1 he).1, ih hr⟩
    · exact ih hr

theorem Memory.from_fill (vs : List α) (n : Nat) : Memory.from n (Memory.fill vs n) := by
  induction vs generalizing n with
  | nil => simp [Memory.fill, Memory.from]
  | cons v vs ih =>
    intro e he
    rcases List.mem_cons.1 he with rfl | he
    · exact Nat.le_refl _
    · exact Memory.from_mono (ih (n + 1)) (Nat.le_succ n) e he

theorem Memory.rising_fill (vs : List α) (n : Nat) : Memory.rising (Memory.fill vs n) = true := by
  induction vs generalizing n with
  | nil => rfl
  | cons v vs ih => exact (Memory.rising_cons _ _).2 ⟨Memory.from_fill vs (n + 1), ih (n + 1)⟩

theorem Memory.mem_fill {vs : List α} {n : Nat} {e : Nat × α} (h : e ∈ Memory.fill vs n) :
    e.1 < n + vs.length := by
  induction vs generalizing n with
  | nil => simp [Memory.fill] at h
  | cons v vs ih =>
    rcases List.mem_cons.1 h with rfl | h
    · simp
    · have := ih h
      simp only [List.length_cons]
      omega

/-- Two memories with rising indexes that answer every lookup alike are the same list. -/
theorem Memory.ext_lookup {m n : Memory α} (hm : Memory.rising m = true) (hn : Memory.rising n = true)
    (h : ∀ i, Memory.lookup m i = Memory.lookup n i) : m = n := by
  have absent : ∀ {k : Nat} {m : Memory α} {i : Nat}, Memory.from k m → i < k → Memory.lookup m i = none := by
    intro k m i hf hi
    induction m with
    | nil => rfl
    | cons e m ih =>
      have he := hf e (by simp)
      rw [Memory.lookup_cons, if_neg (by omega)]
      exact ih (fun f hf' => hf f (List.mem_cons_of_mem _ hf'))
  induction m generalizing n with
  | nil =>
    cases n with
    | nil => rfl
    | cons f n => simpa using h f.1
  | cons e m ih =>
    obtain ⟨he, hr⟩ := (Memory.rising_cons e m).1 hm
    cases n with
    | nil => simpa using h e.1
    | cons f n =>
      obtain ⟨hf, hs⟩ := (Memory.rising_cons f n).1 hn
      have hef : e.1 = f.1 := by
        rcases Nat.lt_trichotomy e.1 f.1 with hlt | heq | hgt
        · have := h e.1
          rw [Memory.lookup_cons, if_pos rfl, Memory.lookup_cons, if_neg (by omega),
            absent hf (by omega)] at this
          cases this
        · exact heq
        · have := h f.1
          rw [Memory.lookup_cons, if_neg (by omega), Memory.lookup_cons, if_pos rfl,
            absent he (by omega)] at this
          cases this
      have hv : e.2 = f.2 := by
        have := h e.1
        simpa [hef] using this
      have : e = f := Prod.ext hef hv
      subst this
      refine congrArg (e :: ·) (ih hr hs fun i => ?_)
      have := h i
      by_cases hi : e.1 = i
      · rw [absent he (by omega), absent hf (by omega)]
      · simpa [hi] using this

section wf

variable [DecidableEq α] {dflt : Option α} {size : Nat} {m : Memory α}

theorem Memory.wf_iff : Memory.wf dflt size m = true ↔
    Memory.rising m = true ∧ ∀ e ∈ m, e.1 < size ∧ dflt ≠ some e.2 := by
  simp [Memory.wf]

@[simp] theorem Memory.wf_nil : Memory.wf dflt size ([] : Memory α) = true := rfl

theorem Memory.wf_insert (h : Memory.wf dflt size m = true) {i : Nat} (hi : i < size) {v : α}
    (hv : dflt ≠ some v) : Memory.wf dflt size (Memory.insert m i v) = true := by
  obtain ⟨hr, he⟩ := Memory.wf_iff.1 h
  refine Memory.wf_iff.2 ⟨Memory.rising_insert hr i v, fun e hm => ?_⟩
  rcases Memory.mem_insert hm with rfl | hm
  · exact ⟨hi, hv⟩
  · exact he e hm

theorem Memory.wf_erase (h : Memory.wf dflt size m = true) (i : Nat) :
    Memory.wf dflt size (Memory.erase m i) = true := by
  obtain ⟨hr, he⟩ := Memory.wf_iff.1 h
  exact Memory.wf_iff.2 ⟨Memory.rising_filter hr _, fun e hm => he e (List.mem_filter.1 hm).1⟩

/-- A write below the size keeps the canonical form. -/
theorem Memory.wf_write (h : Memory.wf dflt size m = true) {i : Nat} (hi : i < size) (v : α) :
    Memory.wf dflt size (Memory.write dflt m i v) = true := by
  unfold Memory.write
  split
  · exact Memory.wf_erase h i
  · exact Memory.wf_insert h hi ‹_›

/-- Storing a sequence that fits gives the canonical form. -/
theorem Memory.wf_fill (vs : List α) (h : vs.length ≤ size) :
    Memory.wf none size (Memory.fill vs 0) = true := by
  refine Memory.wf_iff.2 ⟨Memory.rising_fill vs 0, fun e hm => ⟨?_, by simp⟩⟩
  have := Memory.mem_fill hm
  omega

end wf

end Sys2Proof.Machine
end

