-- ==== Sys2Proof/Laws/Container.lean ====
section
/-! SUPPORT. What RDCONT reads out of a container whose records are complete and of distinct symbols (R210): the u32
fields, the records, the table they make. -/

namespace Sys2Proof.Machine

/-- The bytes of a header record (R89 to R91). -/
def HeaderRecord.bytes (r : HeaderRecord) : List Byte := r.1 :: r.2.1 :: r.2.2

/-- The table that a list of records makes, one entry after the other. -/
def recordCells (records : List HeaderRecord) (cells : Memory CodeCell) : Memory CodeCell :=
  records.foldl (fun m r => Memory.insert m r.1.toNat (.valid (Code.clip r.bits))) cells

/-- What follows offset `p` decides the byte at `p + k`. -/
theorem getD_of_drop {c l : List Byte} {p : Nat} (h : c.drop p = l) (k : Nat) :
    c.getD (p + k) 0#8 = l.getD k 0#8 := by
  subst h
  simp [List.getD, List.getElem?_drop]

theorem length_of_drop {c l : List Byte} {p : Nat} (hp : p ≤ c.length) (h : c.drop p = l) :
    c.length = p + l.length := by
  subst h
  rw [List.length_drop]
  omega

/-- A u32 field reads back as it was written (R88). -/
theorem be32At_be32Bytes {c rest : List Byte} {p v : Nat} (h : c.drop p = be32Bytes v ++ rest) (hv : v < 2 ^ 32) :
    be32At c p = v := by
  have h0 := getD_of_drop h 0
  have h1 := getD_of_drop h 1
  have h2 := getD_of_drop h 2
  have h3 := getD_of_drop h 3
  simp only [be32Bytes, List.cons_append, List.nil_append, List.getD_cons_zero, List.getD_cons_succ,
    Nat.add_zero] at h0 h1 h2 h3
  simp only [be32At, h0, h1, h2, h3, BitVec.toNat_ofNat]
  omega

/-- The valid code a table gives a symbol after one more record. -/
theorem codeIn_insert (m : Memory CodeCell) (i : Nat) (c : Code) (k : Nat) :
    codeIn (Memory.insert m i (.valid c)) k = if k = i then some c else codeIn m k := by
  unfold codeIn
  rw [Memory.lookup_insert]
  by_cases h : k = i <;> simp [h]

/-- The record loop goes through complete records of distinct symbols that the table does not hold yet, and goes on after
them with their codes in the table (R210). -/
theorem parseRecords_complete (c : List Byte) : ∀ (records : List HeaderRecord) (n p : Nat) (cells : Memory CodeCell)
    (rest : List Byte), p ≤ c.length → (∀ r ∈ records, r.2.2.length = ceil8 r.2.1.toNat) →
    records.Pairwise (fun r q => r.1 ≠ q.1) → (∀ r ∈ records, codeIn cells r.1.toNat = none) →
    c.drop p = records.flatMap HeaderRecord.bytes ++ rest →
    parseRecords c (records.length + n) p cells
      = parseRecords c n (p + (records.flatMap HeaderRecord.bytes).length) (recordCells records cells) := by
  intro records
  induction records with
  | nil =>
    intro n p cells rest _ _ _ _ _
    simp [recordCells]
  | cons r records ih =>
    intro n p cells rest hp hlen hdist hnew hdrop
    have hr := hlen r (by simp)
    have hcons : c.drop p = r.1 :: r.2.1 :: (r.2.2 ++ (records.flatMap HeaderRecord.bytes ++ rest)) := by
      rw [hdrop, List.flatMap_cons, HeaderRecord.bytes, List.cons_append, List.cons_append, List.cons_append,
        List.cons_append, List.append_assoc]
    have hsym : c.getD p 0#8 = r.1 := by simpa using getD_of_drop hcons 0
    have hcl : c.getD (p + 1) 0#8 = r.2.1 := by simpa using getD_of_drop hcons 1
    have hlenc := length_of_drop hp hcons
    simp only [List.length_cons, List.length_append] at hlenc
    have hfield : c.drop (p + 2) = r.2.2 ++ (records.flatMap HeaderRecord.bytes ++ rest) := by
      rw [← List.drop_drop, hcons]
      rfl
    have htake : (c.drop (p + 2)).take (ceil8 r.2.1.toNat) = r.2.2 := by
      rw [hfield, ← hr, List.take_left]
    have hnext : c.drop (p + 2 + ceil8 r.2.1.toNat) = records.flatMap HeaderRecord.bytes ++ rest := by
      rw [← List.drop_drop, hfield, ← hr, List.drop_left]
    have hnone := hnew r (by simp)
    obtain ⟨hr1, hdist'⟩ := List.pairwise_cons.1 hdist
    have step : parseRecords c (records.length + n + 1) p cells
        = parseRecords c (records.length + n) (p + 2 + ceil8 r.2.1.toNat)
          (Memory.insert cells r.1.toNat (.valid (Code.clip r.bits))) := by
      rw [parseRecords, if_neg (by omega)]
      simp only [hsym, hcl, hnone, Option.isSome_none, Bool.false_eq_true, if_false, htake]
      rw [if_neg (by omega), if_neg (by omega)]
      rfl
    rw [List.length_cons, Nat.succ_add_eq_add_succ, Nat.add_succ, step,
      ih n _ _ rest (by omega) (fun q hq => hlen q (by simp [hq])) hdist' ?_ hnext]
    · rw [List.flatMap_cons, List.length_append]
      simp only [HeaderRecord.bytes, List.length_cons, hr, recordCells, List.foldl_cons]
      congr 1
      omega
    · intro q hq
      rw [codeIn_insert, if_neg ?_]
      · exact hnew q (by simp [hq])
      · intro h
        exact hr1 q hq (BitVec.eq_of_toNat_eq h.symm)

/-- The code that the table of complete records of distinct symbols gives a symbol: its record's, if it has one. -/
theorem codeIn_recordCells : ∀ (records : List HeaderRecord) (cells : Memory CodeCell),
    records.Pairwise (fun r q => r.1 ≠ q.1) → ∀ (k : Nat) (code : Code),
    codeIn (recordCells records cells) k = some code
      ↔ (∃ r ∈ records, r.1.toNat = k ∧ code = Code.clip r.bits)
        ∨ ((∀ r ∈ records, r.1.toNat ≠ k) ∧ codeIn cells k = some code) := by
  intro records
  induction records with
  | nil => intro cells _ k code; simp [recordCells]
  | cons r records ih =>
    intro cells hdist k code
    obtain ⟨hr, hdist'⟩ := List.pairwise_cons.1 hdist
    have h := ih (Memory.insert cells r.1.toNat (.valid (Code.clip r.bits))) hdist' k code
    rw [codeIn_insert] at h
    rw [recordCells, List.foldl_cons]
    rw [recordCells] at h
    rw [h]
    simp only [List.mem_cons, forall_eq_or_imp, exists_eq_or_imp]
    by_cases hk : k = r.1.toNat
    · subst hk
      have hnot : ∀ q ∈ records, q.1.toNat ≠ r.1.toNat := fun q hq he => hr q hq (BitVec.eq_of_toNat_eq he.symm)
      have hno : ¬ ∃ q ∈ records, q.1.toNat = r.1.toNat ∧ code = Code.clip q.bits := fun ⟨q, hq, he, _⟩ =>
        hnot q hq he
      simp only [hno, if_true, Option.some.injEq, ne_eq, not_true, false_and, or_false, false_or, true_and]
      exact ⟨fun ⟨_, h⟩ => h.symm, fun h => ⟨fun q hq => hnot q hq, h.symm⟩⟩
    · have hk' : r.1.toNat ≠ k := fun h => hk h.symm
      simp only [if_neg hk, hk', false_and, false_or, ne_eq, not_false_eq_true, true_and]

/-- Records of distinct symbols are at most 256 (R86). -/
theorem length_le_of_distinct {records : List HeaderRecord} (h : records.Pairwise (fun r q => r.1 ≠ q.1)) :
    records.length ≤ 256 := by
  have hnodup : (records.map (fun r => r.1.toNat)).Nodup :=
    List.pairwise_map.2 (h.imp fun hne he => hne (BitVec.eq_of_toNat_eq he))
  have hsub : records.map (fun r => r.1.toNat) ⊆ List.range 256 := by
    intro k hk
    obtain ⟨r, -, rfl⟩ := List.mem_map.1 hk
    exact List.mem_range.2 r.1.isLt
  simpa using (hnodup.subperm hsub).length_le

/-- The record loop of a container whose header is complete, and where its originalSymbolCount begins (R210). -/
theorem parseContainer_complete {c payload : List Byte} {records : List HeaderRecord} {osc : Word}
    (hlen : ∀ r ∈ records, r.2.2.length = ceil8 r.2.1.toNat) (hdist : records.Pairwise (fun r q => r.1 ≠ q.1))
    (hc : c = be32Bytes records.length ++ records.flatMap HeaderRecord.bytes ++ be32Bytes osc.toNat ++ payload) :
    parseContainer c = .ok { cells := recordCells records [], osc := osc.toNat, payload := payload } := by
  have hcount := length_le_of_distinct hdist
  have h0 : c.drop 0 = be32Bytes records.length
      ++ (records.flatMap HeaderRecord.bytes ++ (be32Bytes osc.toNat ++ payload)) := by
    rw [List.drop_zero, hc]
    simp only [List.append_assoc]
  have hn : be32At c 0 = records.length := be32At_be32Bytes h0 (by omega)
  have hl := length_of_drop (Nat.zero_le _) h0
  simp only [List.length_append, length_be32Bytes] at hl
  have h4 : c.drop 4 = records.flatMap HeaderRecord.bytes ++ (be32Bytes osc.toNat ++ payload) := by
    rw [show c = c.drop 0 from (List.drop_zero).symm, h0]
    rfl
  have hloop := parseRecords_complete c records 0 4 [] _ (by omega) hlen hdist (fun _ _ => rfl) h4
  have hp : c.drop (4 + (records.flatMap HeaderRecord.bytes).length) = be32Bytes osc.toNat ++ payload := by
    rw [← List.drop_drop, h4, List.drop_left]
  have hosc := be32At_be32Bytes hp osc.isLt
  have hpay : c.drop (4 + (records.flatMap HeaderRecord.bytes).length + 4) = payload := by
    rw [← List.drop_drop, hp]
    rfl
  unfold parseContainer
  rw [if_neg (by omega), hn, if_neg (by omega), ← Nat.add_zero records.length, hloop, parseRecords]
  dsimp only
  rw [if_neg (by omega), hosc, hpay]

/-! ### The table of complete records, and its offenders -/

@[simp] theorem bits_clip_bits (r : HeaderRecord) : (Code.clip r.bits).bits = r.bits := by
  refine List.take_of_length_le ?_
  have := r.2.1.isLt
  simp only [HeaderRecord.bits, length_unpackBits]
  omega

/-- The members of the table that records of distinct symbols make. -/
theorem mem_validEntries_recordCells {records : List HeaderRecord} (hdist : records.Pairwise (fun r q => r.1 ≠ q.1))
    {e : Nat × Code} : e ∈ validEntries (recordCells records [])
      ↔ ∃ r ∈ records, r.1.toNat = e.1 ∧ e.2 = Code.clip r.bits := by
  rw [mem_validEntries, codeIn_recordCells _ _ hdist]
  constructor
  · rintro ⟨-, h | ⟨-, h⟩⟩
    · exact h
    · simp [codeIn] at h
  · rintro ⟨r, hr, h1, h2⟩
    have := r.1.isLt
    exact ⟨by omega, .inl ⟨r, hr, h1, h2⟩⟩

/-- A member of that table offends iff its symbol offends among the records (R170). -/
theorem offends_recordCells {records : List HeaderRecord} (hdist : records.Pairwise (fun r q => r.1 ≠ q.1))
    {e : Nat × Code} (he : e ∈ validEntries (recordCells records [])) :
    offends (validEntries (recordCells records [])) e = true ↔ RecordOffends records e.1 := by
  obtain ⟨r, hr, h1, h2⟩ := (mem_validEntries_recordCells hdist).1 he
  simp only [offends, Bool.or_eq_true, beq_iff_eq, List.any_eq_true, Bool.and_eq_true, bne_iff_ne, isPrefix,
    List.isPrefixOf_iff_prefix, h2, bits_clip_bits]
  constructor
  · rintro (h | ⟨f, hf, hne, hp⟩)
    · refine ⟨r, hr, h1, .inl (BitVec.eq_of_toNat_eq ?_)⟩
      simpa [HeaderRecord.bits] using h
    · obtain ⟨q, hq, h3, h4⟩ := (mem_validEntries_recordCells hdist).1 hf
      rw [h4, bits_clip_bits] at hp
      exact ⟨r, hr, h1, .inr ⟨q, hq, fun h => hne (by rw [← h3, ← h1, h]), hp⟩⟩
  · rintro ⟨r', hr', h1', h⟩
    have hsame : r'.1 = r.1 := BitVec.eq_of_toNat_eq (by omega)
    obtain rfl : r' = r :=
      List.inj_on_of_nodup_map (f := Prod.fst) (List.pairwise_map.2 hdist) hr' hr hsame
    rcases h with h | ⟨q, hq, hne, hp⟩
    · exact .inl (by simp [HeaderRecord.bits, h])
    · refine .inr ⟨(q.1.toNat, Code.clip q.bits), (mem_validEntries_recordCells hdist).2 ⟨q, hq, rfl, rfl⟩, ?_, ?_⟩
      · exact fun h => hne (BitVec.eq_of_toNat_eq (h.trans h1.symm))
      · rw [bits_clip_bits]
        exact hp

end Sys2Proof.Machine
end

