-- ==== Sys2Proof/Laws/Frame.lean ====
section
/-! SUPPORT. How a frame (R54, R259) follows from the fields of the state. -/

namespace Sys2Proof.Machine

theorem Framed.refl (i : Instr) (s : State) : Framed i s s := ⟨fun _ _ _ => rfl, rfl, rfl, rfl⟩

/-- NSYM reads CODE only (R38). -/
theorem State.nsym_congr {s t : State} (h : t.code = s.code) : t.nsym = s.nsym := by
  simp [State.nsym, State.codeAt, State.codeCell, h]

/-- What a command may change of a space other than REG it may change at every index. -/
theorem mayChange_index {i : Instr} {sp : SpaceId} (hsp : sp ≠ .reg) (h : mayChange i sp 0) (n : Nat) :
    mayChange i sp n := by
  cases sp <;> first | exact absurd rfl hsp | (cases i <;> exact h)

/-- The frame of the registers from the fields. -/
theorem State.register_congr {s t : State} (i : Instr) (h1 : mayChange i .reg 1)
    (h2 : mayChange i .reg 2 ∨ t.errcode = s.errcode) (h3 : mayChange i .reg 3 ∨ t.errinfo = s.errinfo)
    (h4 : mayChange i .reg 4 ∨ t.inLen = s.inLen) (h5 : mayChange i .reg 5 ∨ t.osc = s.osc)
    (h6 : mayChange i .reg 6 ∨ t.payLen = s.payLen) (h7 : mayChange i .reg 7 ∨ t.contLen = s.contLen)
    (h8 : mayChange i .reg 8 ∨ t.outLen = s.outLen) (h9 : mayChange i .reg 9 ∨ t.bitsLen = s.bitsLen)
    (h10 : mayChange i .reg 10 ∨ t.nnodes = s.nnodes) (h11 : mayChange i .reg 11 ∨ t.root = s.root)
    (h12 : mayChange i .reg 12 ∨ t.code = s.code) :
    ∀ n, ¬ mayChange i .reg n → t.register n = s.register n := by
  intro n hn
  unfold State.register
  split <;> first
    | exact absurd h1 hn
    | rfl
    | exact h2.resolve_left hn
    | exact h3.resolve_left hn
    | exact h4.resolve_left hn
    | exact h5.resolve_left hn
    | exact h6.resolve_left hn
    | exact h7.resolve_left hn
    | exact h8.resolve_left hn
    | exact h9.resolve_left hn
    | exact h10.resolve_left hn
    | exact h11.resolve_left hn
    | exact congrArg _ (State.nsym_congr (h12.resolve_left hn))

/-- The frame of a command from the fields: the registers, and each space unless the command may change it. -/
theorem Framed.of_fields {i : Instr} {s t : State}
    (hreg : ∀ n, ¬ mayChange i .reg n → t.register n = s.register n) (hinp : t.inp = s.inp)
    (hfreq : mayChange i .freq 0 ∨ t.freq = s.freq) (hnode : mayChange i .node 0 ∨ t.node = s.node)
    (hcode : mayChange i .code 0 ∨ t.code = s.code) (hbits : mayChange i .bits 0 ∨ t.bits = s.bits)
    (hpay : mayChange i .pay 0 ∨ t.pay = s.pay) (hcont : mayChange i .cont 0 ∨ t.cont = s.cont)
    (hout : mayChange i .out 0 ∨ t.out = s.out) (hcaps : t.caps = s.caps) (hinputs : t.inputs = s.inputs)
    (hreply : t.reply = s.reply) : Framed i s t := by
  refine ⟨fun sp n hn => ?_, hcaps, hinputs, hreply⟩
  have not : ∀ hsp : sp ≠ .reg, ¬ mayChange i sp 0 := fun hsp h => hn (mayChange_index hsp h n)
  cases sp
  · simp [State.cell, hreg n hn]
  · simp [State.cell, State.inAt, hinp]
  · simp [State.cell, State.freqAt, hfreq.resolve_left (not (by decide))]
  · simp [State.cell, State.nodeAt, hnode.resolve_left (not (by decide))]
  · simp [State.cell, State.codeAt, State.codeCell, hcode.resolve_left (not (by decide))]
  · simp [State.cell, State.bitAt, hbits.resolve_left (not (by decide))]
  · simp [State.cell, State.payAt, hpay.resolve_left (not (by decide))]
  · simp [State.cell, State.contAt, hcont.resolve_left (not (by decide))]
  · simp [State.cell, State.outAt, hout.resolve_left (not (by decide))]

end Sys2Proof.Machine
end

