-- ==== Sys2Proof/Laws/HostPort.lean ====
section
/-! SUPPORT. What a host write other than one of CMD can do (R21, R66), and that the memories of the reset state are in
canonical form. -/

namespace Sys2Proof.Machine

/-- What no host write of a register or cell changes: the handshake and the latch, OUT and NODE with their registers
(R66), and the model's own fields but the number of the next draw. -/
structure HostKeeps (s t : State) : Prop where
  status : t.status = s.status
  errcode : t.errcode = s.errcode
  errinfo : t.errinfo = s.errinfo
  outLen : t.outLen = s.outLen
  nnodes : t.nnodes = s.nnodes
  root : t.root = s.root
  node : t.node = s.node
  out : t.out = s.out
  caps : t.caps = s.caps
  inputs : t.inputs = s.inputs
  reply : t.reply = s.reply
  draws : s.draws ≤ t.draws

theorem HostKeeps.refl (s : State) : HostKeeps s s :=
  ⟨rfl, rfl, rfl, rfl, rfl, rfl, rfl, rfl, rfl, rfl, rfl, Nat.le_refl _⟩

/-- Everything a host write of a register other than CMD can do: nothing, or one of five registers takes the value,
a length only up to its capacity (R21). -/
theorem State.writeRegister_cases (s : State) (n : Nat) (v : Word) :
    s.writeRegister n v = s
    ∨ (n = 4 ∧ v.toNat ≤ s.caps.inp.toNat ∧ s.writeRegister n v = { s with inLen := v })
    ∨ (n = 5 ∧ s.writeRegister n v = { s with osc := v })
    ∨ (n = 6 ∧ v.toNat ≤ s.caps.pay.toNat ∧ s.writeRegister n v = { s with payLen := v })
    ∨ (n = 7 ∧ v.toNat ≤ s.caps.cont.toNat ∧ s.writeRegister n v = { s with contLen := v })
    ∨ (n = 9 ∧ v.toNat ≤ s.caps.bits.toNat ∧ s.writeRegister n v = { s with bitsLen := v }) := by
  unfold State.writeRegister
  split
  · split
    · exact .inr (.inl ⟨rfl, ‹_›, rfl⟩)
    · exact .inl rfl
  · exact .inr (.inr (.inl ⟨rfl, rfl⟩))
  · split
    · exact .inr (.inr (.inr (.inl ⟨rfl, ‹_›, rfl⟩)))
    · exact .inl rfl
  · split
    · exact .inr (.inr (.inr (.inr (.inl ⟨rfl, ‹_›, rfl⟩))))
    · exact .inl rfl
  · split
    · exact .inr (.inr (.inr (.inr (.inr ⟨rfl, ‹_›, rfl⟩))))
    · exact .inl rfl
  · exact .inl rfl

/-- A host write leaves alone what `HostKeeps` lists. -/
theorem State.hostWrite_keeps (s : State) (v : CellWrite) : HostKeeps s (s.hostWrite v) := by
  have plain : ∀ t : State, t.status = s.status → t.errcode = s.errcode → t.errinfo = s.errinfo →
      t.outLen = s.outLen → t.nnodes = s.nnodes → t.root = s.root → t.node = s.node → t.out = s.out →
      t.caps = s.caps → t.inputs = s.inputs → t.reply = s.reply → s.draws ≤ t.draws → HostKeeps s t :=
    fun _ h1 h2 h3 h4 h5 h6 h7 h8 h9 h10 h11 h12 => ⟨h1, h2, h3, h4, h5, h6, h7, h8, h9, h10, h11, h12⟩
  cases v with
  | reg n w =>
    rcases s.writeRegister_cases n w with h | ⟨_, _, h⟩ | ⟨_, h⟩ | ⟨_, _, h⟩ | ⟨_, _, h⟩ | ⟨_, _, h⟩
    all_goals
      simp only [State.hostWrite, h]
      apply plain <;> rfl
  | node i r => exact HostKeeps.refl s
  | out i b => exact HostKeeps.refl s
  | code i e =>
    simp only [State.hostWrite, State.writeCode]
    split
    · split
      · apply plain <;> rfl
      · apply plain <;> first | rfl | exact Nat.le_succ _
    · exact HostKeeps.refl s
  | _ =>
    simp only [State.hostWrite]
    split
    · apply plain <;> rfl
    · exact HostKeeps.refl s

/-- Every memory of the reset state lists nothing, which is canonical. -/
theorem State.reset_memories :
    Memory.wf none State.reset.caps.inp.toNat State.reset.inp.cells = true
    ∧ Memory.wf (some 0#32) 256 State.reset.freq = true
    ∧ Memory.wf none 511 State.reset.node.cells = true
    ∧ Memory.wf (some (.invalid State.reset.code.draw)) 256 State.reset.code.cells = true
    ∧ Memory.wf none State.reset.caps.bits.toNat State.reset.bits.cells = true
    ∧ Memory.wf none State.reset.caps.pay.toNat State.reset.pay.cells = true
    ∧ Memory.wf none State.reset.caps.cont.toNat State.reset.cont.cells = true
    ∧ Memory.wf none State.reset.caps.out.toNat State.reset.out.cells = true :=
  ⟨rfl, rfl, rfl, rfl, rfl, rfl, rfl, rfl⟩

end Sys2Proof.Machine
end

