-- ==== Sys2Proof/Laws/Queue.lean ====
section
/-! SUPPORT. The queue order of R124 is a strict total order, and extraction takes out its minimum. -/

namespace Sys2Proof.Machine

theorem before_iff {a b : Key} :
    before a b = true ↔ a.freq < b.freq ∨ (a.freq = b.freq ∧ a.index < b.index) := by
  simp [before]

theorem before_total (a b : Key) : before a b = true ∨ a = b ∨ before b a = true := by
  obtain ⟨f, i⟩ := a
  obtain ⟨g, j⟩ := b
  simp only [before_iff, Key.mk.injEq]
  omega

theorem before_trans {a b c : Key} (h : before a b = true) (h' : before b c = true) : before a c = true := by
  rw [before_iff] at *
  omega

/-- `a` is `b` or before it. -/
def notAfter (a b : Key) : Prop := a = b ∨ before a b = true

theorem foldl_minKey (ks : List Key) (k : Key) :
    (ks.foldl minKey k = k ∨ ks.foldl minKey k ∈ ks)
    ∧ notAfter (ks.foldl minKey k) k ∧ ∀ b ∈ ks, notAfter (ks.foldl minKey k) b := by
  induction ks generalizing k with
  | nil => simp [notAfter]
  | cons j ks ih =>
    obtain ⟨hm, hk, hb⟩ := ih (minKey k j)
    have hkj : notAfter (minKey k j) k ∧ notAfter (minKey k j) j ∧ (minKey k j = k ∨ minKey k j = j) := by
      unfold minKey notAfter
      rcases before_total k j with h | h | h <;> split <;> simp_all
    have trans : ∀ c, notAfter (minKey k j) c → notAfter (ks.foldl minKey (minKey k j)) c := by
      intro c hc
      rcases hk with h | h
      · rw [h]
        exact hc
      · rcases hc with rfl | hc
        · exact .inr h
        · exact .inr (before_trans h hc)
    simp only [List.foldl_cons, List.mem_cons, forall_eq_or_imp]
    refine ⟨?_, trans k hkj.1, trans j hkj.2.1, hb⟩
    rcases hm with h | h
    · rw [h]
      exact hkj.2.2.imp id .inl
    · exact .inr (.inr h)

/-- Extraction answers the one queued node that is before every other, and the queue without it (R124). -/
theorem extractMin_spec {q q' : List Key} {a : Key} (h : extractMin q = some (a, q')) :
    a ∈ q ∧ q' = q.erase a ∧ ∀ b ∈ q, notAfter a b := by
  cases q with
  | nil => simp [extractMin] at h
  | cons k ks =>
    simp only [extractMin, Option.some.injEq, Prod.mk.injEq] at h
    obtain ⟨rfl, rfl⟩ := h
    obtain ⟨hm, hk, hb⟩ := foldl_minKey ks k
    refine ⟨?_, rfl, ?_⟩
    · rcases hm with h | h
      · rw [h]
        exact List.mem_cons_self
      · exact List.mem_cons_of_mem _ h
    · simpa using ⟨hk, hb⟩

theorem extractMin_eq_none {q : List Key} : extractMin q = none ↔ q = [] := by
  cases q <;> simp [extractMin]

end Sys2Proof.Machine
end

