-- ==== Sys2Proof/Laws/Merge.lean ====
section
/-! SUPPORT. What the merge loop of BUILD does (R125): an invariant of queue and arena that every pass keeps, and the
arena it ends with. -/

namespace Sys2Proof.Machine

/-- Node `m` is a child of node `n` of an arena read by `node`. -/
def ChildIn (node : Nat → NodeRec) (m n : Nat) : Prop :=
  (node n).left.toNat = m ∨ (node n).right.toNat = m

/-- Node `j` is without a parent among the nodes from `N` up to `n`. -/
def QueuedIn (node : Nat → NodeRec) (N n j : Nat) : Prop :=
  j < n ∧ ∀ m, N ≤ m → m < n → ¬ ChildIn node j m

/-- The queue order of R124 on the nodes of an arena. -/
def BeforeIn (node : Nat → NodeRec) (a b : Nat) : Prop :=
  (node a).freq.toNat < (node b).freq.toNat
    ∨ ((node a).freq.toNat = (node b).freq.toNat ∧ a < b)

/-- Node `n` merges the first two of the nodes queued when it was made (R125). -/
def MergedAt (node : Nat → NodeRec) (N n : Nat) : Prop :=
  ∃ a b, node n = ⟨.internal, 0#8, (node a).freq + (node b).freq, BitVec.ofNat 9 a, BitVec.ofNat 9 b⟩
    ∧ (node n).freq.toNat = (node a).freq.toNat + (node b).freq.toNat
    ∧ QueuedIn node N n a ∧ QueuedIn node N n b ∧ a ≠ b
    ∧ (∀ j, QueuedIn node N n j → j ≠ a → BeforeIn node a j)
    ∧ ∀ j, QueuedIn node N n j → j ≠ a → j ≠ b → BeforeIn node b j

/-- An arena as a function of the index. -/
def nodeOf (arena : List NodeRec) (n : Nat) : NodeRec := arena.getD n default

theorem nodeOf_append {arena : List NodeRec} (r : List NodeRec) {n : Nat} (h : n < arena.length) :
    nodeOf (arena ++ r) n = nodeOf arena n := by
  simp [nodeOf, List.getD, List.getElem?_append_left h]

theorem nodeOf_length (arena : List NodeRec) (r : NodeRec) : nodeOf (arena ++ [r]) arena.length = r := by
  simp [nodeOf]

/-- `MergedAt` looks at the nodes up to `n` only. -/
theorem MergedAt.congr {node node' : Nat → NodeRec} {N n : Nat} (h : ∀ m ≤ n, node' m = node m)
    (hm : MergedAt node N n) : MergedAt node' N n := by
  have hq : ∀ j, QueuedIn node' N n j ↔ QueuedIn node N n j := by
    intro j
    refine and_congr_right fun _ => forall_congr' fun m => forall_congr' fun _ => ?_
    refine forall_congr' fun hlt => ?_
    simp only [ChildIn, h m (Nat.le_of_lt hlt)]
  obtain ⟨a, b, h1, h2, h3, h4, h5, h6, h7⟩ := hm
  have ha := h a (Nat.le_of_lt h3.1)
  have hb := h b (Nat.le_of_lt h4.1)
  refine ⟨a, b, by rw [h n (Nat.le_refl n), ha, hb, h1], by rw [h n (Nat.le_refl n), ha, hb, h2],
    (hq a).2 h3, (hq b).2 h4, h5, fun j hj hja => ?_, fun j hj hja hjb => ?_⟩
  · have := h6 j ((hq j).1 hj) hja
    have hj' := h j (Nat.le_of_lt hj.1)
    simpa only [BeforeIn, ha, hj'] using this
  · have := h7 j ((hq j).1 hj) hja hjb
    have hj' := h j (Nat.le_of_lt hj.1)
    simpa only [BeforeIn, hb, hj'] using this

/-- The invariant of the merge loop over `N` leaves. -/
structure MergeInv (N : Nat) (queue : List Key) (arena : List NodeRec) : Prop where
  leaves : N ≤ arena.length
  count : arena.length + queue.length = 2 * N
  small : 2 * N ≤ 512
  nodup : (queue.map Key.index).Nodup
  freq : ∀ k ∈ queue, k.index < arena.length ∧ (nodeOf arena k.index).freq.toNat = k.freq
  queued : ∀ j, (∃ k ∈ queue, k.index = j) ↔ QueuedIn (nodeOf arena) N arena.length j
  sum : (queue.map Key.freq).sum < 2 ^ 40
  merged : ∀ n, N ≤ n → n < arena.length → MergedAt (nodeOf arena) N n

theorem toNat_ofNat9 {n : Nat} (h : n < 512) : (BitVec.ofNat 9 n).toNat = n := by
  simp [Nat.mod_eq_of_lt h]

/-- Two queued keys with the same index are the same key. -/
theorem MergeInv.key_eq {N : Nat} {queue : List Key} {arena : List NodeRec} (h : MergeInv N queue arena)
    {k l : Key} (hk : k ∈ queue) (hl : l ∈ queue) (hi : k.index = l.index) : k = l := by
  have h1 := (h.freq k hk).2
  have h2 := (h.freq l hl).2
  rw [hi] at h1
  obtain ⟨f, i⟩ := k
  obtain ⟨g, j⟩ := l
  simp_all

/-- One pass of the merge loop keeps the invariant (R125). -/
theorem MergeInv.pass {N : Nat} {queue queue₁ queue₂ : List Key} {arena : List NodeRec} {a b : Key}
    (h : MergeInv N queue arena) (ha : extractMin queue = some (a, queue₁))
    (hb : extractMin queue₁ = some (b, queue₂)) :
    MergeInv N (queue₂ ++ [{ freq := a.freq + b.freq, index := arena.length }])
      (arena ++ [internalNode a b]) := by
  obtain ⟨ham, rfl, hamin⟩ := extractMin_spec ha
  obtain ⟨hbm, rfl, hbmin⟩ := extractMin_spec hb
  have hbq : b ∈ queue := List.mem_of_mem_erase hbm
  have hnodup : queue.Nodup := h.nodup.of_map
  have hab : a ≠ b := fun hab => (List.Nodup.not_mem_erase hnodup) (hab ▸ hbm)
  have hidx : a.index ≠ b.index := fun hi => hab (h.key_eq ham hbq hi)
  have hp : queue.Perm (a :: b :: (queue.erase a).erase b) :=
    (List.perm_cons_erase ham).trans ((List.perm_cons_erase hbm).cons a)
  have hmem : ∀ k, k ∈ queue ↔ k = a ∨ k = b ∨ k ∈ (queue.erase a).erase b := by
    intro k
    rw [hp.mem_iff]
    simp
  have hlen : queue.length = ((queue.erase a).erase b).length + 2 := by
    rw [hp.length_eq]
    simp
  have hpidx := (hp.map Key.index).nodup_iff.1 h.nodup
  simp only [List.map_cons, List.nodup_cons, List.mem_cons, not_or] at hpidx
  have hsum : a.freq + b.freq + (((queue.erase a).erase b).map Key.freq).sum < 2 ^ 40 := by
    have := (hp.map Key.freq).sum_eq ▸ h.sum
    simp only [List.map_cons, List.sum_cons] at this
    omega
  have haL := (h.freq a ham).1
  have hbL := (h.freq b hbq).1
  have hL : arena.length < 512 := by
    have := h.count
    have := h.small
    omega
  have old : ∀ n < arena.length, nodeOf (arena ++ [internalNode a b]) n = nodeOf arena n :=
    fun n hn => nodeOf_append _ hn
  have new : nodeOf (arena ++ [internalNode a b]) arena.length = internalNode a b := nodeOf_length _ _
  have hqold : ∀ n ≤ arena.length, ∀ j,
      QueuedIn (nodeOf (arena ++ [internalNode a b])) N n j ↔ QueuedIn (nodeOf arena) N n j := by
    intro n hn j
    refine and_congr_right fun _ => forall_congr' fun m => forall_congr' fun _ => ?_
    refine forall_congr' fun hlt => ?_
    simp only [ChildIn, old m (by omega)]
  have hchild : ∀ j, ChildIn (nodeOf (arena ++ [internalNode a b])) j arena.length
      ↔ j = a.index ∨ j = b.index := by
    intro j
    have hl : (internalNode a b).left.toNat = a.index := toNat_ofNat9 (show a.index < 512 by omega)
    have hr : (internalNode a b).right.toNat = b.index := toNat_ofNat9 (show b.index < 512 by omega)
    rw [ChildIn, new, hl, hr]
    exact or_congr eq_comm eq_comm
  have hkeep : ∀ k ∈ (queue.erase a).erase b, k ∈ queue :=
    fun k hk => List.mem_of_mem_erase (List.mem_of_mem_erase hk)
  refine ⟨?_, ?_, h.small, ?_, ?_, ?_, ?_, ?_⟩
  · simp only [List.length_append, List.length_singleton]
    exact Nat.le_succ_of_le h.leaves
  · have := h.count
    simp only [List.length_append, List.length_singleton]
    omega
  · rw [List.map_append, List.nodup_append]
    refine ⟨hpidx.2.2, by simp, ?_⟩
    intro i hi j hj
    simp only [List.map_cons, List.map_nil, List.mem_singleton] at hj
    subst hj
    obtain ⟨k, hk, rfl⟩ := List.mem_map.1 hi
    have := (h.freq k (hkeep k hk)).1
    omega
  · intro k hk
    rcases List.mem_append.1 hk with hk | hk
    · obtain ⟨h1, h2⟩ := h.freq k (hkeep k hk)
      simp only [List.length_append, List.length_singleton]
      exact ⟨by omega, by rw [old _ h1, h2]⟩
    · simp only [List.mem_singleton] at hk
      subst hk
      have hf : (internalNode a b).freq.toNat = a.freq + b.freq := by
        simp only [internalNode, BitVec.toNat_ofNat]
        exact Nat.mod_eq_of_lt (by omega)
      rw [List.length_append, List.length_singleton, new]
      exact ⟨Nat.lt_succ_self _, hf⟩
  · intro j
    simp only [List.length_append, List.length_singleton, List.mem_append, List.mem_singleton]
    constructor
    · rintro ⟨k, hk | rfl, rfl⟩
      · have hq := (h.queued k.index).1 ⟨k, hkeep k hk, rfl⟩
        refine ⟨by have := hq.1; omega, fun m hm hlt => ?_⟩
        rcases Nat.lt_or_ge m arena.length with hlt' | hge
        · have := hq.2 m hm hlt'
          simpa only [ChildIn, old m hlt'] using this
        · obtain rfl : m = arena.length := by omega
          rw [hchild]
          rintro (hi | hi)
          · exact hpidx.1.2 (List.mem_map.2 ⟨k, hk, hi⟩)
          · exact hpidx.2.1 (List.mem_map.2 ⟨k, hk, hi⟩)
      · refine ⟨by simp, fun m hm hlt => ?_⟩
        simp only
        rcases Nat.lt_or_ge m arena.length with hlt' | hge
        · obtain ⟨x, y, hx, -, hqx, hqy, -⟩ := h.merged m hm hlt'
          have hxm := hqx.1
          have hym := hqy.1
          simp only [ChildIn, old m hlt', hx, toNat_ofNat9 (show x < 512 by omega),
            toNat_ofNat9 (show y < 512 by omega)]
          omega
        · obtain rfl : m = arena.length := by omega
          rw [hchild]
          omega
    · rintro ⟨hj, hno⟩
      rcases Nat.lt_or_ge j arena.length with hlt | hge
      · have hq : QueuedIn (nodeOf arena) N arena.length j := by
          refine ⟨hlt, fun m hm hlt' => ?_⟩
          have := hno m hm (by omega)
          simpa only [ChildIn, old m hlt'] using this
        obtain ⟨k, hk, rfl⟩ := (h.queued j).2 hq
        have hnc := hno arena.length h.leaves (by omega)
        rw [hchild] at hnc
        rcases (hmem k).1 hk with rfl | rfl | hk
        · exact absurd (.inl rfl) hnc
        · exact absurd (.inr rfl) hnc
        · exact ⟨k, .inl hk, rfl⟩
      · exact ⟨_, .inr rfl, by simp only; omega⟩
  · simp only [List.map_append, List.sum_append, List.map_cons, List.map_nil, List.sum_cons, List.sum_nil]
    omega
  · intro n hn hlt
    simp only [List.length_append, List.length_singleton] at hlt
    rcases Nat.lt_or_ge n arena.length with hlt' | hge
    · exact (h.merged n hn hlt').congr fun m hm => old m (by omega)
    · obtain rfl : n = arena.length := by omega
      have hfa : (nodeOf (arena ++ [internalNode a b]) a.index).freq.toNat = a.freq := by
        rw [old _ haL, (h.freq a ham).2]
      have hfb : (nodeOf (arena ++ [internalNode a b]) b.index).freq.toNat = b.freq := by
        rw [old _ hbL, (h.freq b hbq).2]
      have key : ∀ (x : Key), x ∈ queue → ∀ j, (∀ k ∈ queue, k.index = j → before x k = true) →
          QueuedIn (nodeOf (arena ++ [internalNode a b])) N arena.length j →
          BeforeIn (nodeOf (arena ++ [internalNode a b])) x.index j := by
        intro x hx j hbefore hj
        obtain ⟨k, hk, rfl⟩ := (h.queued j).2 ((hqold _ (Nat.le_refl _) j).1 hj)
        have := before_iff.1 (hbefore k hk rfl)
        simp only [BeforeIn, old _ (h.freq x hx).1, old _ (h.freq k hk).1, (h.freq x hx).2, (h.freq k hk).2]
        exact this
      refine ⟨a.index, b.index, ?_, ?_, (hqold _ (Nat.le_refl _) _).2 ((h.queued _).1 ⟨a, ham, rfl⟩),
        (hqold _ (Nat.le_refl _) _).2 ((h.queued _).1 ⟨b, hbq, rfl⟩), hidx, ?_, ?_⟩
      · have hf : BitVec.ofNat 40 (a.freq + b.freq) = (nodeOf (arena ++ [internalNode a b]) a.index).freq
            + (nodeOf (arena ++ [internalNode a b]) b.index).freq := by
          apply BitVec.eq_of_toNat_eq
          rw [BitVec.toNat_add, hfa, hfb, BitVec.toNat_ofNat]
        rw [← hf, new]
        rfl
      · rw [new, hfa, hfb]
        simp only [internalNode, BitVec.toNat_ofNat]
        exact Nat.mod_eq_of_lt (by omega)
      · refine fun j hj hja => key a ham j (fun k hk hkj => ?_) hj
        rcases hamin k hk with rfl | hbef
        · exact absurd hkj.symm hja
        · exact hbef
      · refine fun j hj hja hjb => key b hbq j (fun k hk hkj => ?_) hj
        have hka : k ≠ a := fun e => hja (by rw [← hkj, e])
        have hk' : k ∈ queue.erase a := (List.mem_erase_of_ne hka).2 hk
        rcases hbmin k hk' with rfl | hbef
        · exact absurd hkj.symm hjb
        · exact hbef

/-- What the merge loop ends with: one queued node, the old part of the arena as it was, and, if it merged at all, the
last node of the arena as the one queued (R125, R126). -/
theorem mergeLoop_spec {N : Nat} : ∀ (passes : Nat) (queue : List Key) (arena : List NodeRec),
    MergeInv N queue arena → 1 ≤ queue.length → queue.length ≤ passes + 1 →
    ∃ k, MergeInv N [k] (mergeLoop passes queue arena)
      ∧ (∀ n < arena.length, nodeOf (mergeLoop passes queue arena) n = nodeOf arena n)
      ∧ (2 ≤ queue.length → k.index + 1 = (mergeLoop passes queue arena).length) := by
  intro passes
  induction passes with
  | zero =>
    intro queue arena h h1 h2
    obtain ⟨k, rfl⟩ := List.length_eq_one_iff.1 (show queue.length = 1 by omega)
    exact ⟨k, h, fun _ _ => rfl, fun h => by simp at h⟩
  | succ passes ih =>
    intro queue arena h h1 h2
    unfold mergeLoop
    split
    · rename_i hn
      rw [extractMin_eq_none] at hn
      simp [hn] at h1
    · rename_i a queue₁ ha
      obtain ⟨ham, hq1, -⟩ := extractMin_spec ha
      have hlen1 : queue₁.length + 1 = queue.length := by
        rw [hq1, List.length_erase_of_mem ham]
        omega
      split
      · rename_i hn
        rw [extractMin_eq_none] at hn
        subst hn
        obtain ⟨k, rfl⟩ := List.length_eq_one_iff.1 (show queue.length = 1 by simpa using hlen1.symm)
        exact ⟨k, h, fun _ _ => rfl, fun h => by simp at h⟩
      · rename_i b queue₂ hb
        obtain ⟨hbm, hq2, -⟩ := extractMin_spec hb
        have hlen2 : queue₂.length + 1 = queue₁.length := by
          rw [hq2, List.length_erase_of_mem hbm]
          have := List.length_pos_of_mem hbm
          omega
        obtain ⟨k, hk, hold, hlast⟩ := ih _ _ (h.pass ha hb) (by simp) (by simp; omega)
        refine ⟨k, hk, fun n hn => ?_, fun _ => ?_⟩
        · rw [hold n (by simp; omega), nodeOf_append _ hn]
        · rcases Nat.lt_or_ge queue₂.length 1 with h0 | h0
          · have : queue₂ = [] := List.eq_nil_of_length_eq_zero (by omega)
            subst this
            have hr : mergeLoop passes ([] ++ [{ freq := a.freq + b.freq, index := arena.length }])
                (arena ++ [internalNode a b]) = arena ++ [internalNode a b] := by
              cases passes <;> simp [mergeLoop, extractMin]
            rw [hr] at hk ⊢
            have hq := (hk.queued arena.length).2 (((h.pass ha hb).queued arena.length).1
              ⟨{ freq := a.freq + b.freq, index := arena.length }, by simp, rfl⟩)
            obtain ⟨l, hl, hi⟩ := hq
            simp only [List.mem_singleton] at hl
            subst hl
            simp [hi]
          · exact hlast (by simp; omega)

/-! ### What BUILD starts the loop with (R121, R125) -/

theorem State.mem_present {s : State} {k : Nat} : k ∈ s.present ↔ k < 256 ∧ s.freqAt k ≠ 0#32 := by
  simp [State.present]

theorem State.length_present_le (s : State) : s.present.length ≤ 256 := by
  simpa [State.present] using List.length_filter_le (fun k => s.freqAt k != 0#32) (List.range 256)

theorem State.present_ascending (s : State) : s.present.Pairwise (· < ·) := List.pairwise_lt_range.filter _

@[simp] theorem State.length_leaves (s : State) : s.leaves.length = s.present.length := by
  simp [State.leaves]

@[simp] theorem State.length_firstQueue (s : State) : s.firstQueue.length = s.present.length := by
  simp [State.firstQueue]

theorem State.nodeOf_leaves {s : State} {n : Nat} (h : n < s.present.length) :
    nodeOf s.leaves n = leafNode s.present[n] (s.freqAt s.present[n]) := by
  simp [nodeOf, State.leaves, h]

theorem State.mem_firstQueue {s : State} {k : Key} : k ∈ s.firstQueue
    ↔ ∃ h : k.index < s.present.length, k.freq = (s.freqAt s.present[k.index]).toNat := by
  obtain ⟨f, i⟩ := k
  simp only [State.firstQueue, List.mem_map, Prod.exists, Key.mk.injEq, List.mem_zipIdx_iff_getElem?]
  constructor
  · rintro ⟨a, b, hab, rfl, rfl⟩
    obtain ⟨h, rfl⟩ := List.getElem?_eq_some_iff.1 hab
    exact ⟨h, rfl⟩
  · rintro ⟨h, hf⟩
    exact ⟨_, i, List.getElem?_eq_getElem h, hf.symm, rfl⟩

theorem sum_le_length_mul {l : List Nat} {c : Nat} (h : ∀ x ∈ l, x ≤ c) : l.sum ≤ l.length * c := by
  induction l with
  | nil => simp
  | cons a l ih =>
    have ha := h a (by simp)
    have hl := ih (fun x hx => h x (by simp [hx]))
    simp only [List.sum_cons, List.length_cons, Nat.succ_mul]
    omega

/-- The first queue and the leaves meet the invariant of the merge loop; the frequencies sum to less than 2^40
(R132). -/
theorem State.mergeInv_start {s : State} : MergeInv s.present.length s.firstQueue s.leaves where
  leaves := Nat.le_of_eq s.length_leaves.symm
  count := by
    rw [s.length_leaves, s.length_firstQueue]
    omega
  small := by
    have := s.length_present_le
    omega
  nodup := by
    have : s.firstQueue.map Key.index = List.range s.present.length := by
      apply List.ext_getElem <;> simp [State.firstQueue]
    rw [this]
    exact List.nodup_range
  freq := by
    intro k hk
    obtain ⟨h, hf⟩ := State.mem_firstQueue.1 hk
    refine ⟨by rw [s.length_leaves]; exact h, ?_⟩
    rw [State.nodeOf_leaves h, hf]
    simp only [leafNode, BitVec.toNat_setWidth]
    omega
  queued := by
    intro j
    constructor
    · rintro ⟨k, hk, rfl⟩
      obtain ⟨h, -⟩ := State.mem_firstQueue.1 hk
      refine ⟨by rw [s.length_leaves]; exact h, fun m h1 h2 => ?_⟩
      rw [s.length_leaves] at h2
      omega
    · rintro ⟨h, -⟩
      rw [s.length_leaves] at h
      exact ⟨{ freq := (s.freqAt s.present[j]).toNat, index := j }, State.mem_firstQueue.2 ⟨h, rfl⟩, rfl⟩
  sum := by
    have hs := sum_le_length_mul (l := s.firstQueue.map Key.freq) (c := 2 ^ 32 - 1) (by
      intro x hx
      obtain ⟨k, hk, rfl⟩ := List.mem_map.1 hx
      obtain ⟨h, hf⟩ := State.mem_firstQueue.1 hk
      rw [hf]
      omega)
    rw [List.length_map, s.length_firstQueue] at hs
    have := Nat.mul_le_mul_right (2 ^ 32 - 1) s.length_present_le
    omega
  merged := by
    intro n h1 h2
    rw [s.length_leaves] at h2
    omega

end Sys2Proof.Machine
end

