-- ==== Sys2Proof/Laws/PerInstr.lean ====
section
/-! SUPPORT. The statements made of every command one by one. -/

namespace Sys2Proof.Laws

/-- R80, R81: a command's word has 0 in bits 31:8 and the opcode in bits 7:0, passes both checks of R82, and no other
command has that opcode. -/
def EncodingShape.Statement (i : Instr) : Prop :=
  (encode i).extractLsb' 8 24 = 0#24 ∧ (encode i).extractLsb' 0 8 = i.opcode
  ∧ i.wellFormed = true ∧ CommandWord.wellFormed (encode i) = true
  ∧ ∀ j : Instr, j.opcode = i.opcode → j = i

theorem EncodingShape.nop : EncodingShape.Statement .nop :=
  ⟨by decide, by decide, by decide, by decide, fun j => by cases j <;> decide⟩

theorem EncodingShape.freq : EncodingShape.Statement .freq :=
  ⟨by decide, by decide, by decide, by decide, fun j => by cases j <;> decide⟩

theorem EncodingShape.build : EncodingShape.Statement .build :=
  ⟨by decide, by decide, by decide, by decide, fun j => by cases j <;> decide⟩

theorem EncodingShape.gencode : EncodingShape.Statement .gencode :=
  ⟨by decide, by decide, by decide, by decide, fun j => by cases j <;> decide⟩

theorem EncodingShape.pack : EncodingShape.Statement .pack :=
  ⟨by decide, by decide, by decide, by decide, fun j => by cases j <;> decide⟩

theorem EncodingShape.unpack : EncodingShape.Statement .unpack :=
  ⟨by decide, by decide, by decide, by decide, fun j => by cases j <;> decide⟩

theorem EncodingShape.encode : EncodingShape.Statement .encode :=
  ⟨by decide, by decide, by decide, by decide, fun j => by cases j <;> decide⟩

theorem EncodingShape.decode : EncodingShape.Statement .decode :=
  ⟨by decide, by decide, by decide, by decide, fun j => by cases j <;> decide⟩

theorem EncodingShape.wrcont : EncodingShape.Statement .wrcont :=
  ⟨by decide, by decide, by decide, by decide, fun j => by cases j <;> decide⟩

theorem EncodingShape.rdcont : EncodingShape.Statement .rdcont :=
  ⟨by decide, by decide, by decide, by decide, fun j => by cases j <;> decide⟩

theorem EncodingShape.clr : EncodingShape.Statement .clr :=
  ⟨by decide, by decide, by decide, by decide, fun j => by cases j <;> decide⟩

end Sys2Proof.Laws
end

