-- ==== Sys2Proof/Laws/Walk.lean ====
section
/-! SUPPORT. What the walk of GENCODE meets in a tree (R140, R143), and what table its leaves make. -/

namespace Sys2Proof.Machine

/-- In a tree of shape Full the walk from node `i` ends, and the leaves it lists are those that a path leads to
from `i`, each with that path behind the one walked so far. A walk from an internal node `i` goes at most
`i - N + 1` edges deep. -/
theorem State.walk_full {s : State} {N : Nat} (h : s.TreeFull N) : ∀ (fuel i : Nat) (path : List Bool),
    i < 2 * N - 1 → i + 2 - N ≤ fuel → 1 ≤ fuel → path.length + (i + 1 - N) ≤ 255 →
    ∃ leaves, walk s.nodeAt s.nnodes.toNat fuel i path = some leaves
      ∧ ∀ e, e ∈ leaves ↔ ∃ k q, k < N ∧ s.LeadsTo i q k ∧ e.1 = (s.nodeAt k).sym ∧ e.2.bits = path ++ q := by
  intro fuel
  induction fuel with
  | zero => intro i path _ _ h1; omega
  | succ fuel ih =>
    intro i path hi hfuel _ hpath
    have hn : ¬ s.nnodes.toNat ≤ i := by rw [h.nnodes]; omega
    unfold walk
    rw [if_neg hn]
    rcases Nat.lt_or_ge i N with hlt | hge
    · have hk := (h.leaf i hlt).1
      have hp : path.length ≤ 255 := by omega
      refine ⟨[((s.nodeAt i).sym, ⟨path, hp⟩)], by simp [hk, hp], fun e => ?_⟩
      simp only [List.mem_singleton]
      constructor
      · rintro rfl
        exact ⟨i, [], hlt, rfl, rfl, by simp⟩
      · rintro ⟨k, q, _, hq, h1, h2⟩
        cases q with
        | nil =>
          obtain rfl : i = k := hq
          exact Prod.ext h1 (Code.ext (by simpa using h2))
        | cons b q =>
          cases b
          all_goals
            have := hq.1
            rw [hk] at this
            cases this
    · obtain ⟨hk, hl, hr, -, -⟩ := h.internal i hge hi
      obtain ⟨l, hwl, hml⟩ := ih (s.nodeAt i).left.toNat (path ++ [false]) (by omega) (by omega) (by omega)
        (by simp only [List.length_append, List.length_singleton]; omega)
      obtain ⟨r, hwr, hmr⟩ := ih (s.nodeAt i).right.toNat (path ++ [true]) (by omega) (by omega) (by omega)
        (by simp only [List.length_append, List.length_singleton]; omega)
      refine ⟨l ++ r, by simp [hk, hwl, hwr], fun e => ?_⟩
      rw [List.mem_append, hml, hmr]
      constructor
      · rintro (⟨k, q, hkN, hq, h1, h2⟩ | ⟨k, q, hkN, hq, h1, h2⟩)
        · exact ⟨k, false :: q, hkN, ⟨hk, hq⟩, h1, by simpa using h2⟩
        · exact ⟨k, true :: q, hkN, ⟨hk, hq⟩, h1, by simpa using h2⟩
      · rintro ⟨k, q, hkN, hq, h1, h2⟩
        cases q with
        | nil =>
          obtain rfl : i = k := hq
          omega
        | cons b q =>
          cases b
          · exact .inl ⟨k, q, hkN, hq.2, h1, by simpa using h2⟩
          · exact .inr ⟨k, q, hkN, hq.2, h1, by simpa using h2⟩

/-- In a tree of shape Full a path leads down: to `i` itself, or to a smaller index. -/
theorem State.leadsTo_le {s : State} {N : Nat} (h : s.TreeFull N) : ∀ (q : List Bool) (i k : Nat),
    i < 2 * N - 1 → s.LeadsTo i q k → k + q.length ≤ i := by
  intro q
  induction q with
  | nil =>
    intro i k _ hq
    obtain rfl : i = k := hq
    simp
  | cons b q ih =>
    intro i k hi hq
    have hge : N ≤ i := by
      rcases Nat.lt_or_ge i N with hlt | hge
      · have h1 := (h.leaf i hlt).1
        have h2 : (s.nodeAt i).kind = .internal := by cases b <;> exact hq.1
        rw [h1] at h2
        cases h2
      · exact hge
    obtain ⟨-, hl, hr, -⟩ := h.internal i hge hi
    cases b
    · have := ih _ k (by omega) hq.2
      simp only [List.length_cons]
      omega
    · have := ih _ k (by omega) hq.2
      simp only [List.length_cons]
      omega

/-- The table made of a list of leaves that gives no symbol two codes: each leaf's symbol has its code, no other
entry is listed. -/
theorem lookup_codeCells {leaves : List (Byte × Code)}
    (h : ∀ e ∈ leaves, ∀ f ∈ leaves, e.1 = f.1 → e.2 = f.2) (k : Nat) (v : CodeCell) :
    Memory.lookup (codeCells leaves) k = some v ↔ ∃ e ∈ leaves, e.1.toNat = k ∧ v = .valid e.2 := by
  have fold : ∀ (l : List (Byte × Code)) (m : Memory CodeCell),
      (∀ e ∈ l, ∀ f ∈ l, e.1 = f.1 → e.2 = f.2) →
      (Memory.lookup (l.foldl (fun m e => Memory.insert m e.1.toNat (.valid e.2)) m) k = some v
        ↔ (∃ e ∈ l, e.1.toNat = k ∧ v = .valid e.2)
          ∨ ((∀ e ∈ l, e.1.toNat ≠ k) ∧ Memory.lookup m k = some v)) := by
    intro l
    induction l with
    | nil => intro m _; simp
    | cons e l ih =>
      intro m hl
      rw [List.foldl_cons, ih _ (fun a ha b hb => hl a (by simp [ha]) b (by simp [hb])), Memory.lookup_insert]
      simp only [List.mem_cons, forall_eq_or_imp, exists_eq_or_imp]
      by_cases hk : k = e.1.toNat
      · subst hk
        simp only [if_true, Option.some.injEq, ne_eq, not_true, false_and, or_false, true_and]
        constructor
        · rintro (hex | ⟨_, rfl⟩)
          · exact .inr hex
          · exact .inl rfl
        · rintro (rfl | hex)
          · by_cases hex : ∃ f ∈ l, f.1.toNat = e.1.toNat
            · obtain ⟨f, hf, hfe⟩ := hex
              have heq : f.1 = e.1 := BitVec.eq_of_toNat_eq hfe
              exact .inl ⟨f, hf, hfe, by rw [hl f (by simp [hf]) e (by simp) heq]⟩
            · exact .inr ⟨fun f hf hfe => hex ⟨f, hf, hfe⟩, rfl⟩
          · exact .inl hex
      · have hk' : e.1.toNat ≠ k := fun h => hk h.symm
        simp only [if_neg hk, hk', false_and, false_or, ne_eq, not_false_eq_true, true_and]
  have := fold leaves [] h
  simpa [codeCells] using this

end Sys2Proof.Machine
end

