-- ==== Sys2Proof/Tests/Slice0.lean ====
section
/-! SUPPORT. The model's own tests, from the spec's worked vectors (95_test_vectors.md), and for every statement with
hypotheses a concrete state that meets them. -/

namespace Sys2Proof.Tests

open Sys2Proof.Machine

/-! ### The test block -/

/-- The reset state of a block whose capacities are all 64. -/
def block : State := { State.reset with caps := ⟨64#32, 64#32, 64#32, 64#32, 64#32⟩ }

/-- The block with one input pending. -/
def pending (a : Input) : State := block.setInputs [a]

/-- The answer is a next state with property `p`. -/
def answers (o : Host.Outcome State Fault Refusal) (p : State → Bool) : Bool :=
  match o with
  | .next t => p t
  | .fault _ => false
  | .refused _ => false

/-- A Code Table as a list of (symbol, bits), ascending. -/
def tableOf (l : List (Nat × List Bool)) : Space CodeCell :=
  { draw := 0, cells := l.map (fun e => (e.1, .valid (Code.clip e.2))) }

/-- CODE of T2: a `0`, b `11`, c `10`. -/
def abc : Space CodeCell := tableOf [(0x61, [false]), (0x62, [true, true]), (0x63, [true, false])]

/-- CODE of T5: a `0`, b `1`. -/
def ab : Space CodeCell := tableOf [(0x61, [false]), (0x62, [true])]

/-- A buffer that holds `bytes`. -/
def holding (bytes : List Byte) : Space Byte := Space.filled 0 bytes

/-- "aaaaabbbcc". -/
def text : List Byte :=
  [0x61#8, 0x61#8, 0x61#8, 0x61#8, 0x61#8, 0x62#8, 0x62#8, 0x62#8, 0x63#8, 0x63#8]

/-- The container of T5. -/
def abContainer : List Byte :=
  [0x00#8, 0x00#8, 0x00#8, 0x02#8, 0x61#8, 0x01#8, 0x00#8, 0x62#8, 0x01#8, 0x80#8,
    0x00#8, 0x00#8, 0x00#8, 0x02#8, 0x40#8]

/-- A block with `bytes` in IN. -/
def withInput (bytes : List Byte) (s : State) : State :=
  { s with inp := holding bytes, inLen := BitVec.ofNat 32 bytes.length }

/-- A block with `bytes` in PAY. -/
def withPayload (bytes : List Byte) (s : State) : State :=
  { s with pay := holding bytes, payLen := BitVec.ofNat 32 bytes.length }

/-- A block with `bytes` in CONT. -/
def withContainer (bytes : List Byte) (s : State) : State :=
  { s with cont := holding bytes, contLen := BitVec.ofNat 32 bytes.length }

/-- A block with `b` in BITS. -/
def withBits (b : List Bool) (s : State) : State :=
  { s with bits := Space.filled 0 b, bitsLen := BitVec.ofNat 32 b.length }

/-- A block with the tree of T5: two leaves and their parent. -/
def abTree : State :=
  { block with
    node := Space.filled 0 [⟨.leaf, 0x61#8, 1#40, 0#9, 0#9⟩, ⟨.leaf, 0x62#8, 1#40, 0#9, 0#9⟩,
      ⟨.internal, 0#8, 2#40, 0#9, 1#9⟩]
    nnodes := 3#32
    root := 2#32 }

/-- A block with the tree of T3: one leaf under a synthetic root. -/
def oneTree : State :=
  { block with
    node := Space.filled 0 [⟨.leaf, 0x61#8, 10#40, 0#9, 0#9⟩, ⟨.unary, 0#8, 10#40, 0#9, 0#9⟩]
    nnodes := 2#32
    root := 1#32 }

/-! ### Well-formedness: a word that each check refuses (R80, R82) -/

theorem test_wellFormed_upperZero_refuses :
    CommandWord.upperZero 0x00000101#32 = false ∧ CommandWord.wellFormed 0x00000101#32 = false := by decide

theorem test_wellFormed_opcodeDefined_refuses :
    CommandWord.opcodeDefined 0x0000000A#32 = false ∧ CommandWord.wellFormed 0x0000000A#32 = false
    ∧ CommandWord.opcodeDefined 0x0000000E#32 = false ∧ CommandWord.opcodeDefined 0x00000010#32 = false
    ∧ CommandWord.opcodeDefined 0x000000FF#32 = false := by decide

theorem test_wellFormed_accepts :
    CommandWord.wellFormed 0x00000009#32 = true ∧ CommandWord.wellFormed 0x0000000F#32 = true := by decide

/-! ### Decoding: words written from format C (bits 31:8 zero) and the opcode map of R81 -/

theorem test_decode_control :
    decodeWord 0b00000000_00000000_00000000_00000000#32 = .ok .nop
    ∧ decodeWord 0b00000000_00000000_00000000_00001111#32 = .ok .clr := by decide

theorem test_decode_table :
    decodeWord 0b00000000_00000000_00000000_00000001#32 = .ok .freq
    ∧ decodeWord 0b00000000_00000000_00000000_00000010#32 = .ok .build
    ∧ decodeWord 0b00000000_00000000_00000000_00000011#32 = .ok .gencode := by decide

theorem test_decode_packer :
    decodeWord 0b00000000_00000000_00000000_00000100#32 = .ok .pack
    ∧ decodeWord 0b00000000_00000000_00000000_00000101#32 = .ok .unpack := by decide

theorem test_decode_coder :
    decodeWord 0b00000000_00000000_00000000_00000110#32 = .ok .encode
    ∧ decodeWord 0b00000000_00000000_00000000_00000111#32 = .ok .decode := by decide

theorem test_decode_container :
    decodeWord 0b00000000_00000000_00000000_00001000#32 = .ok .wrcont
    ∧ decodeWord 0b00000000_00000000_00000000_00001001#32 = .ok .rdcont := by decide

theorem test_decode_rejects :
    decodeWord 0b00000000_00000000_00000000_00001110#32 = .error (.reservedOpcode 0x0E#8)
    ∧ decodeWord 0b00000000_00000000_00000000_00010000#32 = .error (.reservedOpcode 0x10#8)
    ∧ decodeWord 0b10000000_00000000_00000000_00000001#32 = .error (.upperBitsNotZero 0x80000001#32) := by
  decide

/-- R291: the first command after reset may be any; here the one whose word is placed. -/
theorem test_fetched_word_runs :
    answers (step (block.withFetchWord 32 0x01)) (fun t => t.status == Status.ended true && t.inputs == []) = true := by
  decide

/-! ### Each command, on the spec's vectors -/

theorem test_nop : answers (exec .nop block) (fun t => t.status.word == 2#32) = true := by decide

/-- R230: ignored while an error is latched. -/
theorem test_nop_latched :
    answers (exec .nop { block with status := ⟨false, false, true, false⟩ }) (fun t => t.status.word == 4#32)
      = true := by decide

/-- T2. -/
theorem test_freq : answers (exec .freq (withInput text block))
    (fun t => t.freq == [(0x61, 5#32), (0x62, 3#32), (0x63, 2#32)] && t.status.word == 2#32) = true := by decide

/-- T4: empty input, and counts left by an earlier one. -/
theorem test_freq_empty : answers (exec .freq { block with freq := [(0x61, 5#32)] })
    (fun t => t.freq == [] && t.status.word == 0xA#32) = true := by decide

/-- T2: the tie at the second merge. -/
theorem test_build :
    answers (exec .build { block with freq := [(0x61, 5#32), (0x62, 3#32), (0x63, 2#32)] })
      (fun t => t.nnodes == 5#32 && t.root == 4#32 && t.nodeAt 3 == ⟨.internal, 0#8, 5#40, 2#9, 1#9⟩
        && t.nodeAt 4 == ⟨.internal, 0#8, 10#40, 0#9, 3#9⟩) = true := by decide

/-- T11: the sum of the two largest counts needs 33 bits. -/
theorem test_build_largest :
    answers (exec .build { block with freq := [(0x00, 0xFFFFFFFF#32), (0xFF, 0xFFFFFFFF#32)] })
      (fun t => t.nodeAt 2 == ⟨.internal, 0#8, 0x1FFFFFFFE#40, 0#9, 1#9⟩ && t.root == 2#32) = true := by decide

/-- T5. -/
theorem test_gencode : answers (exec .gencode abTree) (fun t => t.code.cells == ab.cells) = true := by decide

/-- T3: the code of the only symbol is `0`. -/
theorem test_gencode_one : answers (exec .gencode oneTree)
    (fun t => t.code.cells == (tableOf [(0x61, [false])]).cells && t.register 12 == 1#32) = true := by decide

/-- T14: ten bits. -/
theorem test_pack :
    answers (exec .pack (withBits [false, false, false, false, false, false, false, false, false, true] block))
      (fun t => t.payload == [0x00#8, 0x40#8] && t.payLen == 2#32 && t.bitsLen == 10#32) = true := by decide

/-- R256: the payload does not fit CAP_PAY; ERRINFO is the space id 6. -/
theorem test_pack_capacity :
    answers (exec .pack { withBits [true] block with caps := ⟨64#32, 64#32, 0#32, 64#32, 64#32⟩ })
      (fun t => t.status.word == 6#32 && t.errcode == 5#32 && t.errinfo == 6#32 && t.payLen == 0#32) = true := by
  decide

/-- T15: the low five bits of the byte are not looked at. -/
theorem test_unpack : answers (exec .unpack { withPayload [0xA7#8] block with bitsLen := 3#32 })
    (fun t => t.bitString == [true, false, true] && t.status.word == 2#32) = true := by decide

/-- T15: BITS_LEN 17 of a two-byte payload. -/
theorem test_unpack_short : answers (exec .unpack { withPayload [0xFF#8, 0x80#8] block with bitsLen := 17#32 })
    (fun t => t.status.word == 6#32 && t.errcode == 2#32 && t.errinfo == 2#32 && t.bitsLen == 0#32) = true := by
  decide

/-- T2. -/
theorem test_encode : answers (exec .encode { withInput text block with code := abc })
    (fun t => t.payload == [0x07#8, 0xF4#8] && t.osc == 10#32 && t.status.word == 2#32) = true := by decide

/-- T17 (a): the third byte has no code. -/
theorem test_encode_missing :
    answers (exec .encode { withInput [0x61#8, 0x62#8, 0x63#8, 0x61#8] block with code := ab, osc := 7#32 })
      (fun t => t.errcode == 4#32 && t.errinfo == 2#32 && t.payLen == 0#32 && t.osc == 0#32) = true := by decide

/-- T18 (c): eleven symbols, the last read out of the padding. -/
theorem test_decode :
    answers (exec .decode { withPayload [0x07#8, 0xF4#8] block with code := abc, osc := 11#32 })
      (fun t => t.output == text ++ [0x61#8] && t.outLen == 11#32) = true := by decide

/-- T18 (g): the tenth bit matches no code. -/
theorem test_decode_truncated :
    answers (exec .decode { withPayload [0x00#8, 0x40#8] block with
        code := tableOf [(0x61, [false])], osc := 10#32 })
      (fun t => t.errcode == 2#32 && t.errinfo == 9#32 && t.outLen == 0#32) = true := by decide

/-- T5. -/
theorem test_wrcont : answers (exec .wrcont { withPayload [0x40#8] block with code := ab, osc := 2#32 })
    (fun t => t.container == abContainer && t.contLen == 15#32) = true := by decide

/-- T16, last row: b is a prefix of c. -/
theorem test_wrcont_invalid :
    answers (exec .wrcont { block with code := tableOf [(0x61, [false]), (0x62, [true]), (0x63, [true, true])] })
      (fun t => t.errcode == 3#32 && t.errinfo == 0x62#32 && t.contLen == 0#32) = true := by decide

/-- T19 (b): the unused bits of the code field are not looked at. -/
theorem test_rdcont :
    answers (exec .rdcont (withContainer
        [0x00#8, 0x00#8, 0x00#8, 0x01#8, 0x61#8, 0x01#8, 0xFF#8, 0x00#8, 0x00#8, 0x00#8, 0x01#8, 0x80#8] block))
      (fun t => t.code.cells == (tableOf [(0x61, [true])]).cells && t.osc == 1#32 && t.payload == [0x80#8])
      = true := by decide

/-- T19 (g): a repeated symbol; T19 (e): identical codes, reported also where the payload is too long for CAP_PAY
(R216). -/
theorem test_rdcont_errors :
    answers (exec .rdcont { withContainer
        [0x00#8, 0x00#8, 0x00#8, 0x02#8, 0x61#8, 0x01#8, 0x00#8, 0x61#8, 0x01#8, 0x80#8,
          0x00#8, 0x00#8, 0x00#8, 0x02#8, 0x40#8] block with code := abc, osc := 5#32, payLen := 3#32 })
      (fun t => t.errcode == 1#32 && t.errinfo == 7#32 && t.register 12 == 0#32 && t.osc == 0#32
        && t.payLen == 0#32) = true
    ∧ answers (exec .rdcont { withContainer
        [0x00#8, 0x00#8, 0x00#8, 0x02#8, 0x61#8, 0x01#8, 0x00#8, 0x62#8, 0x01#8, 0x00#8,
          0x00#8, 0x00#8, 0x00#8, 0x02#8, 0x40#8] block with caps := ⟨64#32, 64#32, 0#32, 64#32, 64#32⟩ })
      (fun t => t.errcode == 3#32 && t.errinfo == 0x61#32 && t.register 12 == 0#32) = true := by decide

/-- T25: CLR of a latched error. -/
theorem test_clr :
    answers (exec .clr { withInput text block with status := ⟨false, true, true, true⟩, errcode := 6#32, errinfo := 10#32 })
      (fun t => t.status.word == 2#32 && t.errcode == 0#32 && t.errinfo == 0#32 && t.inLen == 0#32
        && t.root == 0xFFFFFFFF#32) = true := by decide

/-! ### The host port (T25, T26) -/

theorem test_illegal_word : answers (step (pending (.write (.reg 0 0x0000000A#32))))
    (fun t => t.status.word == 6#32 && t.errcode == 6#32 && t.errinfo == 0xA#32) = true := by decide

theorem test_write_in_len_at_capacity :
    answers (step (pending (.write (.reg 4 64#32)))) (fun t => t.inLen == 64#32) = true
    ∧ answers (step (pending (.write (.reg 4 65#32)))) (fun t => t.inLen == 0#32) = true := by decide

theorem test_read_reserved_register :
    answers (step (pending (.read .reg 13))) (fun t => t.reply == some (.word 0#32)) = true := by decide

/-! ### For every statement with hypotheses, a state that meets them -/

/-- A valid entry of CODE is a listed one. -/
theorem listed_of_valid {s : State} {k : Nat} (h : (s.codeAt k).valid = true) :
    k ∈ s.code.cells.map Prod.fst := by
  obtain ⟨c, hc⟩ := State.codeAt_valid.1 h
  rw [codeIn_eq_some] at hc
  have : ∀ m : Memory CodeCell, Memory.lookup m k = some (.valid c) → k ∈ m.map Prod.fst := by
    intro m
    induction m with
    | nil => simp
    | cons e m ih =>
      rw [Memory.lookup_cons]
      split
      · simp_all
      · intro h
        simp [ih h]
  exact this _ hc

/-- `TableValid`, looking at the listed entries only. -/
theorem tableValid_of_listed {s : State}
    (h : ∀ k ∈ s.code.cells.map Prod.fst, 1 ≤ (s.codeAt k).code.bits.length)
    (h' : ∀ j ∈ s.code.cells.map Prod.fst, ∀ k ∈ s.code.cells.map Prod.fst, j ≠ k →
      ¬ (s.codeAt j).code.bits <+: (s.codeAt k).code.bits) : s.TableValid :=
  ⟨fun k _ hk => h k (listed_of_valid hk),
    fun j _ k _ hjk hj hk => h' j (listed_of_valid hj) k (listed_of_valid hk) hjk⟩

/-- The boundary words of both clauses. -/
theorem witness_IllegalWordRaisesIllegalCommand :
    (∀ w : Word, (pending (.write (.reg 0 w))).inputs = .write (.reg 0 w) :: []
      ∧ (pending (.write (.reg 0 w))).status.busy = false ∧ (pending (.write (.reg 0 w))).status.err = false)
    ∧ (∀ n ∈ [0x0A, 0x0E, 0x10, 0xFF, 0x100, 0x101],
      2 ^ 8 ≤ (BitVec.ofNat 32 n).toNat
      ∨ (0x0A ≤ (BitVec.ofNat 32 n).toNat % 256 ∧ (BitVec.ofNat 32 n).toNat % 256 ≤ 0x0E)
      ∨ 0x10 ≤ (BitVec.ofNat 32 n).toNat % 256)
    ∧ ∀ n ∈ [0x00, 0x09, 0x0F],
      ¬ (2 ^ 8 ≤ (BitVec.ofNat 32 n).toNat
        ∨ (0x0A ≤ (BitVec.ofNat 32 n).toNat % 256 ∧ (BitVec.ofNat 32 n).toNat % 256 ≤ 0x0E)
        ∨ 0x10 ≤ (BitVec.ofNat 32 n).toNat % 256) :=
  ⟨fun _ => ⟨rfl, rfl, rfl⟩, by decide, by decide⟩

theorem witness_StepRunsDecodedCommand :
    (pending (.write (.reg 0 0x09#32))).inputs = .write (.reg 0 0x09#32) :: []
    ∧ (pending (.write (.reg 0 0x09#32))).status.busy = false ∧ decodeWord 0x09#32 = .ok .rdcont := by decide

/-- The block with an error latched and one input pending. -/
def latched (a : Input) : State :=
  { pending a with status := ⟨false, true, true, false⟩, errcode := 6#32, errinfo := 0xA#32 }

theorem witness_LatchedErrorIgnoresCommandWords :
    (latched (.write (.reg 0 0x01#32))).inputs = .write (.reg 0 0x01#32) :: []
    ∧ (latched (.write (.reg 0 0x01#32))).status.busy = false
    ∧ (latched (.write (.reg 0 0x01#32))).status.err = true ∧ 0x01#32 ≠ 0x0000000F#32 := by decide

theorem witness_FirstErrorStaysLatched :
    (latched (.write (.reg 0 0x101#32))).status.err = true
    ∧ ∃ t, step (latched (.write (.reg 0 0x101#32))) = .next t :=
  ⟨rfl, _, rfl⟩

theorem witness_StepHoldsStateWithoutInput : block.inputs = [] := by decide

/-- The last cell of every space but REG and the first index beyond it; a register of every number and a reserved one. -/
theorem witness_HostReadReturnsCell :
    (∀ sp i, (pending (.read sp i)).inputs = .read sp i :: [] ∧ (pending (.read sp i)).status.busy = false)
    ∧ (∀ a, (pending a).inRange .inp 63 = true ∧ (pending a).inRange .inp 64 = false
      ∧ (pending a).inRange .freq 255 = true ∧ (pending a).inRange .freq 256 = false
      ∧ (pending a).inRange .node 510 = true ∧ (pending a).inRange .node 511 = false
      ∧ (pending a).inRange .code 255 = true ∧ (pending a).inRange .code 256 = false
      ∧ (pending a).inRange .bits 63 = true ∧ (pending a).inRange .bits 64 = false
      ∧ (pending a).inRange .pay 63 = true ∧ (pending a).inRange .pay 64 = false
      ∧ (pending a).inRange .cont 63 = true ∧ (pending a).inRange .cont 64 = false
      ∧ (pending a).inRange .out 63 = true ∧ (pending a).inRange .out 64 = false)
    ∧ ∀ i ∈ List.range 14, i = 1 ∨ i = 2 ∨ i = 3 ∨ i = 4 ∨ i = 5 ∨ i = 6 ∨ i = 7 ∨ i = 8 ∨ i = 9 ∨ i = 10
      ∨ i = 11 ∨ i = 12 ∨ i = 0 ∨ 13 ≤ i :=
  ⟨fun _ _ => ⟨rfl, rfl⟩,
    fun _ => ⟨rfl, rfl, rfl, rfl, rfl, rfl, rfl, rfl, rfl, rfl, rfl, rfl, rfl, rfl, rfl, rfl⟩, by decide⟩

/-- R23, R38: STATUS with ERR and not EMPTY reads 4, with EMPTY and not ERR 8; NSYM counts the valid entries. -/
theorem test_read_status_and_nsym :
    ({ block with status := ⟨false, false, true, false⟩ } : State).cell .reg 1 = .word 4#32
    ∧ ({ block with status := ⟨false, false, false, true⟩ } : State).cell .reg 1 = .word 8#32
    ∧ ({ block with code := abc } : State).cell .reg 12 = .word 3#32 := by decide

/-- The last cell of every space that the host may write. -/
theorem witness_HostWriteSetsThatCellOnly :
    (∀ v, (pending (.write v)).inputs = .write v :: [] ∧ (pending (.write v)).status.busy = false
      ∧ (pending (.write v)).inRange .inp 63 = true ∧ (pending (.write v)).inRange .freq 255 = true
      ∧ (pending (.write v)).inRange .code 255 = true ∧ (pending (.write v)).inRange .bits 63 = true
      ∧ (pending (.write v)).inRange .pay 63 = true ∧ (pending (.write v)).inRange .cont 63 = true)
    ∧ (∃ b, CellWrite.inp 63 0xFF#8 = .inp 63 b) ∧ (∃ w, CellWrite.freq 255 7#32 = .freq 255 w)
    ∧ (∃ c, CellWrite.code 255 ⟨true, Code.clip [true]⟩ = .code 255 ⟨true, c⟩)
    ∧ (∃ c, CellWrite.code 255 ⟨false, Code.clip [true]⟩ = .code 255 ⟨false, c⟩)
    ∧ (∃ b, CellWrite.bits 63 true = .bits 63 b) ∧ (∃ b, CellWrite.pay 63 1#8 = .pay 63 b)
    ∧ ∃ b, CellWrite.cont 63 1#8 = .cont 63 b :=
  ⟨fun _ => ⟨rfl, rfl, rfl, rfl, rfl, rfl, rfl, rfl⟩, ⟨_, rfl⟩, ⟨_, rfl⟩, ⟨_, rfl⟩, ⟨_, rfl⟩, ⟨_, rfl⟩, ⟨_, rfl⟩, ⟨_, rfl⟩⟩

/-- Each of the ignored writes, at the boundary of its range. -/
theorem witness_HostWriteIgnored :
    (∀ v, (pending (.write v)).inputs = .write v :: [] ∧ (pending (.write v)).status.busy = false)
    ∧ (∀ n ∈ [1, 2, 3, 8, 10, 11, 12, 13], n = 1 ∨ n = 2 ∨ n = 3 ∨ n = 8 ∨ 10 ≤ n)
    ∧ (∀ a, (pending a).caps = ⟨64#32, 64#32, 64#32, 64#32, 64#32⟩)
    ∧ (64#32 : Word).toNat < (65#32 : Word).toNat ∧ (64#32 : Word).toNat ≤ 64 ∧ 256 ≤ 256
    ∧ (∃ i r, CellWrite.node 0 ⟨.leaf, 0#8, 0#40, 0#9, 0#9⟩ = .node i r)
    ∧ ∃ i b, CellWrite.out 0 1#8 = .out i b :=
  ⟨fun _ => ⟨rfl, rfl⟩, by decide, fun _ => rfl, by decide, by decide, by decide, ⟨_, _, rfl⟩, ⟨_, _, rfl⟩⟩

/-- Each length at its capacity, OSC at its greatest value. -/
theorem witness_HostWriteSetsRegister :
    (∀ n w, (pending (.write (.reg n w))).inputs = .write (.reg n w) :: []
      ∧ (pending (.write (.reg n w))).status.busy = false)
    ∧ (∀ a, (pending a).caps = ⟨64#32, 64#32, 64#32, 64#32, 64#32⟩)
    ∧ (64#32 : Word).toNat ≤ (64#32 : Word).toNat :=
  ⟨fun _ _ => ⟨rfl, rfl⟩, fun _ => rfl, by decide⟩

/-- The block with BUSY set and one input pending. -/
def busyBlock (a : Input) : State := { pending a with status := ⟨true, false, false, false⟩ }

theorem witness_BusyBlockAnswersOnlyStatus :
    (∀ a, (busyBlock a).inputs = a :: [] ∧ (busyBlock a).status.busy = true)
    ∧ Input.read .reg 1 ≠ .reset ∧ Input.read .reg 2 ≠ .reset ∧ Input.read .reg 2 ≠ .read .reg 1
    ∧ Input.read .inp 1 ≠ .read .reg 1 ∧ Input.write (.reg 1 0#32) ≠ .reset
    ∧ Input.write (.reg 1 0#32) ≠ .read .reg 1 :=
  ⟨fun _ => ⟨rfl, rfl⟩, by decide, by decide, by decide, by decide, by decide, by decide⟩

theorem witness_ResetPutsResetState : (busyBlock .reset).inputs = .reset :: [] := by decide

theorem witness_NopOnlySetsDone :
    block.status.err = false ∧ (latched (.read .reg 1)).status.err = true := by decide

theorem witness_FreqCountsEveryByteValue : (withInput text block).status.err = false := by decide

theorem witness_FreqCountsSumToLength :
    (withInput text block).status.err = false ∧ ∃ t, exec .freq (withInput text block) = .next t :=
  ⟨rfl, _, rfl⟩

theorem witness_BuildOfNothingGivesNoTree :
    block.status.err = false ∧ ∀ k < 256, block.freqAt k = 0#32 :=
  ⟨rfl, fun _ _ => rfl⟩

/-- The block with one FREQ cell set, the last. -/
def lastCounted : State := { block with freq := [(255, 1#32)] }

theorem witness_BuildOfOneSymbolGivesUnaryRoot :
    lastCounted.status.err = false ∧ 255 < 256 ∧ lastCounted.freqAt 255 ≠ 0#32
    ∧ ∀ j < 256, j ≠ 255 → lastCounted.freqAt j = 0#32 := by
  refine ⟨rfl, by decide, by decide, fun j _ hj => ?_⟩
  simp [lastCounted, State.freqAt, Ne.symm hj]

/-- The block with the counts of T2. -/
def counted : State := { block with freq := [(0x61, 5#32), (0x62, 3#32), (0x63, 2#32)] }

theorem witness_BuildMergesTwoFirstOfQueue :
    counted.status.err = false
    ∧ [0x61, 0x62, 0x63] = (List.range 256).filter (fun k => decide (0 < (counted.freqAt k).toNat))
    ∧ 2 ≤ [0x61, 0x62, 0x63].length := by decide

theorem witness_BuildDependsOnFreqAlone :
    counted.status.err = false ∧ (withInput text counted).status.err = false
    ∧ (∀ k < 256, counted.freqAt k = (withInput text counted).freqAt k)
    ∧ (∃ t, exec .build counted = .next t) ∧ ∃ t, exec .build (withInput text counted) = .next t :=
  ⟨rfl, rfl, fun _ _ => rfl, ⟨_, rfl⟩, ⟨_, rfl⟩⟩

theorem witness_GencodeOfNoTreeGivesEmptyTable :
    block.status.err = false ∧ block.root = 0xFFFFFFFF#32 := by decide

theorem oneTree_single : oneTree.TreeSingle :=
  ⟨by decide, by decide, by decide, by decide, by decide, by decide⟩

theorem abTree_full : abTree.TreeFull 2 where
  low := by decide
  high := by decide
  nnodes := by decide
  root := by decide
  leaf := by decide
  ascending := by decide
  internal := by
    intro n h1 h2
    obtain rfl : n = 2 := by omega
    decide
  parent := by
    intro m hm
    refine ⟨2, ⟨by decide, by decide, ?_⟩, fun n h1 h2 _ => by omega⟩
    have : m = 0 ∨ m = 1 := by omega
    rcases this with rfl | rfl
    · exact .inl (by decide)
    · exact .inr (by decide)

theorem witness_GencodeOfOneSymbolGivesZeroBit : oneTree.status.err = false ∧ oneTree.TreeSingle :=
  ⟨rfl, oneTree_single⟩

theorem witness_GencodeCodesArePaths : abTree.status.err = false ∧ abTree.TreeFull 2 :=
  ⟨rfl, abTree_full⟩

/-- A tree of each of the three shapes. -/
theorem witness_GencodeTableIsValid :
    (block.status.err = false ∧ block.TreeOk) ∧ (oneTree.status.err = false ∧ oneTree.TreeOk)
    ∧ (abTree.status.err = false ∧ abTree.TreeOk) :=
  ⟨⟨rfl, .inl ⟨rfl, rfl⟩⟩, ⟨rfl, .inr (.inl oneTree_single)⟩, ⟨rfl, .inr (.inr ⟨2, abTree_full⟩)⟩⟩

/-- The block with the ten bits of T14. -/
def tenBits : State :=
  withBits [false, false, false, false, false, false, false, false, false, true] block

theorem witness_PackPlacesBitsMsbFirst :
    tenBits.status.err = false ∧ ceil8 tenBits.bitsLen.toNat ≤ tenBits.caps.pay.toNat := by decide

/-- The block with the payload of T15 and `n` in BITS_LEN. -/
def twoBytes (n : Word) : State := { withPayload [0xFF#8, 0x80#8] block with bitsLen := n }

theorem witness_UnpackReadsBitsMsbFirst :
    (twoBytes 16#32).status.err = false ∧ (twoBytes 16#32).bitsLen.toNat ≤ 8 * (twoBytes 16#32).payLen.toNat := by
  decide

theorem witness_UnpackOfShortPayloadRaises :
    (twoBytes 17#32).status.err = false ∧ 8 * (twoBytes 17#32).payLen.toNat < (twoBytes 17#32).bitsLen.toNat := by
  decide

theorem witness_UnpackAfterPackRestoresBits :
    tenBits.status.err = false ∧ ∃ t t' : State, exec .pack tenBits = .next t ∧ t.status.err = false
      ∧ t'.status.err = false ∧ t'.bitsLen = t.bitsLen ∧ t'.payLen = t.payLen
      ∧ ∀ i < t.payLen.toNat, t'.payAt i = t.payAt i :=
  ⟨rfl, _, command .pack runPack tenBits, rfl, by decide, by decide, rfl, rfl, fun _ _ => rfl⟩

/-- A bit-string of whole bytes, and two of one length that pack alike. -/
theorem witness_PackAndUnpackLaws :
    (List.replicate 8 true).length % 8 = 0 ∧ [true, false].length = [true, false].length
    ∧ packBits [true, false] = packBits [true, false] := by decide

/-- The block with the table of the sixth row of T16: a and b have the same code. -/
def clash : State := { block with code := tableOf [(0x61, [true, false]), (0x62, [true, false])] }

theorem clash_offender : clash.OffenderIs 0x61 := by
  refine ⟨⟨by decide, by decide, .inr ⟨0x62, by decide, by decide, by decide, .inl (by decide)⟩⟩, ?_⟩
  rintro j hj ⟨_, hv, _⟩
  have hm := listed_of_valid hv
  have : j = 0x61 ∨ j = 0x62 := by simpa [clash, tableOf] using hm
  omega

/-- Both answers of the check (T16). -/
theorem witness_TableCheckFindsSmallestOffender :
    offender clash.table = some 0x61 ∧ clash.OffenderIs 0x61
    ∧ offender ({ block with code := abc } : State).table = none
    ∧ ({ block with code := abc } : State).TableValid :=
  ⟨by decide, clash_offender, by decide, tableValid_of_listed (by decide) (by decide)⟩

/-- The records of T19 (e): a and b have the same code. -/
def twins : List HeaderRecord := [(0x61#8, 1#8, [0x00#8]), (0x62#8, 1#8, [0x00#8])]

/-- The block with the container of T19 (e). -/
def twinContainer : State :=
  withContainer [0x00#8, 0x00#8, 0x00#8, 0x02#8, 0x61#8, 0x01#8, 0x00#8, 0x62#8, 0x01#8, 0x00#8,
    0x00#8, 0x00#8, 0x00#8, 0x02#8, 0x40#8] block

theorem witness_InvalidTableRaisesInvalidCode :
    ((∀ i ∈ [Instr.encode, .decode, .wrcont], i = .encode ∨ i = .decode ∨ i = .wrcont)
      ∧ clash.status.err = false ∧ clash.OffenderIs 0x61)
    ∧ twinContainer.status.err = false ∧ (∀ r ∈ twins, r.2.2.length = ceil8 r.2.1.toNat)
    ∧ twins.Pairwise (fun r q => r.1 ≠ q.1)
    ∧ twinContainer.container = be32Bytes twins.length ++ twins.flatMap (fun r => r.1 :: r.2.1 :: r.2.2)
      ++ be32Bytes (2#32 : Word).toNat ++ [0x40#8]
    ∧ RecordOffends twins 0x61 ∧ ∀ j < 0x61, ¬ RecordOffends twins j := by
  refine ⟨⟨by decide, rfl, clash_offender⟩, rfl, by decide, by decide, by decide,
    ⟨_, List.mem_cons_self, rfl, .inr ⟨_, List.mem_cons_of_mem _ List.mem_cons_self, by decide,
      .inl (by decide)⟩⟩, ?_⟩
  rintro j hj ⟨r, hr, rfl, -⟩
  simp only [twins, List.mem_cons, List.not_mem_nil, or_false] at hr
  rcases hr with rfl | rfl <;> exact absurd hj (by decide)

/-- The block of T2 before ENCODE. -/
def toEncode : State := { withInput text block with code := abc }

theorem toEncode_valid : toEncode.TableValid := tableValid_of_listed (by decide) (by decide)

theorem witness_EncodePacksConcatenatedCodes :
    toEncode.status.err = false ∧ toEncode.TableValid
    ∧ (∀ i < toEncode.inLen.toNat, (toEncode.codeAt (toEncode.inAt i).toNat).valid = true)
    ∧ ceil8 (toEncode.input.flatMap toEncode.codeBits).length ≤ toEncode.caps.pay.toNat :=
  ⟨rfl, toEncode_valid, by decide, by decide⟩

/-- The block of T17 (a). -/
def uncoded : State := { withInput [0x61#8, 0x62#8, 0x63#8, 0x61#8] block with code := ab }

theorem witness_EncodeOfUncodedByteRaises :
    uncoded.status.err = false ∧ uncoded.TableValid ∧ 2 < uncoded.inLen.toNat
    ∧ (uncoded.codeAt (uncoded.inAt 2).toNat).valid = false
    ∧ (∀ j < 2, (uncoded.codeAt (uncoded.inAt j).toNat).valid = true)
    ∧ ceil8 ((uncoded.input.take 2).flatMap uncoded.codeBits).length ≤ uncoded.caps.pay.toNat :=
  ⟨rfl, tableValid_of_listed (by decide) (by decide), by decide, by decide, by decide, by decide⟩

/-- The block of T17 (d): CAP_PAY is 1. -/
def oneByte : State := { toEncode with caps := ⟨64#32, 64#32, 1#32, 64#32, 64#32⟩ }

theorem witness_EncodeBeyondCapacityRaises :
    oneByte.status.err = false ∧ oneByte.TableValid ∧ 6 < oneByte.inLen.toNat
    ∧ (∀ j ≤ 6, (oneByte.codeAt (oneByte.inAt j).toNat).valid = true)
    ∧ oneByte.caps.pay.toNat < ceil8 ((oneByte.input.take (6 + 1)).flatMap oneByte.codeBits).length :=
  ⟨rfl, tableValid_of_listed (by decide) (by decide), by decide, by decide, by decide⟩

theorem witness_EncodeLengthLaw :
    toEncode.status.err = false ∧ ∃ t, exec .encode toEncode = .next t ∧ t.status.err = false :=
  ⟨rfl, _, rfl, by decide⟩

/-- The block of T18 (a) before DECODE. -/
def toDecode : State := { withPayload [0x07#8, 0xF4#8] block with code := abc, osc := 10#32 }

theorem witness_DecodeEmitsCodedSymbols :
    toDecode.status.err = false ∧ toDecode.TableValid ∧ toDecode.osc.toNat ≤ toDecode.caps.out.toNat
    ∧ text.length = toDecode.osc.toNat ∧ (∀ b ∈ text, (toDecode.codeAt b.toNat).valid = true)
    ∧ unpackBits toDecode.payload (8 * toDecode.payLen.toNat) = text.flatMap toDecode.codeBits ++ [false] :=
  ⟨rfl, tableValid_of_listed (by decide) (by decide), by decide, by decide, by decide, by decide⟩

/-- The block of T18 (g) before DECODE. -/
def unmatched : State :=
  { withPayload [0x00#8, 0x40#8] block with code := tableOf [(0x61, [false])], osc := 10#32 }

theorem witness_DecodeWithoutMatchRaises :
    unmatched.status.err = false ∧ unmatched.TableValid ∧ unmatched.osc.toNat ≤ unmatched.caps.out.toNat
    ∧ (List.replicate 9 0x61#8).length < unmatched.osc.toNat
    ∧ (∀ b ∈ List.replicate 9 0x61#8, (unmatched.codeAt b.toNat).valid = true)
    ∧ unpackBits unmatched.payload (8 * unmatched.payLen.toNat)
        = (List.replicate 9 0x61#8).flatMap unmatched.codeBits
          ++ [true, false, false, false, false, false, false]
    ∧ ∀ k < 256, (unmatched.codeAt k).valid = true →
        ¬ (unmatched.codeAt k).code.bits <+: [true, false, false, false, false, false, false] := by
  refine ⟨rfl, tableValid_of_listed (by decide) (by decide), by decide, by decide, by decide, by decide, ?_⟩
  intro k _ hv
  obtain rfl : k = 0x61 := by simpa [unmatched, tableOf] using listed_of_valid hv
  decide

theorem witness_DecodeAfterEncodeRestoresInput :
    toEncode.status.err = false ∧ ∃ t t' : State, exec .encode toEncode = .next t ∧ t.status.err = false
      ∧ t'.status.err = false ∧ (∀ k < 256, t'.codeAt k = t.codeAt k) ∧ t'.payLen = t.payLen
      ∧ (∀ i < t.payLen.toNat, t'.payAt i = t.payAt i) ∧ t'.osc = t.osc
      ∧ t'.osc.toNat ≤ t'.caps.out.toNat :=
  ⟨rfl, _, command .encode runEncode toEncode, rfl, by decide, by decide, fun _ _ => rfl, rfl, fun _ _ => rfl, rfl,
    by decide⟩

/-- The block of T5 before WRCONT. -/
def toWrite : State := { withPayload [0x40#8] block with code := ab, osc := 2#32 }

theorem toWrite_valid : toWrite.TableValid := tableValid_of_listed (by decide) (by decide)

theorem witness_WrcontWritesContainer :
    toWrite.status.err = false ∧ toWrite.TableValid
    ∧ [0x61, 0x62] = (List.range 256).filter (fun k => (toWrite.codeAt k).valid)
    ∧ abContainer = be32Bytes [0x61, 0x62].length
      ++ [0x61, 0x62].flatMap (fun k => BitVec.ofNat 8 k :: BitVec.ofNat 8 (toWrite.codeAt k).code.bits.length
          :: packBits (toWrite.codeAt k).code.bits)
      ++ be32Bytes toWrite.osc.toNat ++ (List.range toWrite.payLen.toNat).map toWrite.payAt
    ∧ 4 + ([0x61, 0x62].map (fun k => 2 + ceil8 (toWrite.codeAt k).code.bits.length)).sum + 4
      + toWrite.payLen.toNat ≤ toWrite.caps.cont.toNat :=
  ⟨rfl, toWrite_valid, by decide, by decide, by decide⟩

/-- The records of T19 (a), the later symbol first. -/
def descending : List HeaderRecord := [(0x62#8, 1#8, [0x80#8]), (0x61#8, 1#8, [0x00#8])]

/-- The block with the container of T19 (a). -/
def toRead : State :=
  withContainer [0x00#8, 0x00#8, 0x00#8, 0x02#8, 0x62#8, 0x01#8, 0x80#8, 0x61#8, 0x01#8, 0x00#8,
    0x00#8, 0x00#8, 0x00#8, 0x02#8, 0x40#8] block

theorem witness_RdcontReadsContainer :
    toRead.status.err = false ∧ descending.length ≤ 256
    ∧ (∀ r ∈ descending, 1 ≤ r.2.1.toNat ∧ r.2.2.length = ceil8 r.2.1.toNat)
    ∧ descending.Pairwise (fun r q => r.1 ≠ q.1
      ∧ ¬ unpackBits r.2.2 r.2.1.toNat <+: unpackBits q.2.2 q.2.1.toNat
      ∧ ¬ unpackBits q.2.2 q.2.1.toNat <+: unpackBits r.2.2 r.2.1.toNat)
    ∧ toRead.container = be32Bytes descending.length ++ descending.flatMap (fun r => r.1 :: r.2.1 :: r.2.2)
      ++ be32Bytes (2#32 : Word).toNat ++ [0x40#8]
    ∧ [0x40#8].length ≤ toRead.caps.pay.toNat := by decide

/-- The block with a container of `n` in symbolCount, one record for a, and `tail`. -/
def cut (n : Nat) (tail : List Byte) : State :=
  withContainer (be32Bytes n ++ [(0x61#8, 1#8, [0x00#8])].flatMap (fun r => r.1 :: r.2.1 :: r.2.2) ++ tail) block

/-- Each of the seven clauses, at the boundary of its range. -/
theorem witness_RdcontOfMalformedHeaderRaises :
    (withContainer [0#8, 0#8, 0#8] block).container.length < 4
    ∧ (withContainer [0#8, 0#8, 0#8] block).status.err = false
    ∧ 4 ≤ (withContainer [0#8, 0#8, 1#8, 1#8] block).container.length
    ∧ 256 < be32At (withContainer [0#8, 0#8, 1#8, 1#8] block).container 0
    ∧ (∀ e ∈ [(2, []), (2, [0x61#8, 7#8]), (2, [0x62#8]), (256, [0x62#8, 9#8, 0#8]), (1, [0#8, 0#8, 0#8])],
      e.1 ≤ 256 ∧ (cut e.1 e.2).status.err = false
      ∧ (cut e.1 e.2).container
        = be32Bytes e.1 ++ [(0x61#8, 1#8, [0x00#8])].flatMap (fun r => r.1 :: r.2.1 :: r.2.2) ++ e.2)
    ∧ (∀ r ∈ [((0x61#8 : Byte), (1#8 : Byte), [(0x00#8 : Byte)])], r.2.2.length = ceil8 r.2.1.toNat)
    ∧ [((0x61#8 : Byte), (1#8 : Byte), [(0x00#8 : Byte)])].Pairwise (fun r q => r.1 ≠ q.1)
    ∧ (1 < 2 ∧ 7 = (cut 2 []).container.length)
    ∧ ((∃ r ∈ [((0x61#8 : Byte), (1#8 : Byte), [(0x00#8 : Byte)])], r.1 = 0x61#8)
      ∧ 7 = (cut 2 [0x61#8, 7#8]).container.length - [0x61#8, 7#8].length)
    ∧ ((∀ r ∈ [((0x61#8 : Byte), (1#8 : Byte), [(0x00#8 : Byte)])], r.1 ≠ 0x62#8)
      ∧ 8 = (cut 2 [0x62#8]).container.length)
    ∧ ([0#8].length < ceil8 (9#8 : Byte).toNat
      ∧ 9 = (cut 256 [0x62#8, 9#8, 0#8]).container.length - [0#8].length)
    ∧ ([0#8, 0#8, 0#8].length < 4
      ∧ 7 = (cut 1 [0#8, 0#8, 0#8]).container.length - [0#8, 0#8, 0#8].length) := by decide

theorem witness_RdcontNeverLeavesHalfReadTable : toRead.status.err = false := by decide

/-- The state given to RDCONT is a fresh block that holds WRCONT's container and nothing else. -/
theorem witness_RdcontAfterWrcontRestoresAll :
    toWrite.status.err = false ∧ ∃ t t' : State, exec .wrcont toWrite = .next t ∧ t.status.err = false
      ∧ t'.status.err = false ∧ t'.contLen = t.contLen ∧ (∀ i < t.contLen.toNat, t'.contAt i = t.contAt i)
      ∧ toWrite.payLen.toNat ≤ t'.caps.pay.toNat ∧ t'.contLen.toNat ≤ t'.caps.cont.toNat
      ∧ t'.code.cells = [] ∧ t'.payLen = 0#32 :=
  ⟨rfl, _, withContainer abContainer block, rfl, by decide, by decide, by decide, by decide, by decide, by decide,
    by decide, by decide⟩

/-- A block whose capacities are all 0, with ten bits, the table of T5, and a count of 1. -/
def full : State := { tenBits with caps := ⟨0#32, 0#32, 0#32, 0#32, 0#32⟩, code := ab, osc := 1#32 }

/-- A block with CAP_PAY 0 and the container of T19 (a), whose payload has one byte. -/
def longPayload : State := { toRead with caps := ⟨64#32, 64#32, 0#32, 64#32, 64#32⟩ }

/-- The premises of the first three clauses at once, and those of the fourth. -/
theorem witness_ResultBeyondCapacityRaises :
    (full.status.err = false ∧ full.caps.pay.toNat < ceil8 full.bitsLen.toNat ∧ full.TableValid
      ∧ full.caps.out.toNat < full.osc.toNat
      ∧ full.caps.cont.toNat < 4 + (((List.range 256).filter (fun k => (full.codeAt k).valid)).map
        (fun k => 2 + ceil8 (full.codeAt k).code.bits.length)).sum + 4 + full.payLen.toNat)
    ∧ longPayload.status.err = false ∧ (∀ r ∈ descending, r.2.2.length = ceil8 r.2.1.toNat)
    ∧ descending.Pairwise (fun r q => r.1 ≠ q.1) ∧ (∀ j, ¬ RecordOffends descending j)
    ∧ longPayload.container = be32Bytes descending.length ++ descending.flatMap (fun r => r.1 :: r.2.1 :: r.2.2)
      ++ be32Bytes (2#32 : Word).toNat ++ [0x40#8]
    ∧ longPayload.caps.pay.toNat < [0x40#8].length := by
  refine ⟨⟨rfl, by decide, tableValid_of_listed (by decide) (by decide), by decide, by decide⟩, rfl, by decide,
    by decide, ?_, by decide, by decide⟩
  rintro j ⟨r, hr, -, hoff⟩
  have all : ∀ r ∈ descending, ¬ (r.2.1 = 0#8 ∨ ∃ q ∈ descending, q.1 ≠ r.1
      ∧ (HeaderRecord.bits r <+: HeaderRecord.bits q ∨ HeaderRecord.bits q <+: HeaderRecord.bits r)) := by decide
  exact all r hr hoff

theorem witness_ErrorEffectOfEveryCommand :
    (full.status.err = false ∧ ∃ t, exec .pack full = .next t ∧ t.status.err = true)
    ∧ block.status.err = false ∧ ∃ t, exec .rdcont block = .next t ∧ t.status.err = true :=
  ⟨⟨rfl, _, rfl, by decide⟩, rfl, _, rfl, by decide⟩

theorem witness_CommandsRaiseOnlyTheirKinds :
    full.status.err = false ∧ ∃ t, exec .wrcont full = .next t ∧ t.status.err = true :=
  ⟨rfl, _, rfl, by decide⟩

theorem witness_FrameOfTableCommands :
    ∀ i ∈ [Instr.nop, .freq, .build, .gencode, .clr],
      (i = .nop ∨ i = .freq ∨ i = .build ∨ i = .gencode ∨ i = .clr) ∧ ∃ t, exec i abTree = .next t := by
  intro i hi
  simp only [List.mem_cons, List.not_mem_nil, or_false] at hi
  refine ⟨hi, ?_⟩
  rcases hi with rfl | rfl | rfl | rfl | rfl <;> exact ⟨_, rfl⟩

theorem witness_FrameOfBufferCommands :
    ∀ i ∈ [Instr.pack, .unpack, .encode, .decode, .wrcont, .rdcont],
      (i = .pack ∨ i = .unpack ∨ i = .encode ∨ i = .decode ∨ i = .wrcont ∨ i = .rdcont)
        ∧ ∃ t, exec i toEncode = .next t := by
  intro i hi
  simp only [List.mem_cons, List.not_mem_nil, or_false] at hi
  refine ⟨hi, ?_⟩
  rcases hi with rfl | rfl | rfl | rfl | rfl | rfl <;> exact ⟨_, rfl⟩

/-- The block of T2 before ENCODE, with the write of ENCODE's word pending. -/
def running : State := { toEncode with inputs := [.write (.reg 0 0x06#32)] }

theorem running_buffers : running.BuffersFit := ⟨by decide, by decide, by decide, by decide, by decide⟩

theorem running_memories : running.MemoriesOk :=
  ⟨by decide, by decide, by decide, by decide, by decide, by decide, by decide, by decide⟩

theorem running_draws : running.DrawsOk where
  inp := by decide
  node := by decide
  code := by decide
  bits := by decide
  pay := by decide
  cont := by decide
  out := by decide
  codeCell := by
    intro i d h
    simp only [running, toEncode, abc, tableOf, List.map_cons, List.map_nil, Memory.lookup_cons,
      Memory.lookup_nil] at h
    split at h
    · cases h
    · split at h
      · cases h
      · split at h <;> cases h

theorem witness_StepKeepsBufferBounds : running.BuffersFit ∧ ∃ t, step running = .next t :=
  ⟨running_buffers, _, rfl⟩

theorem witness_StepKeepsTreeInvariant :
    ({ abTree with inputs := [.write (.reg 0 0x02#32)] } : State).TreeOk
    ∧ ∃ t, step { abTree with inputs := [.write (.reg 0 0x02#32)] } = .next t :=
  ⟨.inr (.inr ⟨2, { abTree_full with }⟩), _, rfl⟩

theorem witness_StepKeepsLatchAndIdle :
    running.status.busy = false ∧ running.LatchOk ∧ ∃ t, step running = .next t :=
  ⟨rfl, ⟨rfl, rfl⟩, _, rfl⟩

theorem witness_StepKeepsMemoryForm :
    running.BuffersFit ∧ running.MemoriesOk ∧ running.DrawsOk ∧ ∃ t, step running = .next t :=
  ⟨running_buffers, running_memories, running_draws, _, rfl⟩

theorem witness_StepAlwaysCompletes : running.status.busy = false ∧ running.TreeOk :=
  ⟨rfl, .inl ⟨rfl, rfl⟩⟩

theorem witness_CompressFailsOnlyOnCapacity : (withInput text block).status.err = false := by decide

/-- The block with the container of T7. -/
def fileOfA : State :=
  withContainer [0x00#8, 0x00#8, 0x00#8, 0x01#8, 0x61#8, 0x01#8, 0x00#8, 0x00#8, 0x00#8, 0x00#8, 0x01#8, 0x00#8]
    block

/-- T7: the input "a", compressed, and its container on a fresh block. -/
theorem witness_DecompressFileRestoresInput :
    (withInput [0x61#8] block).status.err = false
    ∧ ∃ t t' : State, execAll Pseudo.compressFile.commands (withInput [0x61#8] block) = .next t
      ∧ t.status.err = false ∧ t'.status.err = false ∧ t'.contLen = t.contLen
      ∧ (∀ i < t.contLen.toNat, t'.contAt i = t.contAt i) ∧ t.payLen.toNat ≤ t'.caps.pay.toNat
      ∧ (withInput [0x61#8] block).inLen.toNat ≤ t'.caps.out.toNat :=
  ⟨rfl, _, fileOfA, rfl, by decide, by decide, by decide, by decide, by decide, by decide⟩

end Sys2Proof.Tests
end

section
/-! SUPPORT. What one step can do, said once as inductive predicates: the normal end of a command, everything `exec` can
answer, everything a host write can do, everything `step` can answer. The invariants and frames below are case analyses
over these. -/

namespace Sys2Proof.Machine

/-! ### The normal end of a command -/

/-- `NormalEnd s i u`: the body of command `i` can end normally on `s` with `u`, and what its tests let through. -/
inductive NormalEnd (s : State) : Instr → State → Prop
  | nop : NormalEnd s .nop s
  | freq : NormalEnd s .freq ((s.storeFreq (frequencyTable s.input)).setEmpty (s.inLen == 0#32))
  | noTree : NormalEnd s .build (s.storeTree [] noRoot)
  | oneLeaf (k : Nat) :
      NormalEnd s .build (s.storeTree [leafNode k (s.freqAt k), unaryRoot (s.freqAt k)] 1#32)
  | merged (hN : 2 ≤ s.present.length) : NormalEnd s .build
      (s.storeTree (mergeLoop s.firstQueue.length s.firstQueue s.leaves)
        (BitVec.ofNat 32 ((mergeLoop s.firstQueue.length s.firstQueue s.leaves).length - 1)))
  | gencode (leaves : List (Byte × Code)) : NormalEnd s .gencode (s.storeCode (codeCells leaves))
  | pack (hfit : ceil8 s.bitsLen.toNat ≤ s.caps.pay.toNat) : NormalEnd s .pack (s.storePay (packBits s.bitString))
  | unpack : NormalEnd s .unpack (s.storeBits (unpackBits s.payload s.bitsLen.toNat))
  | encode (bits : List Bool) (hfit : ceil8 bits.length ≤ s.caps.pay.toNat) :
      NormalEnd s .encode (((s.storePay (packBits bits)).setOsc s.inLen).setEmpty (s.inLen == 0#32))
  | decode (out : List Byte) (hfit : out.length ≤ s.caps.out.toNat) :
      NormalEnd s .decode ((s.storeOut out).setEmpty (s.osc == 0#32))
  | wrcont (hfit : containerLength s.table s.payLen.toNat ≤ s.caps.cont.toNat) :
      NormalEnd s .wrcont (s.storeCont (containerBytes s.table s.osc.toNat s.payload))
  | rdcont (parsed : Parsed) (hparse : parseContainer s.container = .ok parsed)
      (hfit : parsed.payload.length ≤ s.caps.pay.toNat) : NormalEnd s .rdcont
        (((s.storeCode parsed.cells).storePay parsed.payload).setOsc (BitVec.ofNat 32 parsed.osc))

theorem normalEnd_of_runBuild {s u : State} (h : runBuild s = .ok u) : NormalEnd s .build u := by
  unfold runBuild at h
  split at h
  · cases h
    exact .noTree
  · cases h
    exact .oneLeaf _
  · rename_i _ _ _ hp
    cases h
    exact .merged (by simp [hp])

theorem normalEnd_of_runPack {s u : State} (h : runPack s = .ok u) : NormalEnd s .pack u := by
  rcases runPack_cases s with ⟨hfit, hok⟩ | ⟨-, herr⟩
  · cases hok.symm.trans h
    exact .pack hfit
  · cases herr.symm.trans h

theorem normalEnd_of_runUnpack {s u : State} (h : runUnpack s = .ok u) : NormalEnd s .unpack u := by
  rcases runUnpack_cases s with ⟨-, hok⟩ | ⟨-, herr⟩
  · cases hok.symm.trans h
    exact .unpack
  · cases herr.symm.trans h

/-- The bits of a normal end of the loop of ENCODE fit CAP_PAY; those of an empty input are none (R172). -/
theorem ceil8_length_of_encodeLoop {cells : Memory CodeCell} {cap : Nat} {l : List Byte} {bits : List Bool}
    (h : encodeLoop cells cap l 0 [] = .ok bits) : ceil8 bits.length ≤ cap := by
  rcases encodeLoop_cases (cells := cells) (cap := cap) l 0 [] with
    ⟨hok, -, hfit⟩ | ⟨_, _, _, -, -, -, ⟨-, herr⟩ | ⟨-, -, herr⟩⟩
  · cases hok.symm.trans h
    rcases hfit with rfl | hfit
    · simp [ceil8]
    · exact hfit
  · cases herr.symm.trans h
  · cases herr.symm.trans h

theorem normalEnd_of_runEncode {s u : State} (h : runEncode s = .ok u) : NormalEnd s .encode u := by
  rcases runEncode_cases s with ⟨bits, -, hloop, hok⟩ | ⟨_, -, herr⟩ | ⟨_, -, -, herr⟩
  · cases hok.symm.trans h
    exact .encode bits (ceil8_length_of_encodeLoop hloop)
  · cases herr.symm.trans h
  · cases herr.symm.trans h

theorem normalEnd_of_runDecode {s u : State} (h : runDecode s = .ok u) : NormalEnd s .decode u := by
  rcases runDecode_cases s with ⟨out, -, hcap, hlen, -, hok⟩ | ⟨_, -, herr⟩ | ⟨-, -, herr⟩ | ⟨_, -, -, -, -, herr⟩
  · cases hok.symm.trans h
    exact .decode out (hlen ▸ hcap)
  · cases herr.symm.trans h
  · cases herr.symm.trans h
  · cases herr.symm.trans h

theorem normalEnd_of_runWrcont {s u : State} (h : runWrcont s = .ok u) : NormalEnd s .wrcont u := by
  rcases runWrcont_cases s with ⟨-, hfit, hok⟩ | ⟨_, -, herr⟩ | ⟨-, -, herr⟩
  · cases hok.symm.trans h
    exact .wrcont hfit
  · cases herr.symm.trans h
  · cases herr.symm.trans h

theorem normalEnd_of_runRdcont {s u : State} (h : runRdcont s = .ok u) : NormalEnd s .rdcont u := by
  rcases runRdcont_cases s with
    ⟨parsed, hparse, -, hfit, hok⟩ | ⟨_, -, herr⟩ | ⟨_, _, -, -, herr⟩ | ⟨_, -, -, -, herr⟩
  · cases hok.symm.trans h
    exact .rdcont parsed hparse hfit
  · cases herr.symm.trans h
  · cases herr.symm.trans h
  · cases herr.symm.trans h

/-! ### Everything `exec` can answer -/

/-- `ExecResult s i t`: `t` is what command `i` can make of `s`: `s` itself while an error is latched, the cleared state,
the normal end, or the error effect of a command that raises errors (R230, R234, R258, R259). -/
inductive ExecResult (s : State) : Instr → State → Prop
  | latched {i : Instr} (herr : s.status.err = true) (hi : i ≠ .clr) : ExecResult s i s
  | cleared : ExecResult s .clr s.clearDone
  | ended {i : Instr} {u : State} (herr : s.status.err = false) (hend : NormalEnd s.accept i u) :
      ExecResult s i u.finish
  | raised {i : Instr} (r : Raise) (herr : s.status.err = false) (hi : raisable i ≠ []) :
      ExecResult s i (s.accept.raise (some i) r)

/-- A command run in the frame of R230, from what its body can answer. -/
theorem execResult_command {i : Instr} {body : State → Except Raise State} (s : State) (hi : i ≠ .clr)
    (hok : ∀ {u}, body s.accept = .ok u → NormalEnd s.accept i u)
    (hraise : ∀ {r}, body s.accept = .error r → raisable i ≠ []) : ExecResult s i (command i body s) := by
  rcases command_cases i body s with ⟨herr, h⟩ | ⟨herr, u, hb, h⟩ | ⟨herr, r, hb, h⟩
  · rw [h]
    exact .latched herr hi
  · rw [h]
    exact .ended herr (hok hb)
  · rw [h]
    exact .raised r herr (hraise hb)

/-- BUILD raises nothing (R258). -/
theorem runBuild_ne_error (s : State) (r : Raise) : runBuild s ≠ .error r := by
  unfold runBuild
  split <;> exact nofun

theorem execResult_of_exec {s t : State} {i : Instr} (h : exec i s = .next t) : ExecResult s i t := by
  cases i with
  | nop =>
    cases h
    exact execResult_command s nofun (fun hb => by cases hb; exact .nop) nofun
  | freq =>
    cases h
    exact execResult_command s nofun (fun hb => by cases hb; exact .freq) nofun
  | build =>
    cases h
    exact execResult_command s nofun normalEnd_of_runBuild fun hb => absurd hb (runBuild_ne_error _ _)
  | gencode =>
    rcases exec_gencode_cases s with ⟨herr, hx⟩ | ⟨herr, leaves, -, hx⟩ | ⟨-, -, hx⟩
    · cases hx.symm.trans h
      exact .latched herr nofun
    · cases hx.symm.trans h
      exact .ended herr (.gencode leaves)
    · cases hx.symm.trans h
  | pack =>
    cases h
    exact execResult_command s nofun normalEnd_of_runPack fun _ => nofun
  | unpack =>
    cases h
    exact execResult_command s nofun normalEnd_of_runUnpack fun _ => nofun
  | encode =>
    cases h
    exact execResult_command s nofun normalEnd_of_runEncode fun _ => nofun
  | decode =>
    cases h
    exact execResult_command s nofun normalEnd_of_runDecode fun _ => nofun
  | wrcont =>
    cases h
    exact execResult_command s nofun normalEnd_of_runWrcont fun _ => nofun
  | rdcont =>
    cases h
    exact execResult_command s nofun normalEnd_of_runRdcont fun _ => nofun
  | clr =>
    cases h
    exact .cleared

/-! ### Everything a host write can do -/

/-- `HostWritten s t`: `t` is what a host write other than one of CMD can make of `s` (R21, R40, R44, R66). -/
inductive HostWritten (s : State) : State → Prop
  | ignored : HostWritten s s
  | inLen (v : Word) (h : v.toNat ≤ s.caps.inp.toNat) : HostWritten s { s with inLen := v }
  | osc (v : Word) : HostWritten s { s with osc := v }
  | payLen (v : Word) (h : v.toNat ≤ s.caps.pay.toNat) : HostWritten s { s with payLen := v }
  | contLen (v : Word) (h : v.toNat ≤ s.caps.cont.toNat) : HostWritten s { s with contLen := v }
  | bitsLen (v : Word) (h : v.toNat ≤ s.caps.bits.toNat) : HostWritten s { s with bitsLen := v }
  | inp (i : Nat) (v : Byte) (h : i < s.caps.inp.toNat) : HostWritten s { s with inp := s.inp.put i v }
  | freq (i : Nat) (v : Word) (h : i < 256) : HostWritten s { s with freq := Memory.write (some 0#32) s.freq i v }
  | codeValid (i : Nat) (c : Code) (h : i < 256) : HostWritten s
      { s with code :=
        { s.code with cells := Memory.write (some (.invalid s.code.draw)) s.code.cells i (.valid c) } }
  | codeInvalid (i : Nat) (h : i < 256) : HostWritten s
      { s with
        code := { s.code with
          cells := Memory.write (some (.invalid s.code.draw)) s.code.cells i (.invalid s.draws) }
        draws := s.draws + 1 }
  | bits (i : Nat) (v : Bool) (h : i < s.caps.bits.toNat) : HostWritten s { s with bits := s.bits.put i v }
  | pay (i : Nat) (v : Byte) (h : i < s.caps.pay.toNat) : HostWritten s { s with pay := s.pay.put i v }
  | cont (i : Nat) (v : Byte) (h : i < s.caps.cont.toNat) : HostWritten s { s with cont := s.cont.put i v }

theorem hostWritten_writeRegister (s : State) (n : Nat) (v : Word) : HostWritten s (s.writeRegister n v) := by
  rcases s.writeRegister_cases n v with h | ⟨-, hv, h⟩ | ⟨-, h⟩ | ⟨-, hv, h⟩ | ⟨-, hv, h⟩ | ⟨-, hv, h⟩ <;> rw [h]
  · exact .ignored
  · exact .inLen v hv
  · exact .osc v
  · exact .payLen v hv
  · exact .contLen v hv
  · exact .bitsLen v hv

theorem hostWritten_writeCode (s : State) {i : Nat} (hi : i < 256) (v : CodeValue) :
    HostWritten s (s.writeCode i v) := by
  unfold State.writeCode
  split
  · exact .codeValid i v.code hi
  · exact .codeInvalid i hi

/-- A write that takes effect only below the size of its space. -/
theorem hostWritten_ite {s t : State} {sp : SpaceId} {i : Nat} (h : s.inRange sp i = true → HostWritten s t) :
    HostWritten s (if s.inRange sp i then t else s) := by
  split
  · exact h ‹_›
  · exact .ignored

theorem hostWritten_hostWrite (s : State) (v : CellWrite) : HostWritten s (s.hostWrite v) := by
  cases v with
  | reg n v => exact hostWritten_writeRegister s n v
  | inp i v => exact hostWritten_ite fun h => .inp i v (of_decide_eq_true h)
  | freq i v => exact hostWritten_ite fun h => .freq i v (of_decide_eq_true h)
  | node _ _ => exact .ignored
  | code i v => exact hostWritten_ite fun h => hostWritten_writeCode s (of_decide_eq_true h) v
  | bits i v => exact hostWritten_ite fun h => .bits i v (of_decide_eq_true h)
  | pay i v => exact hostWritten_ite fun h => .pay i v (of_decide_eq_true h)
  | cont i v => exact hostWritten_ite fun h => .cont i v (of_decide_eq_true h)
  | out _ _ => exact .ignored

/-! ### Everything `step` can answer -/

/-- `StepResult s t`: `t` is what one step can make of `s`: nothing without an input, the cleared state, an answered read,
or, while no command runs, a command, an illegal word or a host write. -/
inductive StepResult (s : State) : State → Prop
  | held : StepResult s s
  | reset (rest : List Input) : StepResult s (s.setInputs rest).clear
  | read (rest : List Input) (sp : SpaceId) (i : Nat) : StepResult s ((s.setInputs rest).answerRead sp i)
  | command {t : State} {i : Instr} (rest : List Input) (hbusy : s.status.busy = false)
      (h : ExecResult (s.setInputs rest) i t) : StepResult s t
  | illegal (rest : List Input) (hbusy : s.status.busy = false) (w : Word) :
      StepResult s (illegalCommand w (s.setInputs rest))
  | write {t : State} (rest : List Input) (hbusy : s.status.busy = false) (h : HostWritten (s.setInputs rest) t) :
      StepResult s t

theorem stepResult_of_performBusy {s t : State} {a : Input} {rest : List Input}
    (h : performBusy a (s.setInputs rest) = .next t) : StepResult s t := by
  unfold performBusy at h
  split at h
  · cases h
    exact .reset rest
  · cases h
    exact .read rest .reg 1
  · cases h
  · cases h

theorem stepResult_of_performIdle {s t : State} {a : Input} {rest : List Input} (hbusy : s.status.busy = false)
    (h : performIdle a (s.setInputs rest) = .next t) : StepResult s t := by
  rcases performIdle_cases a (s.setInputs rest) with
    ⟨-, hx⟩ | ⟨sp, i, -, hx⟩ | ⟨w, i, -, -, hx⟩ | ⟨w, _, -, -, hx⟩ | ⟨v, -, -, hx⟩
  · cases hx.symm.trans h
    exact .reset rest
  · cases hx.symm.trans h
    exact .read rest sp i
  · exact .command rest hbusy (execResult_of_exec (hx.symm.trans h))
  · cases hx.symm.trans h
    exact .illegal rest hbusy w
  · cases hx.symm.trans h
    exact .write rest hbusy (hostWritten_hostWrite _ v)

theorem stepResult_of_step {s t : State} (h : step s = .next t) : StepResult s t := by
  cases hin : s.inputs with
  | nil =>
    cases (step_idle hin).symm.trans h
    exact .held
  | cons a rest =>
    cases hb : s.status.busy
    · exact stepResult_of_performIdle hb ((step_performIdle hin hb).symm.trans h)
    · exact stepResult_of_performBusy ((step_performBusy hin hb).symm.trans h)

/-! ### An invariant from its cases -/

/-- What has to be shown of `P` for every step to keep it. -/
structure Preserved (P : State → Prop) : Prop where
  setInputs : ∀ {s} rest, P s → P (s.setInputs rest)
  answerRead : ∀ {s} sp i, P s → P (s.answerRead sp i)
  clear : ∀ {s}, P s → P s.clear
  clearDone : ∀ {s}, P s → P s.clearDone
  ended : ∀ {s i u}, s.status.err = false → P s → NormalEnd s.accept i u → P u.finish
  raised : ∀ {s} c r, P s → P (s.accept.raise c r)
  written : ∀ {s t}, P s → HostWritten s t → P t

theorem Preserved.exec {P : State → Prop} (hP : Preserved P) {s t : State} {i : Instr} (hs : P s)
    (h : ExecResult s i t) : P t := by
  cases h with
  | latched herr hi => exact hs
  | cleared => exact hP.clearDone hs
  | ended herr hend => exact hP.ended herr hs hend
  | raised r herr hi => exact hP.raised _ r hs

theorem Preserved.illegalCommand {P : State → Prop} (hP : Preserved P) {s : State} (hs : P s) (w : Word) :
    P (illegalCommand w s) := by
  rcases illegalCommand_cases w s with ⟨-, h⟩ | ⟨-, h⟩ <;> rw [h]
  · exact hs
  · exact hP.raised none _ hs

theorem Preserved.step {P : State → Prop} (hP : Preserved P) {s t : State} (hs : P s) (h : step s = .next t) :
    P t := by
  cases stepResult_of_step h with
  | held => exact hs
  | reset rest => exact hP.clear (hP.setInputs rest hs)
  | read rest sp i => exact hP.answerRead sp i (hP.setInputs rest hs)
  | command rest hbusy hx => exact hP.exec (hP.setInputs rest hs) hx
  | illegal rest hbusy w => exact hP.illegalCommand (hP.setInputs rest hs) w
  | write rest hbusy hw => exact hP.written (hP.setInputs rest hs) hw

end Sys2Proof.Machine
end

section
/-! SUPPORT. The buffer invariant (R49), and what fits a buffer. -/

namespace Sys2Proof.Machine

theorem toNat_ofNat_le {n c : Nat} (h : n ≤ c) : (BitVec.ofNat 32 n).toNat ≤ c :=
  Nat.le_trans (Nat.mod_le n _) h

@[simp] theorem State.length_bitString (s : State) : s.bitString.length = s.bitsLen.toNat := by
  simp [State.bitString]

@[simp] theorem State.length_payload (s : State) : s.payload.length = s.payLen.toNat := by
  simp [State.payload]

/-- The container of R202 is as long as R96 says. -/
theorem length_containerBytes (s : State) :
    (containerBytes s.table s.osc.toNat s.payload).length = containerLength s.table s.payLen.toNat := by
  have hrec : (fun e : Nat × Code => (record e).length) = fun e => 2 + ceil8 e.2.bits.length := by
    funext e
    simp only [record, List.length_cons, length_packBits]
    omega
  simp only [containerBytes, containerLength, List.length_append, length_be32Bytes, List.length_flatMap, hrec,
    State.length_payload]

theorem State.BuffersFit.clear {s : State} : s.clear.BuffersFit :=
  ⟨Nat.zero_le _, Nat.zero_le _, Nat.zero_le _, Nat.zero_le _, Nat.zero_le _⟩

theorem State.BuffersFit.finish {s : State} (h : s.BuffersFit) : s.finish.BuffersFit := { h with }

theorem State.BuffersFit.normalEnd {s u : State} {i : Instr} (h : s.BuffersFit) (hend : NormalEnd s i u) :
    u.BuffersFit := by
  cases hend with
  | pack hfit => exact { h with pay := toNat_ofNat_le (by simpa using hfit) }
  | encode bits hfit => exact { h with pay := toNat_ofNat_le (by simpa using hfit) }
  | decode out hfit => exact { h with out := toNat_ofNat_le hfit }
  | wrcont hfit => exact { h with cont := toNat_ofNat_le (length_containerBytes s ▸ hfit) }
  | rdcont parsed hparse hfit => exact { h with pay := toNat_ofNat_le hfit }
  | _ => exact { h with }

theorem State.BuffersFit.raise {s : State} (h : s.BuffersFit) (c : Option Instr) (r : Raise) :
    (s.raise c r).BuffersFit := by
  rcases c with _ | i
  · exact { h with }
  cases i with
  | pack => exact { h with pay := Nat.zero_le _ }
  | unpack => exact { h with bits := Nat.zero_le _ }
  | encode => exact { h with pay := Nat.zero_le _ }
  | decode => exact { h with out := Nat.zero_le _ }
  | wrcont => exact { h with cont := Nat.zero_le _ }
  | rdcont => exact { h with pay := Nat.zero_le _ }
  | _ => exact { h with }

theorem State.BuffersFit.written {s t : State} (h : s.BuffersFit) (hw : HostWritten s t) : t.BuffersFit := by
  cases hw with
  | inLen v hv => exact { h with inp := hv }
  | payLen v hv => exact { h with pay := hv }
  | contLen v hv => exact { h with cont := hv }
  | bitsLen v hv => exact { h with bits := hv }
  | _ => exact { h with }

theorem preserved_buffersFit : Preserved State.BuffersFit where
  setInputs _ h := { h with }
  answerRead _ _ h := { h with }
  clear _ := .clear
  clearDone _ := .finish .clear
  ended {s} _ _ _ h hend := .finish (.normalEnd (s := s.accept) { h with } hend)
  raised {s} c r h := .raise (s := s.accept) { h with } c r
  written := .written

/-- Settles O51: every operation a step is made of keeps the five lengths at most their capacities. -/
theorem stepKeepsBufferBounds : Obligations.StepKeepsBufferBounds :=
  fun _ _ hs hstep => preserved_buffersFit.step hs hstep

end Sys2Proof.Machine
end

section
/-! SUPPORT. The handshake and the latch (R27 to R29). -/

namespace Sys2Proof.Machine

theorem ErrorKind.number_mem (k : ErrorKind) : 1 ≤ k.number ∧ k.number ≤ 6 := by
  cases k <;> decide

/-- What a normal end leaves of the latch: all of it (R24, R28, R29). -/
theorem NormalEnd.latch {s u : State} {i : Instr} (hend : NormalEnd s i u) :
    u.status.err = s.status.err ∧ u.errcode = s.errcode ∧ u.errinfo = s.errinfo := by
  cases hend <;> exact ⟨rfl, rfl, rfl⟩

/-- BUSY = 0 and the latch as R28 and R29 say. -/
def State.IdleAndLatchOk (s : State) : Prop := s.status.busy = false ∧ s.LatchOk

theorem State.latchOk_of_err_false {s : State} (h : s.status.err = false) :
    s.LatchOk ↔ s.errcode = 0#32 ∧ s.errinfo = 0#32 := by
  simp [State.LatchOk, h]

theorem State.latchOk_of_err_true {s : State} (h : s.status.err = true) :
    s.LatchOk ↔ 1 ≤ s.errcode.toNat ∧ s.errcode.toNat ≤ 6 := by
  simp [State.LatchOk, h]

theorem State.latchOk_raise (s : State) (c : Option Instr) (r : Raise) : (s.raise c r).LatchOk := by
  refine (State.latchOk_of_err_true (by simp)).2 ?_
  have := r.kind.number_mem
  rw [State.raise_errcode, BitVec.toNat_ofNat, Nat.mod_eq_of_lt (by omega)]
  exact this

/-- The latch invariant looks at STATUS, ERRCODE and ERRINFO only. -/
theorem State.IdleAndLatchOk.congr {s t : State} (h : s.IdleAndLatchOk) (hstatus : t.status = s.status)
    (hcode : t.errcode = s.errcode) (hinfo : t.errinfo = s.errinfo) : t.IdleAndLatchOk := by
  simpa only [State.IdleAndLatchOk, State.LatchOk, hstatus, hcode, hinfo] using h

theorem HostWritten.status_latch {s t : State} (hw : HostWritten s t) :
    t.status = s.status ∧ t.errcode = s.errcode ∧ t.errinfo = s.errinfo := by
  cases hw <;> exact ⟨rfl, rfl, rfl⟩

theorem preserved_idleAndLatchOk : Preserved State.IdleAndLatchOk where
  setInputs _ h := h
  answerRead _ _ h := h
  clear _ := ⟨rfl, rfl, rfl⟩
  clearDone _ := ⟨rfl, rfl, rfl⟩
  ended {s i u} herr h hend := by
    obtain ⟨hu, hcode, hinfo⟩ := hend.latch
    refine ⟨rfl, (State.latchOk_of_err_false (hu.trans herr)).2 ?_⟩
    obtain ⟨hc, hi⟩ := (State.latchOk_of_err_false herr).1 h.2
    exact ⟨hcode.trans hc, hinfo.trans hi⟩
  raised {s} c r _ := ⟨by simp, s.accept.latchOk_raise c r⟩
  written h hw := h.congr hw.status_latch.1 hw.status_latch.2.1 hw.status_latch.2.2

/-- Settles O53: a normal end keeps the latch, an error sets ERR and a kind of R250, and both clear BUSY. -/
theorem stepKeepsLatchAndIdle : Obligations.StepKeepsLatchAndIdle :=
  fun _ _ hbusy hlatch hstep => preserved_idleAndLatchOk.step ⟨hbusy, hlatch⟩ hstep

end Sys2Proof.Machine
end

section
/-! SUPPORT. The tree invariant (R50): the arena that BUILD ends with is a tree of shape Full. -/

namespace Sys2Proof.Machine

/-- The tree invariant looks at NODE, NNODES and ROOT only. -/
theorem State.TreeOk.congr {s t : State} (h : s.TreeOk) (hnode : t.node = s.node) (hnnodes : t.nnodes = s.nnodes)
    (hroot : t.root = s.root) : t.TreeOk := by
  have hat : t.nodeAt = s.nodeAt := by
    funext i
    simp only [State.nodeAt, hnode]
  rcases h with h | h | ⟨N, h⟩
  · exact .inl ⟨hnnodes.trans h.nnodes, hroot.trans h.root⟩
  · refine .inr (.inl ⟨hnnodes.trans h.nnodes, hroot.trans h.root, ?_, ?_, ?_, ?_⟩) <;> rw [hat]
    · exact h.leaf
    · exact h.unary
    · exact h.child
    · exact h.freq
  · refine .inr (.inr ⟨N, h.low, h.high, ?_, ?_, ?_, ?_, ?_, ?_⟩) <;>
      simp only [State.IsChild, hat, hnnodes, hroot]
    · exact h.nnodes
    · exact h.root
    · exact h.leaf
    · exact h.ascending
    · exact h.internal
    · exact h.parent

/-- Of two nodes with a common child, the later one was not made of queued nodes (R125). -/
theorem MergedAt.no_earlier_parent {node : Nat → NodeRec} {N n m j : Nat} (h : MergedAt node N n) (hn : n ≤ 512)
    (hm : N ≤ m) (hlt : m < n) (hchild : ChildIn node j n) : ¬ ChildIn node j m := by
  obtain ⟨a, b, hrec, -, ha, hb, -⟩ := h
  have hleft : (node n).left.toNat = a := by
    rw [hrec]
    exact toNat_ofNat9 (by have := ha.1; omega)
  have hright : (node n).right.toNat = b := by
    rw [hrec]
    exact toNat_ofNat9 (by have := hb.1; omega)
  rcases hchild with hj | hj
  · rw [← hj, hleft]
    exact ha.2 m hm hlt
  · rw [← hj, hright]
    exact hb.2 m hm hlt

/-- A merged node as R50 describes an INTERNAL node. -/
theorem MergedAt.internal {node : Nat → NodeRec} {N n : Nat} (h : MergedAt node N n) (hn : n ≤ 512) :
    (node n).kind = .internal ∧ (node n).left.toNat < n ∧ (node n).right.toNat < n
      ∧ (node n).left ≠ (node n).right
      ∧ (node n).freq.toNat
          = (node (node n).left.toNat).freq.toNat + (node (node n).right.toNat).freq.toNat := by
  obtain ⟨a, b, hrec, hfreq, ⟨ha, -⟩, ⟨hb, -⟩, hab, -⟩ := h
  have hleft : (node n).left.toNat = a := by
    rw [hrec]
    exact toNat_ofNat9 (by omega)
  have hright : (node n).right.toNat = b := by
    rw [hrec]
    exact toNat_ofNat9 (by omega)
  rw [hleft, hright]
  refine ⟨by rw [hrec], ha, hb, fun he => hab ?_, hfreq⟩
  rw [← hleft, ← hright, he]

/-- When one key is left, every node but its own has exactly one parent (R125, R50). -/
theorem MergeInv.unique_parent {N : Nat} {k : Key} {arena : List NodeRec} (h : MergeInv N [k] arena) {m : Nat}
    (hm : m < arena.length) (hmk : k.index ≠ m) :
    ∃ n, (N ≤ n ∧ n < arena.length ∧ ChildIn (nodeOf arena) m n)
      ∧ ∀ n', N ≤ n' → n' < arena.length → ChildIn (nodeOf arena) m n' → n' = n := by
  have hlen : arena.length ≤ 512 := by
    have := h.count
    have := h.small
    omega
  have hnot : ¬ QueuedIn (nodeOf arena) N arena.length m := by
    rw [← h.queued]
    simpa using hmk
  simp only [QueuedIn, not_and, not_forall, not_not] at hnot
  obtain ⟨n, hNn, hn, hchild⟩ := hnot hm
  refine ⟨n, ⟨hNn, hn, hchild⟩, fun n' hNn' hn' hchild' => ?_⟩
  rcases Nat.lt_trichotomy n' n with hlt | heq | hgt
  · exact absurd hchild' ((h.merged n hNn hn).no_earlier_parent (by omega) hNn' hlt hchild)
  · exact heq
  · exact absurd hchild ((h.merged n' hNn' hn').no_earlier_parent (by omega) hNn hgt hchild')

/-- What the arena of BUILD is when N >= 2 symbols are present: the leaves, merged down to one key, the last node. -/
theorem State.mergeLoop_firstQueue {s : State} (hN : 2 ≤ s.present.length) :
    ∃ k, MergeInv s.present.length [k] (mergeLoop s.firstQueue.length s.firstQueue s.leaves)
      ∧ (∀ n < s.present.length,
        nodeOf (mergeLoop s.firstQueue.length s.firstQueue s.leaves) n = nodeOf s.leaves n)
      ∧ k.index + 1 = (mergeLoop s.firstQueue.length s.firstQueue s.leaves).length := by
  have hq := s.length_firstQueue
  obtain ⟨k, hinv, hold, hlast⟩ := mergeLoop_spec s.firstQueue.length s.firstQueue s.leaves State.mergeInv_start
    (by omega) (by omega)
  exact ⟨k, hinv, fun n hn => hold n (s.length_leaves.symm ▸ hn), hlast (by omega)⟩

theorem State.nodeAt_storeTree {s : State} {arena : List NodeRec} {root : Word} {n : Nat} (hn : n < arena.length) :
    (s.storeTree arena root).nodeAt n = nodeOf arena n := by
  simp [State.nodeAt, Space.read_filled, nodeOf, hn]

/-- The arena of a merge of N >= 2 leaves down to the last node, its leaves as R121 and R125 have them, is a tree of
shape Full (R50, R126). -/
theorem State.treeFull_storeTree {s : State} {N : Nat} {k : Key} {arena : List NodeRec} (hN : 2 ≤ N)
    (hinv : MergeInv N [k] arena) (hlast : k.index + 1 = arena.length)
    (hleaf : ∀ n < N, (nodeOf arena n).kind = .leaf ∧ 1 ≤ (nodeOf arena n).freq.toNat)
    (hasc : ∀ n < N, ∀ j < n, (nodeOf arena j).sym.toNat < (nodeOf arena n).sym.toNat) :
    (s.storeTree arena (BitVec.ofNat 32 (arena.length - 1))).TreeFull N := by
  have hcount : arena.length = 2 * N - 1 := by
    have := hinv.count
    simp only [List.length_singleton] at this
    omega
  have hsmall := hinv.small
  have hat : ∀ n < 2 * N - 1,
      (s.storeTree arena (BitVec.ofNat 32 (arena.length - 1))).nodeAt n = nodeOf arena n :=
    fun n hn => State.nodeAt_storeTree (by omega)
  refine ⟨hN, by omega, ?_, ?_, ?_, ?_, ?_, ?_⟩
  · rw [State.storeTree_nnodes, BitVec.toNat_ofNat]
    omega
  · rw [State.storeTree_root, BitVec.toNat_ofNat]
    omega
  · intro n hn
    rw [hat n (by omega)]
    exact hleaf n hn
  · intro n hn j hj
    rw [hat n (by omega), hat j (by omega)]
    exact hasc n hn j hj
  · intro n hNn hn
    have hint := (hinv.merged n hNn (by omega)).internal (by omega)
    rw [hat n hn, hat _ (by omega), hat _ (by omega)]
    exact hint
  · intro m hm
    obtain ⟨n, ⟨hNn, hn, hchild⟩, huniq⟩ := hinv.unique_parent (m := m) (by omega) (by omega)
    refine ⟨n, ⟨hNn, by omega, ?_⟩, fun n' hNn' hn' hchild' => huniq n' hNn' (by omega) ?_⟩
    · rw [State.IsChild, hat n (by omega)]
      exact hchild
    · rw [State.IsChild, hat n' hn'] at hchild'
      exact hchild'

/-- A count of a present symbol is positive in its leaf too: 40 bits hold it (R132). -/
theorem one_le_freq_leafNode (k : Nat) {f : Word} (hf : f ≠ 0#32) : 1 ≤ (leafNode k f).freq.toNat := by
  have hne : f.toNat ≠ 0 := fun h => hf (BitVec.eq_of_toNat_eq h)
  simp only [leafNode, BitVec.toNat_setWidth]
  omega

theorem State.treeFull_mergeLoop {s : State} (hN : 2 ≤ s.present.length) :
    (s.storeTree (mergeLoop s.firstQueue.length s.firstQueue s.leaves)
      (BitVec.ofNat 32 ((mergeLoop s.firstQueue.length s.firstQueue s.leaves).length - 1))).TreeFull
        s.present.length := by
  obtain ⟨k, hinv, hold, hlast⟩ := State.mergeLoop_firstQueue hN
  have hmem : ∀ n (hn : n < s.present.length), s.present[n] < 256 ∧ s.freqAt s.present[n] ≠ 0#32 :=
    fun n hn => State.mem_present.1 (List.getElem_mem hn)
  have hleaf : ∀ n (hn : n < s.present.length),
      nodeOf (mergeLoop s.firstQueue.length s.firstQueue s.leaves) n
        = leafNode s.present[n] (s.freqAt s.present[n]) :=
    fun n hn => (hold n hn).trans (State.nodeOf_leaves hn)
  refine State.treeFull_storeTree hN hinv hlast ?_ ?_
  · intro n hn
    rw [hleaf n hn]
    exact ⟨rfl, one_le_freq_leafNode _ (hmem n hn).2⟩
  · intro n hn j hj
    have hasc := List.pairwise_iff_getElem.1 s.present_ascending j n (by omega) hn hj
    have := (hmem n hn).1
    rw [hleaf n hn, hleaf j (by omega)]
    simp only [leafNode, BitVec.toNat_ofNat]
    omega

theorem State.treeSingle_storeTree (s : State) (k : Nat) (f : Word) :
    (s.storeTree [leafNode k f, unaryRoot f] 1#32).TreeSingle :=
  ⟨rfl, rfl, rfl, rfl, rfl, rfl⟩

theorem State.TreeOk.normalEnd {s u : State} {i : Instr} (h : s.TreeOk) (hend : NormalEnd s i u) : u.TreeOk := by
  cases hend with
  | noTree => exact .inl ⟨rfl, rfl⟩
  | oneLeaf k => exact .inr (.inl (s.treeSingle_storeTree k _))
  | merged hN => exact .inr (.inr ⟨_, State.treeFull_mergeLoop hN⟩)
  | _ => exact h.congr rfl rfl rfl

/-- The error effect leaves the tree alone (R259). -/
theorem State.TreeOk.raise {s : State} (h : s.TreeOk) (c : Option Instr) (r : Raise) : (s.raise c r).TreeOk := by
  rcases c with _ | i
  · exact h.congr rfl rfl rfl
  · cases i <;> exact h.congr rfl rfl rfl

theorem HostWritten.tree {s t : State} (hw : HostWritten s t) :
    t.node = s.node ∧ t.nnodes = s.nnodes ∧ t.root = s.root := by
  cases hw <;> exact ⟨rfl, rfl, rfl⟩

theorem preserved_treeOk : Preserved State.TreeOk where
  setInputs _ h := h.congr rfl rfl rfl
  answerRead _ _ h := h.congr rfl rfl rfl
  clear _ := .inl ⟨rfl, rfl⟩
  clearDone _ := .inl ⟨rfl, rfl⟩
  ended {s _ u} _ h hend :=
    (State.TreeOk.normalEnd (h.congr (t := s.accept) rfl rfl rfl) hend).congr (t := u.finish) rfl rfl rfl
  raised {s} c r h := (h.congr (t := s.accept) rfl rfl rfl).raise c r
  written h hw := h.congr hw.tree.1 hw.tree.2.1 hw.tree.2.2

/-- Settles O52: only BUILD and the reset write the tree, BUILD one of the three shapes; NNODES tells them apart. -/
theorem stepKeepsTreeInvariant : Obligations.StepKeepsTreeInvariant := by
  refine ⟨fun _ _ hs hstep => preserved_treeOk.step hs hstep, fun s => ⟨?_, ?_, ?_⟩⟩
  · rintro ⟨he, hs⟩
    exact absurd (he.nnodes.symm.trans hs.nnodes) (by decide)
  · rintro N ⟨he, hf⟩
    have hn := hf.nnodes
    rw [he.nnodes] at hn
    have := hf.low
    simp only [BitVec.toNat_ofNat] at hn
    omega
  · rintro N ⟨hs, hf⟩
    have hn := hf.nnodes
    rw [hs.nnodes] at hn
    simp only [BitVec.toNat_ofNat] at hn
    omega

end Sys2Proof.Machine
end

section
/-! SUPPORT. The form of the model's own data (log entry 2): canonical memories, draws older than the next. -/

namespace Sys2Proof.Machine

/-! ### Tables without an invalid cell -/

/-- A table that lists valid cells only, in canonical form whatever draw its unlisted cells are. -/
def ValidCells (m : Memory CodeCell) : Prop := ∀ d, Memory.wf (some (.invalid d)) 256 m = true

theorem validCells_nil : ValidCells [] := fun _ => rfl

theorem ValidCells.insert {m : Memory CodeCell} (h : ValidCells m) {i : Nat} (hi : i < 256) (c : Code) :
    ValidCells (Memory.insert m i (.valid c)) :=
  fun d => Memory.wf_insert (h d) hi (by simp)

theorem Memory.mem_of_lookup {α : Type} {m : Memory α} {i : Nat} {v : α} (h : Memory.lookup m i = some v) :
    (i, v) ∈ m := by
  induction m with
  | nil => cases h
  | cons e m ih =>
    rw [Memory.lookup_cons] at h
    split at h
    · cases h
      subst_vars
      exact List.mem_cons_self
    · exact List.mem_cons_of_mem _ (ih h)

theorem ValidCells.lookup_ne {m : Memory CodeCell} (h : ValidCells m) (i d : Nat) :
    Memory.lookup m i ≠ some (.invalid d) :=
  fun hl => ((Memory.wf_iff.1 (h d)).2 _ (Memory.mem_of_lookup hl)).2 rfl

/-- The table of GENCODE (R140). -/
theorem validCells_codeCells (leaves : List (Byte × Code)) : ValidCells (codeCells leaves) := by
  unfold codeCells
  refine List.foldlRecOn leaves _ validCells_nil fun m hm e _ => ?_
  exact hm.insert e.1.isLt e.2

/-- The table of RDCONT (R210). -/
theorem validCells_parseRecords {c : List Byte} : ∀ {n p : Nat} {cells cells' : Memory CodeCell} {p' : Nat},
    ValidCells cells → parseRecords c n p cells = .ok (cells', p') → ValidCells cells' := by
  intro n
  induction n with
  | zero =>
    intro p cells cells' p' hv h
    cases h
    exact hv
  | succ n ih =>
    intro p cells cells' p' hv h
    unfold parseRecords at h
    split at h
    · cases h
    · dsimp only at h
      split at h
      · cases h
      · split at h
        · cases h
        · split at h
          · cases h
          · exact ih (hv.insert (c.getD p 0#8).isLt _) h

theorem validCells_parseContainer {c : List Byte} {parsed : Parsed} (h : parseContainer c = .ok parsed) :
    ValidCells parsed.cells := by
  unfold parseContainer at h
  split at h
  · cases h
  · split at h
    · cases h
    · split at h
      · cases h
      · rename_i cells p hrec
        split at h
        · cases h
        · cases h
          exact validCells_parseRecords validCells_nil hrec

/-! ### FREQ and NODE -/

theorem Memory.rising_of_pairwise {α : Type} {m : Memory α} (h : m.Pairwise (fun e f => e.1 < f.1)) :
    Memory.rising m = true := by
  induction h with
  | nil => rfl
  | cons hlt _ ih => exact (Memory.rising_cons _ _).2 ⟨hlt, ih⟩

/-- The Frequency Table lists byte values with a count other than 0 only (R42, R110). -/
theorem wf_frequencyTable (bytes : List Byte) : Memory.wf (some 0#32) 256 (frequencyTable bytes) = true := by
  have hentry : ∀ (k : Nat) (e : Nat × Word),
      (if BitVec.ofNat 32 (occurrences bytes k) = 0#32 then none
        else some (k, BitVec.ofNat 32 (occurrences bytes k))) = some e → e.1 = k ∧ e.2 ≠ 0#32 := by
    intro k e he
    split at he
    · cases he
    · cases he
      exact ⟨rfl, ‹_›⟩
  refine Memory.wf_iff.2 ⟨Memory.rising_of_pairwise ?_, fun e he => ?_⟩
  · refine List.Pairwise.filterMap _ (fun j k hjk e he f hf => ?_) List.pairwise_lt_range
    rw [(hentry j e he).1, (hentry k f hf).1]
    exact hjk
  · obtain ⟨k, hk, hke⟩ := List.mem_filterMap.1 he
    obtain ⟨rfl, hne⟩ := hentry k e hke
    exact ⟨List.mem_range.1 hk, fun h => hne (Option.some.inj h).symm⟩

/-- BUILD's arena fits NODE (R43, R126). -/
theorem length_mergeLoop_le {s : State} (hN : 2 ≤ s.present.length) :
    (mergeLoop s.firstQueue.length s.firstQueue s.leaves).length ≤ 511 := by
  obtain ⟨k, hinv, -⟩ := State.mergeLoop_firstQueue hN
  have hcount := hinv.count
  have := hinv.small
  simp only [List.length_singleton] at hcount
  omega

/-! ### Taking a draw -/

theorem State.DrawsOk.succ {s : State} (h : s.DrawsOk) : { s with draws := s.draws + 1 }.DrawsOk where
  inp := Nat.lt_succ_of_lt h.inp
  node := Nat.lt_succ_of_lt h.node
  code := Nat.lt_succ_of_lt h.code
  bits := Nat.lt_succ_of_lt h.bits
  pay := Nat.lt_succ_of_lt h.pay
  cont := Nat.lt_succ_of_lt h.cont
  out := Nat.lt_succ_of_lt h.out
  codeCell i d hl := Nat.lt_succ_of_lt (h.codeCell i d hl)

theorem State.DrawsOk.storeTree {s : State} (h : s.DrawsOk) (arena : List NodeRec) (root : Word) :
    (s.storeTree arena root).DrawsOk := { h.succ with node := Nat.lt_succ_self _ }

theorem State.DrawsOk.storeBits {s : State} (h : s.DrawsOk) (b : List Bool) : (s.storeBits b).DrawsOk :=
  { h.succ with bits := Nat.lt_succ_self _ }

theorem State.DrawsOk.storePay {s : State} (h : s.DrawsOk) (p : List Byte) : (s.storePay p).DrawsOk :=
  { h.succ with pay := Nat.lt_succ_self _ }

theorem State.DrawsOk.storeCont {s : State} (h : s.DrawsOk) (c : List Byte) : (s.storeCont c).DrawsOk :=
  { h.succ with cont := Nat.lt_succ_self _ }

theorem State.DrawsOk.storeOut {s : State} (h : s.DrawsOk) (o : List Byte) : (s.storeOut o).DrawsOk :=
  { h.succ with out := Nat.lt_succ_self _ }

theorem State.DrawsOk.storeCode {s : State} (h : s.DrawsOk) {m : Memory CodeCell} (hm : ValidCells m) :
    (s.storeCode m).DrawsOk :=
  { h.succ with code := Nat.lt_succ_self _, codeCell := fun i d hl => absurd hl (hm.lookup_ne i d) }

theorem State.DrawsOk.clear {s : State} : s.clear.DrawsOk :=
  ⟨Nat.lt_succ_self _, Nat.lt_succ_self _, Nat.lt_succ_self _, Nat.lt_succ_self _, Nat.lt_succ_self _,
    Nat.lt_succ_self _, Nat.lt_succ_self _, nofun⟩

theorem State.DrawsOk.normalEnd {s u : State} {i : Instr} (h : s.DrawsOk) (hend : NormalEnd s i u) :
    u.DrawsOk := by
  cases hend with
  | nop => exact h
  | freq => exact { h with }
  | noTree => exact h.storeTree _ _
  | oneLeaf k => exact h.storeTree _ _
  | merged hN => exact h.storeTree _ _
  | gencode leaves => exact h.storeCode (validCells_codeCells leaves)
  | pack hfit => exact h.storePay _
  | unpack => exact h.storeBits _
  | encode bits hfit => exact { h.storePay (packBits bits) with }
  | decode out hfit => exact { h.storeOut out with }
  | wrcont hfit => exact h.storeCont _
  | rdcont parsed hparse hfit =>
    exact { (h.storeCode (validCells_parseContainer hparse)).storePay parsed.payload with }

theorem State.DrawsOk.raise {s : State} (h : s.DrawsOk) (c : Option Instr) (r : Raise) : (s.raise c r).DrawsOk := by
  rcases c with _ | i
  · exact { h with }
  cases i with
  | pack => exact { h.storePay [] with }
  | unpack => exact { h.storeBits [] with }
  | encode => exact { h.storePay [] with }
  | decode => exact { h.storeOut [] with }
  | wrcont => exact { h.storeCont [] with }
  | rdcont => exact { (h.storePay []).storeCode validCells_nil with }
  | _ => exact { h with }

/-- What a written memory lists: the value written, or what was listed before. -/
theorem Memory.lookup_write_some {α : Type} [DecidableEq α] {dflt : Option α} {m : Memory α} {i j : Nat} {v x : α}
    (h : Memory.lookup (Memory.write dflt m i v) j = some x) : x = v ∨ Memory.lookup m j = some x := by
  unfold Memory.write at h
  split at h
  · rw [Memory.lookup_erase] at h
    split at h
    · cases h
    · exact .inr h
  · rw [Memory.lookup_insert] at h
    split at h
    · exact .inl (Option.some.inj h).symm
    · exact .inr h

theorem State.DrawsOk.written {s t : State} (h : s.DrawsOk) (hw : HostWritten s t) : t.DrawsOk := by
  cases hw with
  | codeValid i c hi =>
    refine { h with codeCell := fun j d hl => ?_ }
    have hwrite : Memory.lookup (Memory.write (some (.invalid s.code.draw)) s.code.cells i (.valid c)) j
        = some (.invalid d) := hl
    rcases Memory.lookup_write_some hwrite with hx | hl
    · cases hx
    · exact h.codeCell j d hl
  | codeInvalid i hi =>
    refine { h.succ with codeCell := fun j d hl => ?_ }
    rcases Memory.lookup_write_some hl with hx | hl
    · cases hx
      exact Nat.lt_succ_self _
    · exact h.succ.codeCell j d hl
  | _ => exact { h with }

/-! ### Canonical memories -/

theorem State.MemoriesOk.clear {s : State} : s.clear.MemoriesOk := ⟨rfl, rfl, rfl, rfl, rfl, rfl, rfl, rfl⟩

/-- A normal end stores what fits its space; BITS takes BITS_LEN bits, which fit by the buffer invariant (R49). -/
theorem State.MemoriesOk.normalEnd {s u : State} {i : Instr} (hb : s.BuffersFit) (h : s.MemoriesOk)
    (hend : NormalEnd s i u) : u.MemoriesOk := by
  cases hend with
  | nop => exact h
  | freq => exact { h with freq := wf_frequencyTable s.input }
  | noTree => exact { h with node := rfl }
  | oneLeaf k => exact { h with node := Memory.wf_fill _ (by simp) }
  | merged hN => exact { h with node := Memory.wf_fill _ (length_mergeLoop_le hN) }
  | gencode leaves => exact { h with code := validCells_codeCells leaves s.draws }
  | pack hfit => exact { h with pay := Memory.wf_fill _ (by simpa using hfit) }
  | unpack => exact { h with bits := Memory.wf_fill _ (by simpa using hb.bits) }
  | encode bits hfit => exact { h with pay := Memory.wf_fill _ (by simpa using hfit) }
  | decode out hfit => exact { h with out := Memory.wf_fill _ hfit }
  | wrcont hfit => exact { h with cont := Memory.wf_fill _ (length_containerBytes s ▸ hfit) }
  | rdcont parsed hparse hfit =>
    exact { h with code := validCells_parseContainer hparse s.draws, pay := Memory.wf_fill _ hfit }

theorem State.MemoriesOk.raise {s : State} (h : s.MemoriesOk) (c : Option Instr) (r : Raise) :
    (s.raise c r).MemoriesOk := by
  rcases c with _ | i
  · exact { h with }
  cases i with
  | pack => exact { h with pay := rfl }
  | unpack => exact { h with bits := rfl }
  | encode => exact { h with pay := rfl }
  | decode => exact { h with out := rfl }
  | wrcont => exact { h with cont := rfl }
  | rdcont => exact { h with pay := rfl, code := rfl }
  | _ => exact { h with }

theorem State.MemoriesOk.written {s t : State} (h : s.MemoriesOk) (hw : HostWritten s t) : t.MemoriesOk := by
  cases hw with
  | inp i v hi => exact { h with inp := Memory.wf_write h.inp hi v }
  | freq i v hi => exact { h with freq := Memory.wf_write h.freq hi v }
  | codeValid i c hi => exact { h with code := Memory.wf_write h.code hi (.valid c) }
  | codeInvalid i hi => exact { h with code := Memory.wf_write h.code hi (.invalid s.draws) }
  | bits i v hi => exact { h with bits := Memory.wf_write h.bits hi v }
  | pay i v hi => exact { h with pay := Memory.wf_write h.pay hi v }
  | cont i v hi => exact { h with cont := Memory.wf_write h.cont hi v }
  | _ => exact { h with }

/-- The form of the model's data, with the buffer invariant that keeps it. -/
structure State.FormOk (s : State) : Prop where
  buffers : s.BuffersFit
  memories : s.MemoriesOk
  draws : s.DrawsOk

theorem preserved_formOk : Preserved State.FormOk where
  setInputs _ h := ⟨{ h.buffers with }, { h.memories with }, { h.draws with }⟩
  answerRead _ _ h := ⟨{ h.buffers with }, { h.memories with }, { h.draws with }⟩
  clear _ := ⟨.clear, .clear, .clear⟩
  clearDone {s} h := ⟨preserved_buffersFit.clearDone h.buffers, { State.MemoriesOk.clear (s := s) with },
    { State.DrawsOk.clear (s := s) with }⟩
  ended {s _ _} herr h hend := ⟨preserved_buffersFit.ended herr h.buffers hend,
    { State.MemoriesOk.normalEnd (s := s.accept) { h.buffers with } { h.memories with } hend with },
    { State.DrawsOk.normalEnd (s := s.accept) { h.draws with } hend with }⟩
  raised {s} c r h := ⟨preserved_buffersFit.raised c r h.buffers,
    .raise (s := s.accept) { h.memories with } c r, .raise (s := s.accept) { h.draws with } c r⟩
  written h hw := ⟨h.buffers.written hw, h.memories.written hw, h.draws.written hw⟩

/-- Settles O54: what a command or a host write stores fits its space, and its draw is the next one. -/
theorem stepKeepsMemoryForm : Obligations.StepKeepsMemoryForm := by
  intro s t hbuffers hmemories hdraws hstep
  obtain ⟨-, hm, hd⟩ := preserved_formOk.step ⟨hbuffers, hmemories, hdraws⟩ hstep
  exact ⟨hm, hd⟩

end Sys2Proof.Machine
end

section
/-! SUPPORT. The frames of the commands (R54, R259), on normal end and on an error. -/

namespace Sys2Proof.Machine

/-- A normal end, with the handshake around it, changes what the command may change only: STATUS and its destinations. -/
theorem NormalEnd.framed {s u : State} {i : Instr} (hend : NormalEnd s.accept i u) : Framed i s u.finish := by
  cases hend with
  | _ =>
    apply Framed.of_fields (State.register_congr _ _ _ _ _ _ _ _ _ _ _ _ _)
    all_goals simp [mayChange]

/-- The error effect of a command that raises errors changes what the command may change only (R259). -/
theorem State.framed_raise (s : State) {i : Instr} (hi : raisable i ≠ []) (r : Raise) :
    Framed i s (s.accept.raise (some i) r) := by
  cases i with
  | nop | freq | build | gencode | clr => exact absurd rfl hi
  | _ =>
    apply Framed.of_fields (State.register_congr _ _ _ _ _ _ _ _ _ _ _ _ _)
    all_goals simp [mayChange, State.raise, State.spoil]

/-- CLR may change everything but the model's own fields (R234). -/
theorem State.framed_clearDone (s : State) : Framed .clr s s.clearDone :=
  ⟨fun _ _ h => absurd trivial h, rfl, rfl, rfl⟩

theorem ExecResult.framed {s t : State} {i : Instr} (h : ExecResult s i t) : Framed i s t := by
  cases h with
  | latched herr hi => exact .refl i s
  | cleared => exact s.framed_clearDone
  | ended herr hend => exact hend.framed
  | raised r herr hi => exact s.framed_raise hi r

/-! ### EMPTY and the latch -/

/-- FREQ, ENCODE and DECODE are the commands whose normal end writes EMPTY (R26). -/
theorem NormalEnd.empty {s u : State} {i : Instr} (hend : NormalEnd s i u) (hfreq : i ≠ .freq) (hencode : i ≠ .encode)
    (hdecode : i ≠ .decode) : u.status.empty = s.status.empty := by
  cases hend with
  | freq => contradiction
  | encode bits hfit => contradiction
  | decode out hfit => contradiction
  | _ => rfl

/-- EMPTY after a command other than CLR: as before, unless FREQ, ENCODE or DECODE ended normally (R26, R259). -/
theorem ExecResult.empty {s t : State} {i : Instr} (h : ExecResult s i t) (hclr : i ≠ .clr) (hfreq : i ≠ .freq)
    (hor : t.status.err = true ∨ (i ≠ .encode ∧ i ≠ .decode)) : t.status.empty = s.status.empty := by
  cases h with
  | latched herr hi => rfl
  | cleared => contradiction
  | ended herr hend =>
    have hu := hend.latch.1.trans herr
    rcases hor with hor | ⟨hencode, hdecode⟩
    · exact absurd (hu.symm.trans hor) (by decide)
    · exact hend.empty hfreq hencode hdecode
  | raised r herr hi => simp

/-- A latched error makes every command but CLR do nothing (R230). -/
theorem ExecResult.eq_of_latched {s t : State} {i : Instr} (h : ExecResult s i t) (hclr : i ≠ .clr)
    (herr : s.status.err = true) : t = s := by
  cases h with
  | latched _ _ => rfl
  | cleared => contradiction
  | ended herr' _ => exact absurd (herr'.symm.trans herr) (by decide)
  | raised _ herr' _ => exact absurd (herr'.symm.trans herr) (by decide)

/-- A command that raises no error leaves ERR as it is (R258). -/
theorem ExecResult.err {s t : State} {i : Instr} (h : ExecResult s i t) (hclr : i ≠ .clr) (hraise : raisable i = []) :
    t.status.err = s.status.err := by
  cases h with
  | latched _ _ => rfl
  | cleared => contradiction
  | ended _ hend => exact hend.latch.1
  | raised _ _ hi => contradiction

/-- ERRCODE and ERRINFO change only on an error, or by CLR (R28, R29). -/
theorem ExecResult.errcode_errinfo {s t : State} {i : Instr} (h : ExecResult s i t) (hclr : i ≠ .clr)
    (herr : t.status.err = false) : t.errcode = s.errcode ∧ t.errinfo = s.errinfo := by
  cases h with
  | latched _ _ => exact ⟨rfl, rfl⟩
  | cleared => contradiction
  | ended _ hend => exact hend.latch.2
  | raised _ _ _ => simp at herr

/-- Settles O48: these commands raise no error, and of their normal ends only that of FREQ writes EMPTY. -/
theorem frameOfTableCommands : Obligations.FrameOfTableCommands := by
  intro i s t hi hexec
  have h := execResult_of_exec hexec
  have htable : i ≠ .encode ∧ i ≠ .decode ∧ raisable i = [] := by
    rcases hi with rfl | rfl | rfl | rfl | rfl <;> decide
  obtain ⟨hencode, hdecode, hraise⟩ := htable
  exact ⟨h.framed, fun hfreq hclr => h.empty hclr hfreq (.inr ⟨hencode, hdecode⟩),
    fun hclr => ⟨h.err hclr hraise, h.eq_of_latched hclr⟩⟩

/-- Settles O49: a normal end and the error effect write STATUS, the latch and the destinations only; `ExecResult.empty`
and `ExecResult.errcode_errinfo` say which of the two ends writes EMPTY and which the latch. -/
theorem frameOfBufferCommands : Obligations.FrameOfBufferCommands := by
  intro i s t hi hexec
  have h := execResult_of_exec hexec
  have hbuffer : i ≠ .clr ∧ i ≠ .freq := by
    rcases hi with rfl | rfl | rfl | rfl | rfl | rfl <;> decide
  obtain ⟨hclr, hfreq⟩ := hbuffer
  exact ⟨h.framed, h.empty hclr hfreq, h.errcode_errinfo hclr, h.eq_of_latched hclr⟩

end Sys2Proof.Machine
end

section
/-! SUPPORT. One access of the host port, and the reset state (R21, R22, R40, R53, R290). -/

namespace Sys2Proof.Machine

/-- Settles O4: with BUSY = 0 the access is performed as a command write, which runs the decoded command. -/
theorem stepRunsDecodedCommand : Obligations.StepRunsDecodedCommand := by
  intro s w rest i hin hbusy hdecode
  rw [step_performIdle hin hbusy]
  simp [performIdle, commandWrite, hdecode]

theorem performIdle_write {v : CellWrite} (hv : ∀ w, v ≠ .reg 0 w) (s : State) :
    performIdle (.write v) s = .next (s.hostWrite v) := by
  rcases performIdle_cases (.write v) s with
    ⟨h, -⟩ | ⟨_, _, h, -⟩ | ⟨w, _, h, -⟩ | ⟨w, _, h, -⟩ | ⟨v', h, -, hx⟩
  · cases h
  · cases h
  · exact absurd (Input.write.inj h) (hv w)
  · exact absurd (Input.write.inj h) (hv w)
  · rw [hx, Input.write.inj h]

/-- The step of a host write other than one of CMD (R66). -/
theorem step_hostWrite {s : State} {v : CellWrite} {rest : List Input} (hin : s.inputs = .write v :: rest)
    (hbusy : s.status.busy = false) (hv : ∀ w, v ≠ .reg 0 w) :
    step s = .next ((s.setInputs rest).hostWrite v) := by
  rw [step_performIdle hin hbusy, performIdle_write hv]

theorem State.writeRegister_readOnly (s : State) {n : Nat} (hn : n = 1 ∨ n = 2 ∨ n = 3 ∨ n = 8 ∨ 10 ≤ n) (v : Word) :
    s.writeRegister n v = s := by
  rcases s.writeRegister_cases n v with h | ⟨hm, -⟩ | ⟨hm, -⟩ | ⟨hm, -⟩ | ⟨hm, -⟩ | ⟨hm, -⟩
  · exact h
  all_goals omega

/-- Settles O10, each kind of ignored write by the test that ignores it. -/
theorem hostWriteIgnored : Obligations.HostWriteIgnored := by
  intro s v rest hin hbusy hv
  have ignored : (∀ w, v ≠ .reg 0 w) → (s.setInputs rest).hostWrite v = s.setInputs rest →
      step s = .next (s.setInputs rest) := by
    intro hreg hsame
    rw [step_hostWrite hin hbusy hreg, hsame]
  rcases hv with ⟨n, w, rfl, hn⟩ | ⟨w, rfl, h⟩ | ⟨w, rfl, h⟩ | ⟨w, rfl, h⟩ | ⟨w, rfl, h⟩ | ⟨i, r, rfl⟩ | ⟨i, b, rfl⟩
    | ⟨i, b, rfl, h⟩ | ⟨i, w, rfl, h⟩ | ⟨i, e, rfl, h⟩ | ⟨i, b, rfl, h⟩ | ⟨i, b, rfl, h⟩ | ⟨i, b, rfl, h⟩
  · refine ignored ?_ (State.writeRegister_readOnly _ hn w)
    rintro w' heq
    cases heq
    omega
  · exact ignored nofun (if_neg (Nat.not_le.2 h))
  · exact ignored nofun (if_neg (Nat.not_le.2 h))
  · exact ignored nofun (if_neg (Nat.not_le.2 h))
  · exact ignored nofun (if_neg (Nat.not_le.2 h))
  · exact ignored nofun rfl
  · exact ignored nofun rfl
  all_goals exact ignored nofun (if_neg fun hlt => Nat.not_lt.2 h (of_decide_eq_true hlt))

/-- Settles O11, each register by its test of the capacity. -/
theorem hostWriteSetsRegister : Obligations.HostWriteSetsRegister := by
  intro s n w rest hin hbusy
  refine ⟨?_, ?_, ?_, ?_, ?_⟩
  · rintro rfl hcap
    exact (step_hostWrite hin hbusy nofun).trans (congrArg _ (if_pos hcap))
  · rintro rfl
    exact step_hostWrite hin hbusy nofun
  · rintro rfl hcap
    exact (step_hostWrite hin hbusy nofun).trans (congrArg _ (if_pos hcap))
  · rintro rfl hcap
    exact (step_hostWrite hin hbusy nofun).trans (congrArg _ (if_pos hcap))
  · rintro rfl hcap
    exact (step_hostWrite hin hbusy nofun).trans (congrArg _ (if_pos hcap))

/-! ### Reset -/

theorem State.codeAt_valid_of_cells_nil {s : State} (h : s.code.cells = []) (k : Nat) : (s.codeAt k).valid = false := by
  simp [State.codeAt, State.codeCell, h, CodeCell.value]

theorem State.nsym_of_cells_nil {s : State} (h : s.code.cells = []) : s.nsym = 0 := by
  simp [State.nsym, State.codeAt_valid_of_cells_nil h]

/-- The registers of the reset state (R53); NSYM counts no entry (R38). -/
theorem State.register_reset (n : Nat) : State.reset.register n = if n = 11 then 0xFFFFFFFF#32 else 0#32 := by
  unfold State.register
  split
  case h_12 => rw [State.nsym_of_cells_nil rfl, if_neg (by decide)]
  case h_13 => exact (if_neg ‹_›).symm
  all_goals rfl

/-- The reset event gives every register what the reset state has in it (R290). -/
theorem State.register_clear (s : State) (n : Nat) : s.clear.register n = State.reset.register n := by
  unfold State.register
  split
  case h_12 => rw [State.nsym_of_cells_nil rfl, State.nsym_of_cells_nil rfl]
  all_goals rfl

/-- The step of the reset event, whether or not a command runs (R290). -/
theorem step_reset {s : State} {rest : List Input} (hin : s.inputs = .reset :: rest) :
    step s = .next (s.setInputs rest).clear := by
  cases hbusy : s.status.busy
  · exact step_performIdle hin hbusy
  · exact step_performBusy hin hbusy

/-- Settles O13: the reset event clears the state, BUSY or not, and every register reads as in the reset state. -/
theorem resetPutsResetState : Obligations.ResetPutsResetState := by
  refine ⟨State.register_reset, fun k _ => ⟨rfl, State.codeAt_valid_of_cells_nil rfl k⟩, fun s rest hin => ?_⟩
  exact ⟨_, step_reset hin, fun n => (State.register_clear _ n).trans (State.register_reset n),
    fun k _ => ⟨rfl, State.codeAt_valid_of_cells_nil rfl k⟩, rfl, rfl⟩

theorem State.reset_memoriesOk : State.reset.MemoriesOk := by
  obtain ⟨hinp, hfreq, hnode, hcode, hbits, hpay, hcont, hout⟩ := State.reset_memories
  exact ⟨hinp, hfreq, hnode, hcode, hbits, hpay, hcont, hout⟩

/-- Settles O50: the lengths are 0, the tree is Empty, the memories list nothing, and the next draw is 1. -/
theorem resetMeetsInvariant : Obligations.ResetMeetsInvariant where
  idle := rfl
  buffers := ⟨Nat.zero_le _, Nat.zero_le _, Nat.zero_le _, Nat.zero_le _, Nat.zero_le _⟩
  tree := .inl ⟨rfl, rfl⟩
  latch := ⟨rfl, rfl⟩
  memories := State.reset_memoriesOk
  draws := ⟨Nat.one_pos, Nat.one_pos, Nat.one_pos, Nat.one_pos, Nat.one_pos, Nat.one_pos, Nat.one_pos, nofun⟩

end Sys2Proof.Machine
end

section
/-! SUPPORT. What the host reads of a cell and of a register (R21, R23, R38, R40), and that a host write to a cell of a
read-write space sets that cell alone (R66). -/

namespace Sys2Proof.Machine

/-! ### Host reads -/

/-- The accesses still to come are no part of a cell, of a space's size or of a free value. -/
theorem State.hostRead_setInputs (s : State) (rest : List Input) (sp : SpaceId) (i : Nat) :
    (s.setInputs rest).hostRead sp i = s.hostRead sp i := rfl

/-- The step of a host read changes the accesses still to come and the reply (R64, R66). -/
theorem step_hostRead {s : State} {sp : SpaceId} {i : Nat} {rest : List Input} (hin : s.inputs = .read sp i :: rest)
    (hbusy : s.status.busy = false) :
    step s = .next { s with inputs := rest, reply := some (s.hostRead sp i) } := by
  rw [step_performIdle hin hbusy, ← State.hostRead_setInputs s rest]
  rfl

theorem State.hostRead_of_inRange {s : State} {sp : SpaceId} {i : Nat} (h : s.inRange sp i = true) :
    s.hostRead sp i = s.cell sp i := if_pos h

theorem State.hostRead_of_not_inRange {s : State} {sp : SpaceId} {i : Nat} (h : s.inRange sp i = false) :
    s.hostRead sp i = freeValue s.draws sp i := if_neg (by simp [h])

theorem ofCellType_freeValue (draw : Nat) (sp : SpaceId) (i : Nat) : OfCellType sp (freeValue draw sp i) := by
  cases sp <;> trivial

/-- STATUS holds the sum of its four flag bits (R23). -/
theorem Status.toNat_word (f : Status) :
    f.word.toNat = f.busy.toNat + 2 * f.done.toNat + 4 * f.err.toNat + 8 * f.empty.toNat := by
  have := f.busy.toNat_lt
  have := f.done.toNat_lt
  have := f.err.toNat_lt
  have := f.empty.toNat_lt
  rw [Status.word, BitVec.toNat_ofNat]
  exact Nat.mod_eq_of_lt (by omega)

theorem State.nsym_le (s : State) : s.nsym ≤ 256 :=
  (List.length_filter_le _ _).trans_eq List.length_range

/-- NSYM fits its register (R38). -/
theorem State.toNat_register_nsym (s : State) : (s.register 12).toNat = s.nsym :=
  (BitVec.toNat_ofNat _ _).trans (Nat.mod_eq_of_lt (Nat.lt_of_le_of_lt s.nsym_le (by decide)))

/-- CMD and the reserved numbers read 0 (R21, R22). -/
theorem State.register_eq_zero (s : State) {n : Nat} (hn : n = 0 ∨ 13 ≤ n) : s.register n = 0#32 := by
  unfold State.register
  split
  case h_13 => rfl
  all_goals omega

/-- Settles O8: the step of a read records `hostRead`; every register by its number, every space by its definition. -/
theorem hostReadReturnsCell : Obligations.HostReadReturnsCell := by
  intro s sp i rest hin hbusy
  have hstep := step_hostRead hin hbusy
  refine ⟨fun h => ?_, fun h => ⟨_, ofCellType_freeValue s.draws sp i, ?_⟩, ?_, ?_, ?_, ?_, ?_, ?_, ?_, ?_, ?_⟩
  · rw [hstep, State.hostRead_of_inRange h]
  · rw [hstep, State.hostRead_of_not_inRange h]
  · rintro rfl
    refine ⟨rfl, s.register i, rfl, ?_, ?_, ?_, ?_, ?_, ?_, ?_, ?_, ?_, ?_, ?_, ?_, s.register_eq_zero⟩
    · rintro rfl
      exact s.status.toNat_word
    case refine_12 =>
      rintro rfl
      exact s.toNat_register_nsym
    all_goals
      rintro rfl
      rfl
  all_goals
    rintro rfl
    exact ⟨rfl, decide_eq_true_iff⟩

/-! ### Host writes of a cell -/

/-- The value a cell has after a write, an unlisted cell having the value `d`. -/
theorem Memory.getD_lookup_write {α : Type} [DecidableEq α] (d : α) (m : Memory α) (i j : Nat) (v : α) :
    (Memory.lookup (Memory.write (some d) m i v) j).getD d = if j = i then v else (Memory.lookup m j).getD d := by
  have hwrite := congrArg (Option.getD · d) (Memory.lookup_write (some d) m i j v)
  rw [apply_ite (Option.getD · d)] at hwrite
  simpa using hwrite

/-- A host write of a CODE cell writes CODE and the number of the next draw only. -/
theorem State.writeCode_eq (s : State) (i : Nat) (v : CodeValue) :
    ∃ code draws, s.writeCode i v = { s with code := code, draws := draws } := by
  unfold State.writeCode
  split
  · exact ⟨_, s.draws, rfl⟩
  · exact ⟨_, _, rfl⟩

/-- NSYM is the one register that reads CODE (R38). -/
theorem State.register_writeCode (s : State) (i : Nat) (v : CodeValue) {n : Nat} (hn : n ≠ 12) :
    (s.writeCode i v).register n = s.register n := by
  obtain ⟨code, draws, h⟩ := s.writeCode_eq i v
  rw [h]
  unfold State.register
  split
  case h_12 => exact absurd rfl hn
  all_goals rfl

theorem State.cell_writeCode_of_ne (s : State) (i : Nat) (v : CodeValue) {sp : SpaceId} {j : Nat} (hsp : sp ≠ .code)
    (hnsym : ¬ (sp = .reg ∧ j = 12)) : (s.writeCode i v).cell sp j = s.cell sp j := by
  obtain ⟨code, draws, h⟩ := s.writeCode_eq i v
  cases sp
  case code => exact absurd rfl hsp
  case reg => exact congrArg Value.word (s.register_writeCode i v fun hj => hnsym ⟨rfl, hj⟩)
  all_goals
    rw [h]
    rfl

/-- CODE after a host write of the pair (1, c) (R66). -/
theorem State.codeAt_writeCode_valid (s : State) (i j : Nat) (c : Code) :
    (s.writeCode i ⟨true, c⟩).codeAt j = if j = i then ⟨true, c⟩ else s.codeAt j := by
  have hcell : (s.writeCode i ⟨true, c⟩).codeCell j = if j = i then .valid c else s.codeCell j :=
    Memory.getD_lookup_write (CodeCell.invalid s.code.draw) s.code.cells i j (.valid c)
  rw [State.codeAt, hcell, apply_ite (CodeCell.value j)]
  rfl

/-- CODE after a host write of a pair with valid = 0, whose code part is the next draw (R44). -/
theorem State.codeAt_writeCode_invalid (s : State) (i j : Nat) (c : Code) :
    (s.writeCode i ⟨false, c⟩).codeAt j = if j = i then ⟨false, Config.freeCode s.draws i⟩ else s.codeAt j := by
  have hcell : (s.writeCode i ⟨false, c⟩).codeCell j = if j = i then .invalid s.draws else s.codeCell j :=
    Memory.getD_lookup_write (CodeCell.invalid s.code.draw) s.code.cells i j (.invalid s.draws)
  rw [State.codeAt, hcell]
  split
  · subst_vars
    rfl
  · rfl

/-- The space a host write is of. -/
def CellWrite.space : CellWrite → SpaceId
  | .reg _ _ => .reg
  | .inp _ _ => .inp
  | .freq _ _ => .freq
  | .node _ _ => .node
  | .code _ _ => .code
  | .bits _ _ => .bits
  | .pay _ _ => .pay
  | .cont _ _ => .cont
  | .out _ _ => .out

/-- A host write of a cell leaves every other space alone, and every register but NSYM, which is a view of CODE
(R38, R66). -/
theorem State.cell_hostWrite_of_ne (s : State) (v : CellWrite) {sp : SpaceId} {j : Nat} (hreg : v.space ≠ .reg)
    (hsp : sp ≠ v.space) (hnsym : ¬ (v.space = .code ∧ sp = .reg ∧ j = 12)) :
    (s.hostWrite v).cell sp j = s.cell sp j := by
  cases v with
  | reg n w => exact absurd rfl hreg
  | node i r => rfl
  | out i b => rfl
  | code i e =>
    rw [State.hostWrite]
    split
    · exact s.cell_writeCode_of_ne i e hsp fun h => hnsym ⟨rfl, h⟩
    · rfl
  | _ =>
    rw [State.hostWrite]
    split
    · cases sp <;> first | rfl | exact absurd rfl hsp
    · rfl

/-! What the written space reads after a host write below its size (R66). -/

section
variable {s : State} {i : Nat}

theorem State.cell_hostWrite_inp (h : s.inRange .inp i = true) (b : Byte) (j : Nat) :
    (s.hostWrite (.inp i b)).cell .inp j = if j = i then .byte b else s.cell .inp j := by
  rw [State.hostWrite, if_pos h]
  exact (congrArg Value.byte (Space.read_put _ s.inp i j b)).trans (apply_ite ..)

theorem State.cell_hostWrite_freq (h : s.inRange .freq i = true) (w : Word) (j : Nat) :
    (s.hostWrite (.freq i w)).cell .freq j = if j = i then .word w else s.cell .freq j := by
  rw [State.hostWrite, if_pos h]
  exact (congrArg Value.word (Memory.getD_lookup_write _ s.freq i j w)).trans (apply_ite ..)

theorem State.cell_hostWrite_code_valid (h : s.inRange .code i = true) (c : Code) (j : Nat) :
    (s.hostWrite (.code i ⟨true, c⟩)).cell .code j = if j = i then .code ⟨true, c⟩ else s.cell .code j := by
  rw [State.hostWrite, if_pos h]
  exact (congrArg Value.code (s.codeAt_writeCode_valid i j c)).trans (apply_ite ..)

theorem State.cell_hostWrite_code_invalid (h : s.inRange .code i = true) (c : Code) (j : Nat) :
    (s.hostWrite (.code i ⟨false, c⟩)).cell .code j
      = if j = i then .code ⟨false, Config.freeCode s.draws i⟩ else s.cell .code j := by
  rw [State.hostWrite, if_pos h]
  exact (congrArg Value.code (s.codeAt_writeCode_invalid i j c)).trans (apply_ite ..)

theorem State.cell_hostWrite_bits (h : s.inRange .bits i = true) (b : Bool) (j : Nat) :
    (s.hostWrite (.bits i b)).cell .bits j = if j = i then .bit b else s.cell .bits j := by
  rw [State.hostWrite, if_pos h]
  exact (congrArg Value.bit (Space.read_put _ s.bits i j b)).trans (apply_ite ..)

theorem State.cell_hostWrite_pay (h : s.inRange .pay i = true) (b : Byte) (j : Nat) :
    (s.hostWrite (.pay i b)).cell .pay j = if j = i then .byte b else s.cell .pay j := by
  rw [State.hostWrite, if_pos h]
  exact (congrArg Value.byte (Space.read_put _ s.pay i j b)).trans (apply_ite ..)

theorem State.cell_hostWrite_cont (h : s.inRange .cont i = true) (b : Byte) (j : Nat) :
    (s.hostWrite (.cont i b)).cell .cont j = if j = i then .byte b else s.cell .cont j := by
  rw [State.hostWrite, if_pos h]
  exact (congrArg Value.byte (Space.read_put _ s.cont i j b)).trans (apply_ite ..)

end

/-- Settles O9: `cell_hostWrite_of_ne` keeps the other spaces, and what the written space reads, one case for each space,
gives the written cell and keeps the space's other cells. -/
theorem hostWriteSetsThatCellOnly : Obligations.HostWriteSetsThatCellOnly := by
  intro s sp i v x rest hin hbusy hrange hv
  have hrange : (s.setInputs rest).inRange sp i = true := hrange
  suffices h : v.space = sp ∧ sp ≠ .reg ∧ ∀ j, ((s.setInputs rest).hostWrite v).cell sp j
      = if j = i then x else (s.setInputs rest).cell sp j by
    obtain ⟨rfl, hreg, hread⟩ := h
    have keeps := (s.setInputs rest).hostWrite_keeps v
    refine ⟨_, step_hostWrite hin hbusy fun w hw => hreg (congrArg CellWrite.space hw), (hread i).trans (if_pos rfl),
      fun sp' j hne hnsym => ?_, keeps.inputs, keeps.caps, keeps.reply⟩
    by_cases hsp : sp' = v.space
    · subst hsp
      exact (hread j).trans (if_neg fun hj => hne (congrArg _ hj))
    · exact State.cell_hostWrite_of_ne _ v hreg hsp hnsym
  rcases hv with ⟨b, rfl, rfl, rfl⟩ | ⟨w, rfl, rfl, rfl⟩ | ⟨c, rfl, rfl, rfl⟩ | ⟨c, rfl, rfl, rfl⟩ | ⟨b, rfl, rfl, rfl⟩
    | ⟨b, rfl, rfl, rfl⟩ | ⟨b, rfl, rfl, rfl⟩
  · exact ⟨rfl, nofun, State.cell_hostWrite_inp hrange b⟩
  · exact ⟨rfl, nofun, State.cell_hostWrite_freq hrange w⟩
  · exact ⟨rfl, nofun, State.cell_hostWrite_code_valid hrange c⟩
  · exact ⟨rfl, nofun, State.cell_hostWrite_code_invalid hrange c⟩
  · exact ⟨rfl, nofun, State.cell_hostWrite_bits hrange b⟩
  · exact ⟨rfl, nofun, State.cell_hostWrite_pay hrange b⟩
  · exact ⟨rfl, nofun, State.cell_hostWrite_cont hrange b⟩

end Sys2Proof.Machine
end

section
/-! SUPPORT. The decoder of command words is the inverse of the encoder, and the two checks of well-formedness accept
exactly the encoder's words (R80, R81, R82). -/

namespace Sys2Proof

/-! ### Opcodes -/

theorem decodeOpcode_opcode (i : Instr) : decodeOpcode i.opcode = .ok i := by
  cases i <;> rfl

/-- Everything the table lookup can do: a row of R81 selects its command, and what is not a row is rejected. -/
theorem decodeOpcode_cases (op : Byte) :
    (∃ i : Instr, decodeOpcode op = .ok i ∧ op = i.opcode)
    ∨ (decodeOpcode op = .error (.reservedOpcode op) ∧ ¬ (op.toNat ≤ 0x09 ∨ op.toNat = 0x0F)) := by
  unfold decodeOpcode
  split
  case h_12 =>
    refine .inr ⟨rfl, ?_⟩
    simp only [imp_false] at *
    omega
  all_goals exact .inl ⟨_, rfl, BitVec.eq_of_toNat_eq ‹op.toNat = _›⟩

theorem decodeOpcode_eq_ok_iff {op : Byte} {i : Instr} : decodeOpcode op = .ok i ↔ op = i.opcode := by
  refine ⟨fun h => ?_, fun h => h ▸ decodeOpcode_opcode i⟩
  rcases decodeOpcode_cases op with ⟨j, hj, rfl⟩ | ⟨hj, -⟩
  · cases hj.symm.trans h
    rfl
  · cases hj.symm.trans h

/-- The rows of R81's table are the bytes 0x00 to 0x09 and 0x0F. -/
theorem exists_opcode_iff {op : Byte} : (∃ i : Instr, op = i.opcode) ↔ op.toNat ≤ 0x09 ∨ op.toNat = 0x0F := by
  constructor
  · rintro ⟨i, rfl⟩
    cases i <;> decide
  · intro h
    rcases decodeOpcode_cases op with ⟨i, -, hi⟩ | ⟨-, hn⟩
    · exact ⟨i, hi⟩
    · exact absurd h hn

/-! ### Words -/

theorem upperBits_eq_zero_iff {w : Word} : w.extractLsb' 8 24 = 0#24 ↔ w.toNat < 2 ^ 8 := by
  have hw := w.isLt
  rw [← BitVec.toNat_inj, BitVec.extractLsb'_toNat, Nat.shiftRight_eq_div_pow, BitVec.toNat_zero]
  omega

theorem toNat_lowByte (w : Word) : (w.extractLsb' 0 8).toNat = w.toNat % 2 ^ 8 := by
  simp

theorem toNat_encode (i : Instr) : (encode i).toNat = i.opcode.toNat :=
  BitVec.toNat_setWidth_of_le (by decide)

/-- A word is a command's word iff its bits 31:8 are 0 and its low byte is the command's opcode (R80). -/
theorem eq_encode_iff {w : Word} {i : Instr} :
    w = encode i ↔ w.extractLsb' 8 24 = 0#24 ∧ w.extractLsb' 0 8 = i.opcode := by
  have hop := i.opcode.isLt
  rw [upperBits_eq_zero_iff, ← BitVec.toNat_inj, ← BitVec.toNat_inj, toNat_lowByte, toNat_encode]
  omega

theorem decodeWord_eq_ok_iff {w : Word} {i : Instr} : decodeWord w = .ok i ↔ w = encode i := by
  rw [eq_encode_iff, ← decodeOpcode_eq_ok_iff]
  by_cases h : w.extractLsb' 8 24 = 0#24 <;> simp [decodeWord, h]

theorem decodeWord_encode (i : Instr) : decodeWord (encode i) = .ok i :=
  decodeWord_eq_ok_iff.2 rfl

theorem wellFormed_iff {w : Word} :
    CommandWord.wellFormed w = true ↔ w.extractLsb' 8 24 = 0#24 ∧ ∃ i : Instr, w.extractLsb' 0 8 = i.opcode := by
  rw [exists_opcode_iff]
  simp [CommandWord.wellFormed, CommandWord.upperZero, CommandWord.opcodeDefined]

theorem wellFormed_iff_exists_decodeWord {w : Word} :
    CommandWord.wellFormed w = true ↔ ∃ i, decodeWord w = .ok i := by
  simp only [wellFormed_iff, decodeWord_eq_ok_iff, eq_encode_iff, exists_and_left]

/-- The words that R82 calls illegal are those that do not decode. -/
theorem exists_decodeWord_iff_not_illegal {w : Word} :
    (∃ i, decodeWord w = .ok i)
      ↔ ¬ (2 ^ 8 ≤ w.toNat ∨ (0x0A ≤ w.toNat % 256 ∧ w.toNat % 256 ≤ 0x0E) ∨ 0x10 ≤ w.toNat % 256) := by
  rw [← wellFormed_iff_exists_decodeWord, wellFormed_iff, exists_opcode_iff, upperBits_eq_zero_iff, toNat_lowByte]
  omega

/-! ### The statements -/

/-- Settles O2: the encoder's words are R81's, and the decoder and the checks are each characterised by the two fields
of a word. -/
theorem decodeIffEncode : Obligations.DecodeIffEncode :=
  ⟨⟨rfl, rfl, rfl, rfl, rfl, rfl, rfl, rfl, rfl, rfl, rfl⟩, fun _ _ => decodeWord_eq_ok_iff,
    fun _ => wellFormed_iff_exists_decodeWord⟩

/-- Settles O1: each of the eleven words is its command's `encode`; the decoder's tests refuse the other three. -/
theorem commandWordsDecode : Obligations.CommandWordsDecode :=
  ⟨decodeWord_encode .nop, decodeWord_encode .freq, decodeWord_encode .build, decodeWord_encode .gencode,
    decodeWord_encode .pack, decodeWord_encode .unpack, decodeWord_encode .encode, decodeWord_encode .decode,
    decodeWord_encode .wrcont, decodeWord_encode .rdcont, decodeWord_encode .clr, rfl, rfl, rfl⟩

end Sys2Proof

namespace Sys2Proof.Machine

/-- The step of a write to CMD of a word that is no command (R231). -/
theorem step_illegalWord {s : State} {w : Word} {rest : List Input} {e : Reject}
    (hin : s.inputs = .write (.reg 0 w) :: rest) (hbusy : s.status.busy = false) (he : decodeWord w = .error e) :
    step s = .next (illegalCommand w (s.setInputs rest)) := by
  rw [step_performIdle hin hbusy]
  simp [performIdle, commandWrite, he]

/-- The error effect of an illegal word is the latch and the handshake: it has no destination (R259). -/
theorem illegalCommand_eq {s : State} (herr : s.status.err = false) (w : Word) :
    illegalCommand w s = { s with
      status := { busy := false, done := true, err := true, empty := s.status.empty }
      errcode := 6#32
      errinfo := w } := by
  rcases illegalCommand_cases w s with ⟨h, -⟩ | ⟨-, h⟩
  · exact absurd (herr.symm.trans h) nofun
  · rw [h]
    simp [State.raise, State.spoil, State.latch, State.accept, State.finish, ErrorKind.number]

/-- Settles O3: the words of the first clause are those that do not decode, and those of the second decode. -/
theorem illegalWordRaisesIllegalCommand : Obligations.IllegalWordRaisesIllegalCommand := by
  intro s w rest hin hbusy herr
  cases hd : decodeWord w with
  | ok i =>
    refine ⟨fun hill => absurd hill (exists_decodeWord_iff_not_illegal.1 ⟨i, hd⟩), fun _ => ?_⟩
    exact ⟨i, decodeWord_eq_ok_iff.1 hd, stepRunsDecodedCommand s w rest i hin hbusy hd⟩
  | error e =>
    refine ⟨fun _ => ?_, fun hleg => ?_⟩
    · exact (step_illegalWord hin hbusy hd).trans (congrArg _ (illegalCommand_eq (s := s.setInputs rest) herr w))
    · obtain ⟨i, hi⟩ := exists_decodeWord_iff_not_illegal.2 hleg
      exact absurd (hd.symm.trans hi) nofun

end Sys2Proof.Machine
end

section
/-! SUPPORT. The frequency counter (R110, R111): a cell of the Frequency Table, and FREQ's cells as the counts of the
numbers 0..255 among the input's byte values. -/

namespace Sys2Proof.Machine

/-! ### The Frequency Table -/

/-- A read of a memory that lists, for each index of `l` in turn, at most one cell. -/
theorem Memory.lookup_filterMap {α : Type} {f : Nat → Option (Nat × α)} (hindex : ∀ k e, f k = some e → e.1 = k)
    (l : List Nat) (i : Nat) :
    Memory.lookup (l.filterMap f) i = if i ∈ l then (f i).map Prod.snd else none := by
  induction l with
  | nil => rfl
  | cons k l ih =>
    cases hk : f k with
    | none =>
      rw [List.filterMap_cons_none hk, ih]
      by_cases h : i = k <;> simp [h, hk]
    | some e =>
      rw [List.filterMap_cons_some hk, Memory.lookup_cons, ih, hindex k e hk]
      by_cases h : k = i
      · subst h
        simp [hk]
      · simp [h, Ne.symm h]

/-- A cell of the Frequency Table, an unlisted one reading 0 (R42). -/
theorem getD_lookup_frequencyTable (bytes : List Byte) {k : Nat} (hk : k < 256) :
    (Memory.lookup (frequencyTable bytes) k).getD 0#32 = BitVec.ofNat 32 (occurrences bytes k) := by
  unfold frequencyTable
  rw [Memory.lookup_filterMap, if_pos (List.mem_range.2 hk)]
  · by_cases h : BitVec.ofNat 32 (occurrences bytes k) = 0#32 <;> simp [h]
  · intro j e he
    dsimp only at he
    split at he
    · cases he
    · cases he
      rfl

/-! ### Byte values as numbers -/

/-- The occurrences of a byte value are those of its number. -/
theorem occurrences_eq_count_toNat (bytes : List Byte) {k : Nat} (hk : k < 256) :
    occurrences bytes k = (bytes.map BitVec.toNat).count k := by
  have hnum : (BitVec.ofNat 8 k).toNat = k := (BitVec.toNat_ofNat k 8).trans (Nat.mod_eq_of_lt hk)
  have hcount := List.count_map_of_injective bytes BitVec.toNat (fun _ _ => BitVec.eq_of_toNat_eq) (BitVec.ofNat 8 k)
  rw [hnum] at hcount
  exact hcount.symm

theorem toNat_lt_of_mem_map_toNat {bytes : List Byte} {k : Nat} (h : k ∈ bytes.map BitVec.toNat) : k < 256 := by
  obtain ⟨b, -, rfl⟩ := List.mem_map.1 h
  exact b.isLt

/-- Counting each number below a bound of the list counts every member once. -/
theorem sum_count_range {ns : List Nat} {n : Nat} (hlt : ∀ k ∈ ns, k < n) :
    ((List.range n).map (fun k => ns.count k)).sum = ns.length := by
  have hcard := Multiset.sum_count_eq_card (m := (ns : Multiset Nat)) fun k hk => Finset.mem_range.2 (hlt k hk)
  rw [← List.toFinset_range, List.sum_toFinset _ List.nodup_range] at hcard
  simpa only [Multiset.coe_count, Multiset.coe_card] using hcard

/-- The numbers below a bound of the list that occur in it are its distinct members, in another order. -/
theorem length_filter_count_range {ns : List Nat} {n : Nat} (hlt : ∀ k ∈ ns, k < n) :
    ((List.range n).filter (fun k => decide (0 < ns.count k))).length = ns.dedup.length := by
  refine List.Perm.length_eq
    ((List.perm_ext_iff_of_nodup (List.nodup_range.filter _) (List.nodup_dedup _)).2 fun k => ?_)
  rw [List.mem_filter, List.mem_range, decide_eq_true_iff, List.count_pos_iff, List.mem_dedup]
  exact and_iff_right_of_imp (hlt k)

/-! ### The command FREQ -/

@[simp] theorem State.length_input (s : State) : s.input.length = s.inLen.toNat := by
  simp [State.input]

theorem exec_freq_ended {s : State} (herr : s.status.err = false) :
    exec .freq s
      = .next ((s.accept.storeFreq (frequencyTable s.input)).setEmpty (s.inLen == 0#32)).finish :=
  (exec_freq s).trans (congrArg _ (command_ok herr .freq rfl))

/-- A cell of FREQ counts its index among the input's byte values; no count exceeds IN_LEN, so it fits the cell
(R42, R110). -/
theorem toNat_freqAt_exec_freq {s t : State} (herr : s.status.err = false) (hexec : exec .freq s = .next t) {k : Nat}
    (hk : k < 256) : (t.freqAt k).toNat = (s.input.map BitVec.toNat).count k := by
  have hfit : occurrences s.input k < 2 ^ 32 :=
    calc occurrences s.input k ≤ s.input.length := List.count_le_length
      _ = s.inLen.toNat := s.length_input
      _ < 2 ^ 32 := s.inLen.isLt
  cases (exec_freq_ended herr).symm.trans hexec
  calc ((Memory.lookup (frequencyTable s.input) k).getD 0#32).toNat
      = (BitVec.ofNat 32 (occurrences s.input k)).toNat := by rw [getD_lookup_frequencyTable s.input hk]
    _ = occurrences s.input k := (BitVec.toNat_ofNat _ 32).trans (Nat.mod_eq_of_lt hfit)
    _ = (s.input.map BitVec.toNat).count k := occurrences_eq_count_toNat s.input hk

/-- Settles O16: a count among the input's byte values is a number of indexes of IN[0..IN_LEN). -/
theorem freqCountsEveryByteValue : Obligations.FreqCountsEveryByteValue := by
  intro s herr
  refine ⟨_, exec_freq_ended herr, fun k hk => ?_, ?_, NormalEnd.framed .freq⟩
  · rw [toNat_freqAt_exec_freq herr (exec_freq_ended herr) hk, State.input, List.map_map, List.count, List.countP_map,
      List.countP_eq_length_filter]
    rfl
  · simp [Status.ended, herr, beq_eq_decide]

/-- Settles O17: the cells of FREQ are the counts of the numbers 0..255 among the input's byte values. -/
theorem freqCountsSumToLength : Obligations.FreqCountsSumToLength := by
  intro s t herr hexec
  have hcell : ∀ k ∈ List.range 256, (t.freqAt k).toNat = (s.input.map BitVec.toNat).count k :=
    fun k hk => toNat_freqAt_exec_freq herr hexec (List.mem_range.1 hk)
  constructor
  · rw [List.map_congr_left hcell, sum_count_range fun _ => toNat_lt_of_mem_map_toNat, List.length_map,
      State.length_input]
  · rw [List.filter_congr fun k hk => by rw [hcell k hk], length_filter_count_range fun _ => toNat_lt_of_mem_map_toNat,
      List.dedup_map_of_injective fun _ _ => BitVec.eq_of_toNat_eq, List.length_map]

end Sys2Proof.Machine
end

section
/-! SUPPORT. The tree builder (R120 to R127): the present symbols, the arena that BUILD writes for each number of them,
and the state it answers. -/

namespace Sys2Proof.Machine

/-! ### The present symbols (R121) -/

theorem State.present_eq_nil {s : State} (hzero : ∀ k < 256, s.freqAt k = 0#32) : s.present = [] := by
  refine List.eq_nil_iff_forall_not_mem.2 fun k hk => ?_
  obtain ⟨hlt, hne⟩ := State.mem_present.1 hk
  exact hne (hzero k hlt)

theorem State.present_eq_singleton {s : State} {k : Nat} (hk : k < 256) (hne : s.freqAt k ≠ 0#32)
    (hzero : ∀ j < 256, j ≠ k → s.freqAt j = 0#32) : s.present = [k] := by
  have hnodup : s.present.Nodup := s.present_ascending.imp Nat.ne_of_lt
  refine List.perm_singleton.1 ((List.perm_ext_iff_of_nodup hnodup (List.nodup_singleton k)).2 fun j => ?_)
  rw [State.mem_present, List.mem_singleton]
  constructor
  · rintro ⟨hlt, hj⟩
    by_contra hjk
    exact hj (hzero j hlt hjk)
  · rintro rfl
    exact ⟨hk, hne⟩

/-- A count other than 0 is a positive one. -/
theorem State.present_eq_filter_pos (s : State) :
    s.present = (List.range 256).filter (fun k => decide (0 < (s.freqAt k).toNat)) := by
  refine List.filter_congr fun k _ => Bool.eq_iff_iff.2 ?_
  rw [bne_iff_ne, decide_eq_true_iff, Nat.pos_iff_ne_zero, BitVec.toNat_ne]
  rfl

section
variable {s s' : State} (hfreq : ∀ k < 256, s.freqAt k = s'.freqAt k)
include hfreq

theorem State.present_congr : s.present = s'.present :=
  List.filter_congr fun k hk => by rw [hfreq k (List.mem_range.1 hk)]

theorem State.leaves_congr : s.leaves = s'.leaves := by
  rw [State.leaves, State.leaves, ← State.present_congr hfreq]
  exact List.map_congr_left fun k hk => by rw [hfreq k (State.mem_present.1 hk).1]

theorem State.firstQueue_congr : s.firstQueue = s'.firstQueue := by
  rw [State.firstQueue, State.firstQueue, ← State.present_congr hfreq]
  exact List.map_congr_left fun e he => by rw [hfreq e.1 (State.mem_present.1 (List.fst_mem_of_mem_zipIdx he)).1]

end

/-! ### The body of BUILD by the number of present symbols -/

theorem runBuild_of_nil {s : State} (h : s.present = []) : runBuild s = .ok (s.storeTree [] noRoot) := by
  simp [runBuild, h]

theorem runBuild_of_singleton {s : State} {k : Nat} (h : s.present = [k]) :
    runBuild s = .ok (s.storeTree [leafNode k (s.freqAt k), unaryRoot (s.freqAt k)] 1#32) := by
  simp [runBuild, h]

/-- The arena of R125: the leaves, and the nodes that merge them. -/
def State.mergedArena (s : State) : List NodeRec := mergeLoop s.firstQueue.length s.firstQueue s.leaves

theorem runBuild_of_two_le {s : State} (h : 2 ≤ s.present.length) :
    runBuild s = .ok (s.storeTree s.mergedArena (BitVec.ofNat 32 (s.mergedArena.length - 1))) := by
  unfold runBuild
  split
  case h_1 hp => simp [hp] at h
  case h_2 k hp => simp [hp] at h
  case h_3 => rfl

/-! What the arena of R125 holds when N >= 2 symbols are present (R126). -/

section
variable {s : State} (hN : 2 ≤ s.present.length)
include hN

theorem State.length_mergedArena : s.mergedArena.length = 2 * s.present.length - 1 := by
  obtain ⟨k, hinv, -⟩ := State.mergeLoop_firstQueue hN
  exact Nat.eq_sub_of_add_eq hinv.count

theorem State.nodeOf_mergedArena_of_lt {n : Nat} (hn : n < s.present.length) :
    nodeOf s.mergedArena n = leafNode s.present[n] (s.freqAt s.present[n]) := by
  obtain ⟨k, -, hold, -⟩ := State.mergeLoop_firstQueue hN
  exact (hold n hn).trans (State.nodeOf_leaves hn)

theorem State.mergedAt_mergedArena {n : Nat} (hNn : s.present.length ≤ n) (hn : n < 2 * s.present.length - 1) :
    MergedAt (nodeOf s.mergedArena) s.present.length n := by
  obtain ⟨k, hinv, -⟩ := State.mergeLoop_firstQueue hN
  exact hinv.merged n hNn (State.length_mergedArena hN ▸ hn)

end

/-- R127: states with the same FREQ cells get the same arena and the same root. -/
theorem runBuild_congr {s s' : State} (hfreq : ∀ k < 256, s.freqAt k = s'.freqAt k) :
    ∃ arena root, runBuild s = .ok (s.storeTree arena root) ∧ runBuild s' = .ok (s'.storeTree arena root) := by
  have hpresent := State.present_congr hfreq
  match hp : s.present with
  | [] => exact ⟨_, _, runBuild_of_nil hp, runBuild_of_nil (hpresent ▸ hp)⟩
  | [k] =>
    have hk : k < 256 := (State.mem_present.1 (hp ▸ List.mem_singleton_self k)).1
    exact ⟨_, _, runBuild_of_singleton hp, hfreq k hk ▸ runBuild_of_singleton (hpresent ▸ hp)⟩
  | _ :: _ :: _ =>
    have hN : 2 ≤ s.present.length := by simp [hp]
    have harena : s.mergedArena = s'.mergedArena := by
      rw [State.mergedArena, State.mergedArena, State.firstQueue_congr hfreq, State.leaves_congr hfreq]
    exact ⟨_, _, runBuild_of_two_le hN, harena ▸ runBuild_of_two_le (hpresent ▸ hN)⟩

/-! ### The command BUILD -/

/-- The state that BUILD answers, by the arena and the root that its body stores. -/
theorem exec_build_ended {s : State} {arena : List NodeRec} {root : Word} (herr : s.status.err = false)
    (hrun : runBuild s.accept = .ok (s.accept.storeTree arena root)) :
    exec .build s = .next (s.accept.storeTree arena root).finish
      ∧ (s.accept.storeTree arena root).finish.status = Status.ended s.status.empty
      ∧ Framed .build s (s.accept.storeTree arena root).finish :=
  ⟨(exec_build s).trans (congrArg _ (command_ok herr .build hrun)), by simp [Status.ended, herr],
    (normalEnd_of_runBuild hrun).framed⟩

/-- What BUILD leaves in the cells of NODE below NNODES. -/
theorem State.nodeAt_finish_storeTree (s : State) {arena : List NodeRec} (root : Word) {n : Nat}
    (hn : n < arena.length) : (s.storeTree arena root).finish.nodeAt n = nodeOf arena n :=
  State.nodeAt_storeTree (root := root) hn

/-- Settles O18: no symbol is present, so the body stores the empty arena. -/
theorem buildOfNothingGivesNoTree : Obligations.BuildOfNothingGivesNoTree := by
  intro s herr hzero
  obtain ⟨hexec, hstatus, hframe⟩ := exec_build_ended herr (runBuild_of_nil (State.present_eq_nil hzero))
  exact ⟨_, hexec, rfl, rfl, hstatus, hframe⟩

/-- Settles O19: the one present symbol is `k`, so the body stores its leaf and the root above it. -/
theorem buildOfOneSymbolGivesUnaryRoot : Obligations.BuildOfOneSymbolGivesUnaryRoot := by
  intro s k herr hk hne hzero
  obtain ⟨hexec, hstatus, hframe⟩ :=
    exec_build_ended herr (runBuild_of_singleton (State.present_eq_singleton hk hne hzero))
  exact ⟨_, hexec, State.nodeAt_finish_storeTree _ _ Nat.zero_lt_two, State.nodeAt_finish_storeTree _ _ Nat.one_lt_two,
    rfl, rfl, hstatus, hframe⟩

/-- Settles O20: the invariant of the merge loop says of every node it made that it merges the first two of the queue. -/
theorem buildMergesTwoFirstOfQueue : Obligations.BuildMergesTwoFirstOfQueue := by
  intro s S herr hS hN
  obtain rfl : S = s.present := hS.trans s.present_eq_filter_pos.symm
  obtain ⟨hexec, hstatus, hframe⟩ := exec_build_ended herr (runBuild_of_two_le hN)
  have htree := State.treeFull_mergeLoop (s := s.accept) hN
  have hat : ∀ n < 2 * s.present.length - 1,
      (s.accept.storeTree s.mergedArena (BitVec.ofNat 32 (s.mergedArena.length - 1))).finish.nodeAt n
        = nodeOf s.mergedArena n :=
    fun n hn => State.nodeAt_finish_storeTree _ _ ((State.length_mergedArena hN).symm ▸ hn)
  refine ⟨_, hexec, htree.nnodes, htree.root, fun n hn => ?_, fun n hNn hn => ?_, hstatus, hframe⟩
  · rw [List.getD_eq_getElem _ _ hn]
    exact (hat n (by omega)).trans (State.nodeOf_mergedArena_of_lt hN hn)
  · exact (State.mergedAt_mergedArena hN hNn hn).congr fun m hm => hat m (by omega)

/-- Settles O21: accepting a command leaves FREQ alone, so both bodies store one arena and one root. -/
theorem buildDependsOnFreqAlone : Obligations.BuildDependsOnFreqAlone := by
  intro s s' t t' herr herr' hfreq hexec hexec'
  obtain ⟨arena, root, hrun, hrun'⟩ := runBuild_congr (s := s.accept) (s' := s'.accept) hfreq
  cases (exec_build_ended herr hrun).1.symm.trans hexec
  cases (exec_build_ended herr' hrun').1.symm.trans hexec'
  refine ⟨rfl, rfl, fun n hn => ?_⟩
  have hlen : n < arena.length := Nat.lt_of_lt_of_le hn (Nat.mod_le _ _)
  rw [State.nodeAt_finish_storeTree _ _ hlen, State.nodeAt_finish_storeTree _ _ hlen]

end Sys2Proof.Machine
end

section
/-! SUPPORT. Paths in the tree (R50, R143): one node at the end of each path and, in a tree of shape Full, one path from
ROOT to each node. -/

namespace Sys2Proof.Machine

/-- The child of node `i` over the edge labelled `b`: left for 0, right for 1 (R143). -/
def State.child (s : State) (i : Nat) : Bool → Nat
  | false => (s.nodeAt i).left.toNat
  | true => (s.nodeAt i).right.toNat

theorem State.isChild_iff {s : State} {m n : Nat} : s.IsChild m n ↔ ∃ b, s.child n b = m := by
  rw [Bool.exists_bool]
  rfl

theorem State.leadsTo_nil {s : State} {i k : Nat} : s.LeadsTo i [] k ↔ i = k := Iff.rfl

theorem State.leadsTo_cons {s : State} {i k : Nat} {b : Bool} {q : List Bool} :
    s.LeadsTo i (b :: q) k ↔ (s.nodeAt i).kind = .internal ∧ s.LeadsTo (s.child i b) q k := by
  cases b <;> rfl

/-- A path with another behind it passes through the node where the first one ends. -/
theorem State.leadsTo_append {s : State} {p q : List Bool} {i k : Nat} :
    s.LeadsTo i (p ++ q) k ↔ ∃ m, s.LeadsTo i p m ∧ s.LeadsTo m q k := by
  induction p generalizing i with
  | nil => simp [State.leadsTo_nil]
  | cons b p ih => simp [State.leadsTo_cons, ih, and_assoc]

/-- A path and one edge more. -/
theorem State.leadsTo_concat {s : State} {p : List Bool} {b : Bool} {i k : Nat} :
    s.LeadsTo i (p ++ [b]) k ↔ ∃ m, s.LeadsTo i p m ∧ (s.nodeAt m).kind = .internal ∧ s.child m b = k := by
  simp [State.leadsTo_append, State.leadsTo_cons, State.leadsTo_nil]

/-- A path has one end. -/
theorem State.LeadsTo.end_unique {s : State} {p : List Bool} {i k k' : Nat} (h : s.LeadsTo i p k)
    (h' : s.LeadsTo i p k') : k = k' := by
  induction p generalizing i with
  | nil => exact (State.leadsTo_nil.1 h).symm.trans (State.leadsTo_nil.1 h')
  | cons b p ih => exact ih (State.leadsTo_cons.1 h).2 (State.leadsTo_cons.1 h').2

section
variable {s : State} {N : Nat} (h : s.TreeFull N)
include h

/-- Distinct leaves have distinct symbols (R50). -/
theorem State.TreeFull.leaf_unique {k k' : Nat} (hk : k < N) (hk' : k' < N)
    (hsym : (s.nodeAt k).sym = (s.nodeAt k').sym) : k = k' := by
  rcases Nat.lt_trichotomy k k' with hlt | heq | hgt
  · exact absurd (congrArg BitVec.toNat hsym) (Nat.ne_of_lt (h.ascending k' hk' k hlt))
  · exact heq
  · exact absurd (congrArg BitVec.toNat hsym) (Nat.ne_of_gt (h.ascending k hk k' hgt))

/-- The leaves lie below index N. -/
theorem State.TreeFull.le_of_internal {i : Nat} (hi : (s.nodeAt i).kind = .internal) : N ≤ i := by
  by_contra hlt
  cases (h.leaf i (Nat.lt_of_not_le hlt)).1.symm.trans hi

theorem State.TreeFull.child_lt {i : Nat} (hi : i < 2 * N - 1) (hkind : (s.nodeAt i).kind = .internal) (b : Bool) :
    s.child i b < i := by
  obtain ⟨-, hleft, hright, -⟩ := h.internal i (h.le_of_internal hkind) hi
  cases b
  · exact hleft
  · exact hright

theorem State.TreeFull.child_injective {i : Nat} (hi : i < 2 * N - 1) (hkind : (s.nodeAt i).kind = .internal) :
    Function.Injective (s.child i) := by
  obtain ⟨-, -, -, hne, -⟩ := h.internal i (h.le_of_internal hkind) hi
  exact Bool.injective_iff.2 fun heq => hne (BitVec.eq_of_toNat_eq heq)

/-- A path passes through INTERNAL nodes of falling index, so it has at most `i - N + 1` edges. -/
theorem State.TreeFull.length_le {p : List Bool} {i k : Nat} (hi : i < 2 * N - 1) (hp : s.LeadsTo i p k) :
    p.length ≤ i + 1 - N := by
  induction p generalizing i with
  | nil => exact Nat.zero_le _
  | cons b p ih =>
    obtain ⟨hkind, hp⟩ := State.leadsTo_cons.1 hp
    have hge := h.le_of_internal hkind
    have hlt := h.child_lt hi hkind b
    have := ih (by omega) hp
    rw [List.length_cons]
    omega

/-- No path leads on from a leaf. -/
theorem State.TreeFull.eq_of_leaf_leadsTo {q : List Bool} {k m : Nat} (hk : k < N) (hq : s.LeadsTo k q m) : k = m := by
  cases q with
  | nil => exact State.leadsTo_nil.1 hq
  | cons b q => exact absurd (h.le_of_internal (State.leadsTo_cons.1 hq).1) (Nat.not_le_of_lt hk)

/-- A path to a leaf is a prefix of no path to another node. -/
theorem State.TreeFull.eq_of_prefix {p q : List Bool} {i k m : Nat} (hk : k < N) (hp : s.LeadsTo i p k)
    (hq : s.LeadsTo i q m) (hpq : p <+: q) : k = m := by
  obtain ⟨r, rfl⟩ := hpq
  obtain ⟨k', hp', hr⟩ := State.leadsTo_append.1 hq
  obtain rfl := hp.end_unique hp'
  exact h.eq_of_leaf_leadsTo hk hr

/-- Two paths between the same nodes are one path: their last edges leave the one parent of their common end. -/
theorem State.TreeFull.path_unique {p q : List Bool} {i k : Nat} (hi : i < 2 * N - 1) (hp : s.LeadsTo i p k)
    (hq : s.LeadsTo i q k) : p = q := by
  induction p using List.reverseRecOn generalizing q k with
  | nil =>
    have hqle := State.leadsTo_le h q i k hi hq
    rw [State.leadsTo_nil.1 hp] at hqle
    exact (List.length_eq_zero_iff.1 (by omega)).symm
  | append_singleton p b ih =>
    have hple := State.leadsTo_le h _ i k hi hp
    rw [List.length_append, List.length_singleton] at hple
    rcases List.eq_nil_or_concat' q with rfl | ⟨q, c, rfl⟩
    · have := State.leadsTo_nil.1 hq
      omega
    · obtain ⟨m, hpm, hmkind, hmk⟩ := State.leadsTo_concat.1 hp
      obtain ⟨n, hqn, hnkind, hnk⟩ := State.leadsTo_concat.1 hq
      have hmi := State.leadsTo_le h p i m hi hpm
      have hni := State.leadsTo_le h q i n hi hqn
      obtain ⟨parent, -, huniq⟩ := h.parent k (by omega)
      have hm := huniq m (h.le_of_internal hmkind) (by omega) (State.isChild_iff.2 ⟨b, hmk⟩)
      have hn := huniq n (h.le_of_internal hnkind) (by omega) (State.isChild_iff.2 ⟨c, hnk⟩)
      obtain rfl : m = n := hm.trans hn.symm
      rw [ih hpm hqn, h.child_injective (by omega) hmkind (hmk.trans hnk.symm)]

/-- A path leads from ROOT to every node: to its parent, and one edge more. -/
theorem State.TreeFull.exists_path (k : Nat) (hk : k < 2 * N - 1) : ∃ p, s.LeadsTo s.root.toNat p k := by
  by_cases hroot : k = 2 * N - 2
  · exact ⟨[], State.leadsTo_nil.2 (h.root.trans hroot.symm)⟩
  · obtain ⟨n, ⟨hNn, hn, hchild⟩, -⟩ := h.parent k (by omega)
    obtain ⟨b, hb⟩ := State.isChild_iff.1 hchild
    have hkind := (h.internal n hNn hn).1
    have hlt : k < n := hb ▸ h.child_lt hn hkind b
    obtain ⟨p, hp⟩ := State.TreeFull.exists_path n hn
    exact ⟨p ++ [b], State.leadsTo_concat.2 ⟨n, hp, hkind, hb⟩⟩
termination_by 2 * N - 1 - k

theorem State.TreeFull.root_lt : s.root.toNat < 2 * N - 1 := by
  have := h.low
  rw [h.root]
  omega

/-- A leaf lies 1 to N - 1 edges below ROOT (R143). -/
theorem State.TreeFull.leaf_depth {p : List Bool} {k : Nat} (hk : k < N) (hp : s.LeadsTo s.root.toNat p k) :
    1 ≤ p.length ∧ p.length ≤ N - 1 := by
  have hlow := h.low
  have hroot := h.root
  have hlen := h.length_le h.root_lt hp
  cases p with
  | nil =>
    have := State.leadsTo_nil.1 hp
    omega
  | cons b p => exact ⟨Nat.succ_pos _, by omega⟩

end

end Sys2Proof.Machine
end

section
/-! SUPPORT. The code table generator (R140 to R144): the leaves its walk lists for each shape of R50, and the table they
make. -/

namespace Sys2Proof.Machine

/-! ### The leaves of a tree -/

theorem State.walkTree_of_root_none {s : State} (hroot : s.root = noRoot) : s.walkTree = some [] := if_pos hroot

theorem walk_of_leaf {node : Nat → NodeRec} {nodes fuel i : Nat} {path : List Bool} (hi : i < nodes)
    (hkind : (node i).kind = .leaf) (hpath : path.length ≤ 255) :
    walk node nodes (fuel + 1) i path = some [((node i).sym, ⟨path, hpath⟩)] := by
  simp [walk, hi, hkind, hpath]

theorem walk_of_unary {node : Nat → NodeRec} {nodes fuel i : Nat} {path : List Bool} (hi : i < nodes)
    (hkind : (node i).kind = .unary) :
    walk node nodes (fuel + 1) i path = walk node nodes fuel (node i).left.toNat (path ++ [false]) := by
  simp [walk, hi, hkind]

/-- In a tree of shape Single the walk goes over the one edge of its root to the one leaf. -/
theorem State.TreeSingle.walkTree {s : State} (h : s.TreeSingle) :
    s.walkTree = some [((s.nodeAt 0).sym, Code.clip [false])] := by
  rw [State.walkTree, h.root, h.nnodes, if_neg (by decide)]
  calc walk s.nodeAt 2 256 1 []
      = walk s.nodeAt 2 255 (s.nodeAt 1).left.toNat [false] := walk_of_unary Nat.one_lt_two h.unary
    _ = walk s.nodeAt 2 255 0 [false] := by rw [h.child]; rfl
    _ = some [((s.nodeAt 0).sym, Code.clip [false])] := walk_of_leaf Nat.zero_lt_two h.leaf (by decide)

/-- In a tree of shape Full the walk lists the symbols of the leaves with their paths from ROOT (R143). -/
theorem State.TreeFull.walkTree {s : State} {N : Nat} (h : s.TreeFull N) :
    ∃ leaves, s.walkTree = some leaves ∧ ∀ e, e ∈ leaves ↔
      ∃ k < N, e.1 = (s.nodeAt k).sym ∧ s.LeadsTo s.root.toNat e.2.bits k := by
  have hlow := h.low
  have hhigh := h.high
  have hroot := h.root
  have hne : s.root ≠ noRoot := by
    intro heq
    rw [heq] at hroot
    have : noRoot.toNat = 4294967295 := rfl
    omega
  obtain ⟨leaves, hwalk, hmem⟩ :=
    s.walk_full h 256 s.root.toNat [] h.root_lt (by omega) (by omega) (by rw [List.length_nil]; omega)
  refine ⟨leaves, (if_neg hne).trans hwalk, fun e => (hmem e).trans ⟨?_, ?_⟩⟩
  · rintro ⟨k, q, hk, hq, hsym, rfl⟩
    exact ⟨k, hk, hsym, hq⟩
  · rintro ⟨k, hk, hsym, hq⟩
    exact ⟨k, _, hk, hq, hsym, rfl⟩

/-! ### The table of the leaves -/

/-- The state that GENCODE answers, by the leaves that its walk lists. -/
theorem exec_gencode_ended {s : State} {leaves : List (Byte × Code)} (herr : s.status.err = false)
    (hwalk : s.walkTree = some leaves) :
    exec .gencode s = .next (s.accept.storeCode (codeCells leaves)).finish
      ∧ (s.accept.storeCode (codeCells leaves)).finish.status = Status.ended s.status.empty
      ∧ Framed .gencode s (s.accept.storeCode (codeCells leaves)).finish := by
  refine ⟨?_, by simp [Status.ended, herr], (NormalEnd.gencode leaves).framed⟩
  rcases exec_gencode_cases s with ⟨herr', -⟩ | ⟨-, leaves', hwalk', hexec⟩ | ⟨-, hwalk', -⟩
  · cases herr.symm.trans herr'
  · cases hwalk.symm.trans hwalk'
    exact hexec
  · cases hwalk.symm.trans hwalk'

section
variable {leaves : List (Byte × Code)} (hfun : ∀ e ∈ leaves, ∀ f ∈ leaves, e.1 = f.1 → e.2 = f.2)
include hfun

/-- The entries of the table, when no symbol has two codes among the leaves. -/
theorem State.codeAt_storeCode_eq_valid (s : State) {k : Nat} {c : Code} :
    (s.storeCode (codeCells leaves)).finish.codeAt k = ⟨true, c⟩ ↔ ∃ e ∈ leaves, e.1.toNat = k ∧ c = e.2 := by
  rw [State.codeAt_eq_valid, codeIn_eq_some]
  simpa using lookup_codeCells hfun k (.valid c)

/-- A symbol of no leaf has no code. -/
theorem State.codeAt_storeCode_invalid (s : State) {k : Nat} (hk : ∀ e ∈ leaves, e.1.toNat ≠ k) :
    ((s.storeCode (codeCells leaves)).finish.codeAt k).valid = false := by
  refine Bool.eq_false_iff.2 fun hvalid => ?_
  obtain ⟨c, hc⟩ := State.codeAt_valid.1 hvalid
  obtain ⟨e, he, hek, -⟩ := (s.codeAt_storeCode_eq_valid hfun).1 (State.codeAt_eq_valid.2 hc)
  exact hk e he hek

end

/-! ### The command GENCODE -/

/-- Settles O22: without a tree the walk lists no leaf, so the table lists no entry. -/
theorem gencodeOfNoTreeGivesEmptyTable : Obligations.GencodeOfNoTreeGivesEmptyTable := by
  intro s herr hroot
  obtain ⟨hexec, hstatus, hframe⟩ := exec_gencode_ended herr (State.walkTree_of_root_none hroot)
  refine ⟨_, hexec, fun k _ => State.codeAt_valid_of_cells_nil rfl k, ?_, hstatus, hframe⟩
  exact congrArg (BitVec.ofNat 32) (State.nsym_of_cells_nil rfl)

/-- Settles O23: the walk lists the one leaf, one left edge below ROOT. -/
theorem gencodeOfOneSymbolGivesZeroBit : Obligations.GencodeOfOneSymbolGivesZeroBit := by
  intro s herr htree
  obtain ⟨hexec, hstatus, hframe⟩ := exec_gencode_ended herr htree.walkTree
  have hfun : ∀ e ∈ [((s.nodeAt 0).sym, Code.clip [false])], ∀ f ∈ [((s.nodeAt 0).sym, Code.clip [false])],
      e.1 = f.1 → e.2 = f.2 := by simp
  refine ⟨_, hexec, (State.codeAt_storeCode_eq_valid hfun _).2 ⟨_, List.mem_singleton_self _, rfl, rfl⟩,
    fun k _ hk => State.codeAt_storeCode_invalid hfun _ ?_, hstatus, hframe⟩
  simpa using hk.symm

/-- Settles O24: the walk lists every leaf with its one path from ROOT, and no symbol twice. -/
theorem gencodeCodesArePaths : Obligations.GencodeCodesArePaths := by
  intro s N herr htree
  obtain ⟨leaves, hwalk, hmem⟩ := htree.walkTree
  obtain ⟨hexec, hstatus, hframe⟩ := exec_gencode_ended herr hwalk
  have hfun : ∀ e ∈ leaves, ∀ f ∈ leaves, e.1 = f.1 → e.2 = f.2 := by
    intro e he f hf hsym
    obtain ⟨k, hk, hek, hpath⟩ := (hmem e).1 he
    obtain ⟨k', hk', hfk, hpath'⟩ := (hmem f).1 hf
    obtain rfl := htree.leaf_unique hk hk' (hek.symm.trans (hsym.trans hfk))
    exact Code.ext (htree.path_unique htree.root_lt hpath hpath')
  refine ⟨_, hexec, fun k hk => ?_, fun j _ hj => State.codeAt_storeCode_invalid hfun _ fun e he => ?_, hstatus, hframe⟩
  · have hlow := htree.low
    have hhigh := htree.high
    obtain ⟨p, hp⟩ := htree.exists_path k (by omega)
    have hdepth := htree.leaf_depth hk hp
    have hleaf : ((s.nodeAt k).sym, ⟨p, by omega⟩) ∈ leaves := (hmem _).2 ⟨k, hk, rfl, hp⟩
    exact ⟨_, (State.codeAt_storeCode_eq_valid hfun _).2 ⟨_, hleaf, rfl, rfl⟩, hp,
      fun q hq => htree.path_unique htree.root_lt hq hp, hdepth⟩
  · obtain ⟨k, hk, hsym, -⟩ := (hmem e).1 he
    exact hsym ▸ hj k hk

/-! ### The table is valid (R144) -/

theorem State.tableValid_of_no_valid {s : State} (h : ∀ k < 256, (s.codeAt k).valid = false) : s.TableValid :=
  ⟨fun k hk hv => absurd (h k hk) (by simp [hv]), fun j hj _ _ _ hv => absurd (h j hj) (by simp [hv])⟩

/-- A table of one code that is not empty is valid. -/
theorem State.tableValid_of_one_valid {s : State} {sym : Nat} (hcode : 1 ≤ (s.codeAt sym).code.bits.length)
    (hother : ∀ k < 256, k ≠ sym → (s.codeAt k).valid = false) : s.TableValid := by
  have honly : ∀ k < 256, (s.codeAt k).valid = true → k = sym := by
    intro k hk hv
    by_contra hne
    cases hv.symm.trans (hother k hk hne)
  refine ⟨fun k hk hv => honly k hk hv ▸ hcode, fun j hj k hk hjk hvj hvk => ?_⟩
  exact absurd ((honly j hj hvj).trans (honly k hk hvk).symm) hjk

/-- A table is valid when its codes are paths from ROOT to leaves, of at least one edge, and each symbol is that of its
leaf: a path to one leaf is no prefix of a path to another. -/
theorem State.TreeFull.tableValid {s t : State} {N : Nat} (h : s.TreeFull N)
    (hpath : ∀ j < 256, (t.codeAt j).valid = true → ∃ k < N, (s.nodeAt k).sym.toNat = j
      ∧ s.LeadsTo s.root.toNat (t.codeAt j).code.bits k) : t.TableValid := by
  refine ⟨fun j hj hv => ?_, fun j hj j' hj' hne hv hv' hprefix => ?_⟩
  · obtain ⟨k, hk, -, hp⟩ := hpath j hj hv
    exact (h.leaf_depth hk hp).1
  · obtain ⟨k, hk, hsym, hp⟩ := hpath j hj hv
    obtain ⟨k', -, hsym', hp'⟩ := hpath j' hj' hv'
    obtain rfl := h.eq_of_prefix hk hp hp' hprefix
    exact hne (hsym.symm.trans hsym')

/-- Settles O25: the table that GENCODE leaves, for each of the three shapes of R50. -/
theorem gencodeTableIsValid : Obligations.GencodeTableIsValid := by
  rintro s herr (hempty | hsingle | ⟨N, hfull⟩)
  · obtain ⟨t, hexec, hnone, -, hstatus, -⟩ := gencodeOfNoTreeGivesEmptyTable s herr hempty.root
    exact ⟨t, hexec, congrArg Status.err hstatus, State.tableValid_of_no_valid hnone⟩
  · obtain ⟨t, hexec, hcode, hother, hstatus, -⟩ := gencodeOfOneSymbolGivesZeroBit s herr hsingle
    exact ⟨t, hexec, congrArg Status.err hstatus, State.tableValid_of_one_valid (by simp [hcode, Code.clip]) hother⟩
  · obtain ⟨t, hexec, hcodes, hother, hstatus, -⟩ := gencodeCodesArePaths s N herr hfull
    refine ⟨t, hexec, congrArg Status.err hstatus, hfull.tableValid fun j hj hv => ?_⟩
    by_cases hleaf : ∃ k < N, (s.nodeAt k).sym.toNat = j
    · obtain ⟨k, hk, rfl⟩ := hleaf
      obtain ⟨c, hc, hpath, -⟩ := hcodes k hk
      exact ⟨k, hk, rfl, hc.symm ▸ hpath⟩
    · exact absurd (hother j hj fun k hk hsym => hleaf ⟨k, hk, hsym⟩) (by simp [hv])

end Sys2Proof.Machine
end

section
/-! SUPPORT. The bit packer and unpacker (R150 to R156): byte sequences by their bits, the laws of pack and unpack, and the
bits that PACK and UNPACK store. -/

namespace Sys2Proof.Machine

/-! ### Byte sequences by their bits (R61) -/

theorem le_eight_mul_ceil8 (n : Nat) : n ≤ 8 * ceil8 n := by
  unfold ceil8
  omega

/-- A bit of two byte sequences one after the other. -/
theorem bitOf_append (p q : List Byte) (i : Nat) :
    bitOf (p ++ q) i = if i < 8 * p.length then bitOf p i else bitOf q (i - 8 * p.length) := by
  split
  · rw [bitOf, bitOf, List.getD_append _ _ _ _ (by omega)]
  · have hdiv : (i - 8 * p.length) / 8 = i / 8 - p.length := by omega
    have hmod : (i - 8 * p.length) % 8 = i % 8 := by omega
    rw [bitOf, bitOf, List.getD_append_right _ _ _ _ (by omega), hdiv, hmod]

/-- Byte sequences of one length with the same bits are the same. -/
theorem eq_of_bitOf_eq {p q : List Byte} (hlen : p.length = q.length)
    (hbit : ∀ i < 8 * p.length, bitOf p i = bitOf q i) : p = q := by
  refine List.ext_getElem hlen fun j hp hq => BitVec.eq_of_getLsbD_eq fun k hk => ?_
  have h := hbit (8 * j + (7 - k)) (by omega)
  have hdiv : (8 * j + (7 - k)) / 8 = j := by omega
  have hmod : 7 - (8 * j + (7 - k)) % 8 = k := by omega
  rwa [bitOf, bitOf, hdiv, hmod, List.getD_eq_getElem _ _ hp, List.getD_eq_getElem _ _ hq] at h

/-- The bytes of `pack(b)` are the ceil8(|b|) ones whose bits are those of `b` and then zeros (R150). -/
theorem packBits_eq {b : List Bool} {p : List Byte} (hlen : p.length = ceil8 b.length)
    (hbit : ∀ i < 8 * p.length, bitOf p i = b.getD i false) : packBits b = p :=
  (eq_of_bitOf_eq (hlen.trans (length_packBits b).symm) fun i hi =>
    (hbit i hi).trans (bitOf_packBits b (hlen ▸ hi)).symm).symm

/-! ### The laws of pack and unpack (R153) -/

/-- The bits of the packed bytes are the bit-string and its padding. -/
theorem unpackBits_packBits_all (b : List Bool) : unpackBits (packBits b) (8 * ceil8 b.length)
    = b ++ List.replicate (8 * ceil8 b.length - b.length) false := by
  have hle := le_eight_mul_ceil8 b.length
  refine List.ext_getElem (by simp; omega) fun i hi _ => ?_
  rw [length_unpackBits] at hi
  rw [getElem_unpackBits, bitOf_packBits b hi, List.getElem_append]
  split
  · exact List.getD_eq_getElem _ _ ‹_›
  · rw [List.getElem_replicate, List.getD_eq_default _ _ (by omega)]

/-- Fewer bits of a byte sequence are the first of more. -/
theorem take_unpackBits (p : List Byte) {m n : Nat} (h : m ≤ n) : (unpackBits p n).take m = unpackBits p m := by
  rw [unpackBits, ← List.map_take, List.take_range, Nat.min_eq_left h, unpackBits]

theorem unpackBits_packBits (b : List Bool) : unpackBits (packBits b) b.length = b := by
  rw [← take_unpackBits _ (le_eight_mul_ceil8 b.length), unpackBits_packBits_all, List.take_left]

theorem packBits_unpackBits (p : List Byte) : packBits (unpackBits p (8 * p.length)) = p := by
  refine packBits_eq (by rw [length_unpackBits]; unfold ceil8; omega) fun i hi => ?_
  rw [List.getD_eq_getElem _ _ (by simpa using hi), getElem_unpackBits]

/-- The first bit of `c` begins a byte, whose bits are all from `c` or padding. -/
theorem packBits_append {b : List Bool} (c : List Bool) (hb : b.length % 8 = 0) :
    packBits (b ++ c) = packBits b ++ packBits c := by
  have hwhole : 8 * ceil8 b.length = b.length := by unfold ceil8; omega
  have hlen : (packBits b ++ packBits c).length = ceil8 (b ++ c).length := by
    simp only [List.length_append, length_packBits, ceil8]
    omega
  refine packBits_eq hlen fun i hi => ?_
  rw [List.length_append, length_packBits, length_packBits] at hi
  rw [bitOf_append, length_packBits, hwhole]
  split
  · rw [bitOf_packBits b (by omega), List.getD_append _ _ _ _ ‹_›]
  · rw [bitOf_packBits c (by omega), List.getD_append_right _ _ _ _ (by omega)]

theorem packBits_injective_of_length_eq {b c : List Bool} (hlen : b.length = c.length) (h : packBits b = packBits c) :
    b = c :=
  calc b = unpackBits (packBits b) b.length := (unpackBits_packBits b).symm
    _ = unpackBits (packBits c) c.length := by rw [h, hlen]
    _ = c := unpackBits_packBits c

/-- Settles O30: a byte sequence is its bits, and those of `packBits` are the bit-string's and zeros; one bit packed after
another one shares its byte. -/
theorem packAndUnpackLaws : Obligations.PackAndUnpackLaws :=
  ⟨fun b => ⟨length_packBits b, unpackBits_packBits b, unpackBits_packBits_all b⟩, packBits_unpackBits,
    fun _ c => packBits_append c, ⟨[true], [true], by decide⟩, fun _ _ => packBits_injective_of_length_eq,
    by decide, by decide, by decide⟩

/-! ### The bits of BITS and PAY -/

theorem State.getD_bitString (s : State) (i : Nat) :
    s.bitString.getD i false = if i < s.bitsLen.toNat then s.bitAt i else false := by
  split
  · rename_i h
    rw [List.getD_eq_getElem _ _ (by simpa using h)]
    simp [State.bitString]
  · rename_i h
    exact List.getD_eq_default _ _ (by simpa using h)

theorem State.bitOf_payload (s : State) {i : Nat} (h : i < 8 * s.payLen.toNat) :
    bitOf s.payload i = (s.payAt (i / 8)).getLsbD (7 - i % 8) := by
  have hbyte : i / 8 < s.payload.length := by
    rw [State.length_payload]
    omega
  rw [bitOf, List.getD_eq_getElem _ _ hbyte]
  simp [State.payload]

/-- The bytes stored in PAY, by index (R49). -/
theorem State.payAt_storePay (s : State) (p : List Byte) {i : Nat} (h : i < p.length) :
    (s.storePay p).payAt i = p.getD i 0#8 := by
  rw [State.payAt, State.storePay_pay, Space.read_filled, List.getElem?_eq_getElem h, List.getD_eq_getElem _ _ h,
    Option.getD_some]

/-- The bits stored in BITS, by index (R49). -/
theorem State.bitAt_storeBits (s : State) (b : List Bool) {i : Nat} (h : i < b.length) :
    (s.storeBits b).bitAt i = b[i] := by
  rw [State.bitAt, State.storeBits_bits, Space.read_filled, List.getElem?_eq_getElem h, Option.getD_some]

/-! ### The commands PACK and UNPACK -/

theorem exec_pack_ended {s : State} (herr : s.status.err = false) (hfit : ceil8 s.bitsLen.toNat ≤ s.caps.pay.toNat) :
    exec .pack s = .next (s.accept.storePay (packBits s.bitString)).finish := by
  rcases runPack_cases s.accept with ⟨-, hrun⟩ | ⟨hcap, -⟩
  · exact (exec_pack s).trans (congrArg _ (command_ok herr .pack hrun))
  · exact absurd hfit (Nat.not_le_of_lt hcap)

/-- PACK ends normally only when the packed bytes fit PAY (R152). -/
theorem ceil8_bitsLen_le_of_exec_pack {s t : State} (herr : s.status.err = false) (hexec : exec .pack s = .next t)
    (hend : t.status.err = false) : ceil8 s.bitsLen.toNat ≤ s.caps.pay.toNat := by
  rcases runPack_cases s.accept with ⟨hfit, -⟩ | ⟨-, hrun⟩
  · exact hfit
  · rw [exec_pack, command_error herr .pack hrun] at hexec
    cases hexec
    simp at hend

theorem exec_unpack_ended {s : State} (herr : s.status.err = false) (hlen : s.bitsLen.toNat ≤ 8 * s.payLen.toNat) :
    exec .unpack s = .next (s.accept.storeBits (unpackBits s.payload s.bitsLen.toNat)).finish := by
  rcases runUnpack_cases s.accept with ⟨-, hrun⟩ | ⟨hshort, -⟩
  · exact (exec_unpack s).trans (congrArg _ (command_ok herr .unpack hrun))
  · exact absurd hlen (Nat.not_le_of_lt hshort)

theorem exec_unpack_raised {s : State} (herr : s.status.err = false) (hshort : 8 * s.payLen.toNat < s.bitsLen.toNat) :
    exec .unpack s
      = .next (s.accept.raise (some .unpack) { kind := .truncatedPayload, info := s.payLen.toNat }) := by
  rcases runUnpack_cases s.accept with ⟨hlen, -⟩ | ⟨-, hrun⟩
  · exact absurd hshort (Nat.not_lt_of_le hlen)
  · exact (exec_unpack s).trans (congrArg _ (command_error herr .unpack hrun))

/-- Settles O26: the bytes stored are the packed bit-string, which BITS_LEN bits of BITS begin and zeros end. -/
theorem packPlacesBitsMsbFirst : Obligations.PackPlacesBitsMsbFirst := by
  intro s herr hfit
  have hlen : (packBits s.bitString).length = ceil8 s.bitsLen.toNat := by simp
  have hword : ceil8 s.bitsLen.toNat < 2 ^ 32 := Nat.lt_of_le_of_lt hfit s.caps.pay.isLt
  refine ⟨_, exec_pack_ended herr hfit, ?_, fun i hi => ?_, by simp [Status.ended, herr],
    (NormalEnd.pack (s := s.accept) hfit).framed⟩
  · calc (BitVec.ofNat 32 (packBits s.bitString).length).toNat
        = (packBits s.bitString).length := (BitVec.toNat_ofNat _ 32).trans (Nat.mod_eq_of_lt (hlen ▸ hword))
      _ = ceil8 s.bitsLen.toNat := hlen
  · have hbyte : (s.accept.storePay (packBits s.bitString)).finish.payAt (i / 8)
        = (packBits s.bitString).getD (i / 8) 0#8 :=
      State.payAt_storePay _ _ (by omega)
    rw [hbyte, ← bitOf, bitOf_packBits _ (by simpa using hi), State.getD_bitString]

/-- Settles O27: the bits stored are the first BITS_LEN of the payload's. -/
theorem unpackReadsBitsMsbFirst : Obligations.UnpackReadsBitsMsbFirst := by
  intro s herr hlen
  refine ⟨_, exec_unpack_ended herr hlen, rfl, fun i hi => ?_, by simp [Status.ended, herr], NormalEnd.unpack.framed,
    rfl, rfl⟩
  calc (s.accept.storeBits (unpackBits s.payload s.bitsLen.toNat)).finish.bitAt i
      = (unpackBits s.payload s.bitsLen.toNat)[i]'(by simpa using hi) := State.bitAt_storeBits _ _ _
    _ = bitOf s.payload i := getElem_unpackBits _ _
    _ = (s.payAt (i / 8)).getLsbD (7 - i % 8) := s.bitOf_payload (by omega)

/-- Settles O28: the body answers the error, and the error effect of UNPACK zeroes BITS_LEN (R259). -/
theorem unpackOfShortPayloadRaises : Obligations.UnpackOfShortPayloadRaises :=
  fun s herr hshort => ⟨_, exec_unpack_raised herr hshort, ⟨by simp, rfl, rfl⟩, rfl, s.framed_raise (by decide) _⟩

/-- Settles O29: the packed bytes hold at least BITS_LEN bits, and UNPACK reads each where PACK put it. -/
theorem unpackAfterPackRestoresBits : Obligations.UnpackAfterPackRestoresBits := by
  intro s t t' herr hexec hend herr' hbitsLen hpayLen hpay
  have hfit := ceil8_bitsLen_le_of_exec_pack herr hexec hend
  obtain ⟨_, hpack, hlen, hbit, -, -⟩ := packPlacesBitsMsbFirst s herr hfit
  cases hpack.symm.trans hexec
  have hsame : t'.bitsLen = s.bitsLen := by
    cases (exec_pack_ended herr hfit).symm.trans hexec
    exact hbitsLen
  have hle := le_eight_mul_ceil8 s.bitsLen.toNat
  obtain ⟨u, hunpack, hu, hread, hstatus, -⟩ :=
    unpackReadsBitsMsbFirst t' herr' (by rw [hsame, hpayLen, hlen]; exact hle)
  refine ⟨u, hunpack, congrArg Status.err hstatus, hu.trans hsame, fun i hi => ?_⟩
  rw [hread i (hsame ▸ hi), hpay (i / 8) (by omega), hbit i (by omega), if_pos hi]

end Sys2Proof.Machine
end

section
/-! SUPPORT. The Code Table's validity (R170): the smallest offender that the table check finds, in the terms of CODE and of
header records, and the InvalidCode that the four checking commands raise. -/

namespace Sys2Proof.Machine

/-! ### The check of a table in ascending order -/

theorem offender_eq_none {table : List (Nat × Code)} :
    offender table = none ↔ ∀ e ∈ table, offends table e = false := by
  simp [offender, List.find?_eq_none]

/-- In an ascending table the first member that offends has the smallest symbol. -/
theorem offender_eq_some {table : List (Nat × Code)} (hasc : table.Pairwise (fun e f => e.1 < f.1)) {k : Nat} :
    offender table = some k
      ↔ (∃ e ∈ table, e.1 = k ∧ offends table e = true) ∧ ∀ e ∈ table, e.1 < k → offends table e = false := by
  rw [offender, Option.map_eq_some_iff]
  constructor
  · rintro ⟨e, hfind, rfl⟩
    obtain ⟨he, front, back, heq, hfront⟩ := List.find?_eq_some_iff_append.1 hfind
    refine ⟨⟨e, List.mem_of_find?_eq_some hfind, rfl, he⟩, fun f hf hlt => ?_⟩
    have hback : ∀ b ∈ back, e.1 < b.1 := (List.pairwise_cons.1 (List.pairwise_append.1 (heq ▸ hasc)).2.1).1
    rw [heq, List.mem_append, List.mem_cons] at hf
    rcases hf with hf | rfl | hf
    · simpa using hfront f hf
    · exact absurd hlt (Nat.lt_irrefl _)
    · exact absurd (hback f hf) (Nat.lt_asymm hlt)
  · rintro ⟨⟨e, he, rfl, hoff⟩, hsmaller⟩
    obtain ⟨front, back, heq⟩ := List.append_of_mem he
    have hfront : ∀ f ∈ front, f.1 < e.1 := fun f hf =>
      (List.pairwise_append.1 (heq ▸ hasc)).2.2 f hf e List.mem_cons_self
    refine ⟨e, List.find?_eq_some_iff_append.2 ⟨hoff, front, back, heq, fun f hf => ?_⟩, rfl⟩
    rw [hsmaller f (heq ▸ List.mem_append_left _ hf) (hfront f hf)]
    rfl

/-! The check in terms of a predicate `P` on symbols that says which of them offend. -/

section
variable {m : Memory CodeCell} {P : Nat → Prop}
  (hP : ∀ k, P k ↔ ∃ e ∈ validEntries m, e.1 = k ∧ offends (validEntries m) e = true)
include hP

theorem offender_validEntries_eq_none : offender (validEntries m) = none ↔ ∀ k, ¬ P k := by
  rw [offender_eq_none]
  constructor
  · intro h k hk
    obtain ⟨e, he, -, hoff⟩ := (hP k).1 hk
    cases hoff.symm.trans (h e he)
  · exact fun h e he => Bool.eq_false_iff.2 fun hoff => h e.1 ((hP e.1).2 ⟨e, he, rfl, hoff⟩)

theorem offender_validEntries_eq_some {k : Nat} : offender (validEntries m) = some k ↔ P k ∧ ∀ j < k, ¬ P j := by
  rw [offender_eq_some (validEntries_ascending m), ← hP]
  refine and_congr_right fun _ => ⟨fun h j hj hPj => ?_, fun h e he hlt => ?_⟩
  · obtain ⟨e, he, rfl, hoff⟩ := (hP j).1 hPj
    cases hoff.symm.trans (h e he hj)
  · exact Bool.eq_false_iff.2 fun hoff => h e.1 hlt ((hP e.1).2 ⟨e, he, rfl, hoff⟩)

end

/-! ### The check of CODE -/

theorem State.mem_table {s : State} {e : Nat × Code} : e ∈ s.table ↔ e.1 < 256 ∧ s.codeAt e.1 = ⟨true, e.2⟩ := by
  rw [State.table, mem_validEntries, State.codeAt_eq_valid]

theorem State.code_of_mem_table {s : State} {e : Nat × Code} (he : e ∈ s.table) : (s.codeAt e.1).code = e.2 := by
  rw [(State.mem_table.1 he).2]

theorem State.mem_table_of_valid {s : State} {k : Nat} (hk : k < 256) (hv : (s.codeAt k).valid = true) :
    (k, (s.codeAt k).code) ∈ s.table :=
  State.mem_table.2 ⟨hk, congrArg (CodeValue.mk · _) hv⟩

/-- A member of the table offends iff its code is empty or in a prefix relation with another member's (R170). -/
theorem offends_iff {table : List (Nat × Code)} {e : Nat × Code} : offends table e = true
    ↔ e.2.bits.length = 0 ∨ ∃ f ∈ table, f.1 ≠ e.1 ∧ (e.2.bits <+: f.2.bits ∨ f.2.bits <+: e.2.bits) := by
  simp [offends, isPrefix]

theorem State.offending_iff {s : State} {k : Nat} :
    s.Offending k ↔ ∃ e ∈ s.table, e.1 = k ∧ offends s.table e = true := by
  constructor
  · rintro ⟨hk, hv, h⟩
    refine ⟨_, State.mem_table_of_valid hk hv, rfl, offends_iff.2 (h.imp_right ?_)⟩
    rintro ⟨j, hj, hne, hvj, hprefix⟩
    exact ⟨_, State.mem_table_of_valid hj hvj, hne, hprefix⟩
  · rintro ⟨e, he, rfl, hoff⟩
    obtain ⟨hk, hcode⟩ := State.mem_table.1 he
    refine ⟨hk, by rw [hcode], ?_⟩
    rw [State.code_of_mem_table he]
    refine (offends_iff.1 hoff).imp_right ?_
    rintro ⟨f, hf, hne, hprefix⟩
    obtain ⟨hj, hcode'⟩ := State.mem_table.1 hf
    refine ⟨f.1, hj, hne, by rw [hcode'], ?_⟩
    rwa [State.code_of_mem_table hf]

/-- (V1) and (V2) say that no symbol offends. -/
theorem State.tableValid_iff {s : State} : s.TableValid ↔ ∀ k, ¬ s.Offending k := by
  constructor
  · rintro ⟨hlength, hprefix⟩ k ⟨hk, hv, hempty | ⟨j, hj, hne, hvj, hkj | hjk⟩⟩
    · exact Nat.ne_of_gt (hlength k hk hv) hempty
    · exact hprefix k hk j hj hne.symm hv hvj hkj
    · exact hprefix j hj k hk hne hvj hv hjk
  · refine fun h => ⟨fun k hk hv => ?_, fun j hj k hk hne hvj hvk hjk => ?_⟩
    · exact Nat.pos_of_ne_zero fun hempty => h k ⟨hk, hv, .inl hempty⟩
    · exact h j ⟨hj, hvj, .inr ⟨k, hk, hne.symm, hvk, .inl hjk⟩⟩

theorem State.offender_table_eq_none {s : State} : offender s.table = none ↔ s.TableValid :=
  (offender_validEntries_eq_none fun _ => State.offending_iff).trans State.tableValid_iff.symm

theorem State.offender_table_eq_some {s : State} {k : Nat} : offender s.table = some k ↔ s.OffenderIs k :=
  offender_validEntries_eq_some fun _ => State.offending_iff

/-- Settles O31: the table lists the valid entries in ascending order, so the first that offends is the smallest. -/
theorem tableCheckFindsSmallestOffender : Obligations.TableCheckFindsSmallestOffender :=
  fun _ => ⟨State.offender_table_eq_none, fun _ => State.offender_table_eq_some⟩

/-! ### The check as the commands make it -/

theorem checkTable_eq_ok {table : List (Nat × Code)} : checkTable table = .ok () ↔ offender table = none := by
  cases h : offender table <;> simp [checkTable, h]

theorem checkTable_eq_error {table : List (Nat × Code)} {k : Nat} (h : offender table = some k) :
    checkTable table = .error { kind := .invalidCode, info := k } := by
  simp [checkTable, h]

theorem State.checkTable_table_eq_ok {s : State} : checkTable s.table = .ok () ↔ s.TableValid :=
  checkTable_eq_ok.trans State.offender_table_eq_none

/-! The body of each checking command raises what the check of its table answers. -/

theorem runEncode_of_checkTable_error {s : State} {r : Raise} (h : checkTable s.table = .error r) :
    runEncode s = .error r := by
  simp [runEncode, h]

theorem runDecode_of_checkTable_error {s : State} {r : Raise} (h : checkTable s.table = .error r) :
    runDecode s = .error r := by
  simp [runDecode, h]

theorem runWrcont_of_checkTable_error {s : State} {r : Raise} (h : checkTable s.table = .error r) :
    runWrcont s = .error r := by
  simp [runWrcont, h]

theorem runRdcont_of_checkTable_error {s : State} {parsed : Parsed} {r : Raise}
    (hparse : parseContainer s.container = .ok parsed) (h : checkTable (validEntries parsed.cells) = .error r) :
    runRdcont s = .error r := by
  simp [runRdcont, hparse, h]

theorem exec_of_checkTable_error {s : State} {i : Instr} {r : Raise} (hi : i = .encode ∨ i = .decode ∨ i = .wrcont)
    (herr : s.status.err = false) (h : checkTable s.table = .error r) :
    exec i s = .next (s.accept.raise (some i) r) := by
  rcases hi with rfl | rfl | rfl
  · exact (exec_encode s).trans (congrArg _ (command_error herr _ (runEncode_of_checkTable_error h)))
  · exact (exec_decode s).trans (congrArg _ (command_error herr _ (runDecode_of_checkTable_error h)))
  · exact (exec_wrcont s).trans (congrArg _ (command_error herr _ (runWrcont_of_checkTable_error h)))

/-! ### What the error effect leaves (R259) -/

/-- The latch and the handshake after an error of a command. -/
theorem State.raised_raise (s : State) (i : Instr) (kind : ErrorKind) (info : Nat) :
    Raised s (s.accept.raise (some i) { kind := kind, info := info }) kind info :=
  ⟨by simp, rfl, rfl⟩

/-- The length and count registers of a command's destinations are 0 after its error. -/
theorem State.register_raise_of_mem_zeroedOnError (s : State) {i : Instr} {n : Nat} (r : Raise)
    (hn : n ∈ zeroedOnError i) : (s.raise (some i) r).register n = 0#32 := by
  cases i with
  | nop | freq | build | gencode | clr => cases hn
  | pack | unpack | decode | wrcont =>
    obtain rfl := List.mem_singleton.1 hn
    rfl
  | encode | rdcont =>
    obtain rfl | rfl := List.mem_pair.1 hn <;> rfl

/-- The table that records of distinct symbols make has the offenders of the records. -/
theorem recordOffends_iff {records : List HeaderRecord} (hdist : records.Pairwise (fun r q => r.1 ≠ q.1)) {k : Nat} :
    RecordOffends records k ↔ ∃ e ∈ validEntries (recordCells records []),
      e.1 = k ∧ offends (validEntries (recordCells records [])) e = true := by
  constructor
  · intro h
    obtain ⟨r, hr, rfl, -⟩ := id h
    have he := (mem_validEntries_recordCells hdist (e := (r.1.toNat, Code.clip r.bits))).2 ⟨r, hr, rfl, rfl⟩
    exact ⟨_, he, rfl, (offends_recordCells hdist he).2 h⟩
  · rintro ⟨e, he, rfl, hoff⟩
    exact (offends_recordCells hdist he).1 hoff

/-- Settles O32: every checking command raises the offender of its table, and the table of a container has the offenders of
its records. -/
theorem invalidTableRaisesInvalidCode : Obligations.InvalidTableRaisesInvalidCode := by
  constructor
  · intro s i k hi herr hk
    have hcheck := checkTable_eq_error (State.offender_table_eq_some.2 hk)
    have hraises : raisable i ≠ [] := by rcases hi with rfl | rfl | rfl <;> decide
    exact ⟨_, exec_of_checkTable_error hi herr hcheck, s.raised_raise i _ _, s.framed_raise hraises _,
      fun n hn => s.accept.register_raise_of_mem_zeroedOnError _ hn⟩
  · intro s records osc payload k herr hlen hdist hcontainer hk hsmallest
    have hparse := parseContainer_complete (c := s.accept.container) hlen hdist hcontainer
    have hcheck := checkTable_eq_error
      ((offender_validEntries_eq_some fun _ => recordOffends_iff hdist).2 ⟨hk, hsmallest⟩)
    exact ⟨_, (exec_rdcont s).trans (congrArg _ (command_error herr _ (runRdcont_of_checkTable_error hparse hcheck))),
      s.raised_raise .rdcont _ _, s.framed_raise (by decide) _, rfl, rfl,
      fun j _ => State.codeAt_valid_of_cells_nil rfl j⟩

end Sys2Proof.Machine
end

section
/-! SUPPORT. The encoder (R172, R173): its loop in the terms of CODE, the state it answers on each of its ends, and what a
normal end says of the state it began in. -/

namespace Sys2Proof.Machine

/-! ### The codes of the input bytes -/

theorem State.isSome_codeIn {s : State} {k : Nat} :
    (codeIn s.code.cells k).isSome = true ↔ (s.codeAt k).valid = true :=
  Option.isSome_iff_exists.trans State.codeAt_valid.symm

theorem State.codeIn_eq_none {s : State} {k : Nat} (h : (s.codeAt k).valid = false) : codeIn s.code.cells k = none := by
  rw [← Option.not_isSome_iff_eq_none, State.isSome_codeIn, h]
  exact Bool.false_ne_true

theorem State.bitsIn_eq_codeBits {s : State} {b : Byte} (h : (s.codeAt b.toNat).valid = true) :
    bitsIn s.code.cells b = s.codeBits b := by
  obtain ⟨c, hc⟩ := State.codeAt_valid.1 h
  rw [bitsIn_eq hc, State.codeBits, State.codeAt_code hc]

/-- Every byte of a sequence has a valid entry. -/
def State.Coded (s : State) (l : List Byte) : Prop := ∀ b ∈ l, (s.codeAt b.toNat).valid = true

theorem State.Coded.isSome {s : State} {l : List Byte} (h : s.Coded l) :
    ∀ b ∈ l, (codeIn s.code.cells b.toNat).isSome = true :=
  fun b hb => State.isSome_codeIn.2 (h b hb)

theorem State.Coded.flatMap_bitsIn {s : State} {l : List Byte} (h : s.Coded l) :
    l.flatMap (bitsIn s.code.cells) = l.flatMap s.codeBits :=
  List.flatMap_congr fun b hb => State.bitsIn_eq_codeBits (h b hb)

theorem State.getElem_input (s : State) {i : Nat} (h : i < s.input.length) : s.input[i] = s.inAt i := by
  simp [State.input]

theorem State.mem_input {s : State} {b : Byte} : b ∈ s.input ↔ ∃ i < s.inLen.toNat, s.inAt i = b := by
  simp [State.input]

theorem State.mem_take_input {s : State} {b : Byte} {n : Nat} (hn : n ≤ s.inLen.toNat) :
    b ∈ s.input.take n ↔ ∃ i < n, s.inAt i = b := by
  simp [State.input, ← List.map_take, List.take_range, Nat.min_eq_left hn]

theorem State.coded_input {s : State} :
    s.Coded s.input ↔ ∀ i < s.inLen.toNat, (s.codeAt (s.inAt i).toNat).valid = true := by
  simp [State.Coded, State.mem_input]

theorem State.coded_take_input {s : State} {n : Nat} (hn : n ≤ s.inLen.toNat) :
    s.Coded (s.input.take n) ↔ ∀ i < n, (s.codeAt (s.inAt i).toNat).valid = true := by
  simp [State.Coded, State.mem_take_input hn]

/-! ### The loop of ENCODE -/

theorem encodeLoop_uncoded {cells : Memory CodeCell} {b : Byte} (h : codeIn cells b.toNat = none) (cap : Nat)
    (rest : List Byte) (i : Nat) (bits : List Bool) :
    encodeLoop cells cap (b :: rest) i bits = .error { kind := .missingCode, info := i } := by
  simp [encodeLoop, h]

/-- The loop raises Capacity in the part of the input whose codes, all valid, do not fit together with the bits before. -/
theorem encodeLoop_capacity {cells : Memory CodeCell} {cap : Nat} {l : List Byte} (l' : List Byte) (i : Nat)
    {bits : List Bool} (hc : ∀ b ∈ l, (codeIn cells b.toNat).isSome) (hbits : ceil8 bits.length ≤ cap)
    (hcap : cap < ceil8 (bits ++ l.flatMap (bitsIn cells)).length) :
    encodeLoop cells cap (l ++ l') i bits = .error { kind := .capacity, info := 6 } := by
  induction l generalizing i bits with
  | nil => exact absurd hbits (by simpa using hcap)
  | cons b l ih =>
    obtain ⟨c, hcb⟩ := Option.isSome_iff_exists.1 (hc b List.mem_cons_self)
    rw [List.flatMap_cons, bitsIn_eq hcb, ← List.append_assoc] at hcap
    simp only [List.cons_append, encodeLoop, hcb]
    split
    · rfl
    · exact ih (i + 1) (fun b' hb' => hc b' (List.mem_cons_of_mem b hb')) (Nat.le_of_not_lt ‹_›) hcap

/-! ### The command ENCODE on a valid table -/

/-- The state that a normal end of ENCODE with these bits leaves (R172). -/
def State.encoded (s : State) (bits : List Bool) : State :=
  (((s.accept.storePay (packBits bits)).setOsc s.inLen).setEmpty (s.inLen == 0#32)).finish

/-! What ENCODE answers on a valid table, by what its loop answers. -/

theorem exec_encode_of_loop_ok {s : State} {bits : List Bool} (herr : s.status.err = false) (htable : s.TableValid)
    (hloop : encodeLoop s.code.cells s.caps.pay.toNat s.input 0 [] = .ok bits) :
    exec .encode s = .next (s.encoded bits) := by
  have hrun : runEncode s.accept
      = .ok (((s.accept.storePay (packBits bits)).setOsc s.inLen).setEmpty (s.inLen == 0#32)) := by
    simp [runEncode, State.checkTable_table_eq_ok.2 htable, hloop]
  exact (exec_encode s).trans (congrArg _ (command_ok herr .encode hrun))

theorem exec_encode_of_loop_error {s : State} {r : Raise} (herr : s.status.err = false) (htable : s.TableValid)
    (hloop : encodeLoop s.code.cells s.caps.pay.toNat s.input 0 [] = .error r) :
    exec .encode s = .next (s.accept.raise (some .encode) r) := by
  have hrun : runEncode s.accept = .error r := by
    simp [runEncode, State.checkTable_table_eq_ok.2 htable, hloop]
  exact (exec_encode s).trans (congrArg _ (command_error herr .encode hrun))

theorem State.payload_encoded (s : State) {bits : List Bool} (hfit : ceil8 bits.length ≤ s.caps.pay.toNat) :
    (s.encoded bits).payLen.toNat = ceil8 bits.length ∧ (s.encoded bits).payload = packBits bits := by
  have hlen : (s.encoded bits).payLen.toNat = (packBits bits).length := by
    refine (BitVec.toNat_ofNat _ 32).trans (Nat.mod_eq_of_lt ?_)
    rw [length_packBits]
    exact Nat.lt_of_le_of_lt hfit s.caps.pay.isLt
  refine ⟨hlen.trans (length_packBits bits), ?_⟩
  rw [State.payload, hlen]
  exact Space.map_read_filled (Config.freeByte .pay) s.draws (packBits bits)

/-- Settles O33: the loop ends with the concatenated codes, which the body packs. -/
theorem encodePacksConcatenatedCodes : Obligations.EncodePacksConcatenatedCodes := by
  intro s herr htable hcodes hfit
  have hcoded : s.Coded s.input := State.coded_input.2 hcodes
  have hloop := encodeLoop_ok s.input 0 [] hcoded.isSome (cap := s.caps.pay.toNat)
    (by rwa [hcoded.flatMap_bitsIn])
  rw [hcoded.flatMap_bitsIn, List.nil_append] at hloop
  obtain ⟨hlen, hpayload⟩ := s.payload_encoded hfit
  exact ⟨_, exec_encode_of_loop_ok herr htable hloop, hpayload, hlen, rfl,
    by simp [State.encoded, Status.ended, herr, beq_eq_decide], (NormalEnd.encode (s := s.accept) _ hfit).framed,
    rfl, rfl⟩

/-- The effect of an error of ENCODE (R259). -/
theorem exec_encode_raised {s : State} {kind : ErrorKind} {info : Nat} (herr : s.status.err = false)
    (htable : s.TableValid)
    (hloop : encodeLoop s.code.cells s.caps.pay.toNat s.input 0 [] = .error { kind := kind, info := info }) :
    ∃ t, exec .encode s = .next t ∧ Raised s t kind info ∧ t.payLen = 0#32 ∧ t.osc = 0#32 ∧ Framed .encode s t :=
  ⟨_, exec_encode_of_loop_error herr htable hloop, s.raised_raise .encode kind info, rfl, rfl,
    s.framed_raise (by decide) _⟩

/-- Settles O34: the loop goes through the bytes before and stops at the first that has no code. -/
theorem encodeOfUncodedByteRaises : Obligations.EncodeOfUncodedByteRaises := by
  intro s i herr htable hi huncoded hbefore hfit
  have hcoded : s.Coded (s.input.take i) := (State.coded_take_input (Nat.le_of_lt hi)).2 hbefore
  have hlen : i < s.input.length := s.length_input.symm ▸ hi
  refine exec_encode_raised herr htable ?_
  calc encodeLoop s.code.cells s.caps.pay.toNat s.input 0 []
      = encodeLoop s.code.cells s.caps.pay.toNat (s.input.take i ++ s.inAt i :: s.input.drop (i + 1)) 0 [] := by
        rw [← s.getElem_input hlen, ← List.drop_eq_getElem_cons hlen, List.take_append_drop]
    _ = encodeLoop s.code.cells s.caps.pay.toNat (s.inAt i :: s.input.drop (i + 1)) (0 + (s.input.take i).length) _ :=
        encodeLoop_append _ _ _ _ hcoded.isSome (by rwa [hcoded.flatMap_bitsIn])
    _ = .error { kind := .missingCode, info := 0 + (s.input.take i).length } :=
        encodeLoop_uncoded (State.codeIn_eq_none huncoded) _ _ _ _
    _ = .error { kind := .missingCode, info := i } := by
        rw [Nat.zero_add, List.length_take_of_le (Nat.le_of_lt hlen)]

/-- Settles O35: all of the first `i + 1` bytes have codes, so only the capacity can stop the loop among them. -/
theorem encodeBeyondCapacityRaises : Obligations.EncodeBeyondCapacityRaises := by
  intro s i herr htable hi hcodes hcap
  have hcoded : s.Coded (s.input.take (i + 1)) :=
    (State.coded_take_input hi).2 fun j hj => hcodes j (Nat.le_of_lt_succ hj)
  refine exec_encode_raised herr htable ?_
  rw [← List.take_append_drop (i + 1) s.input]
  exact encodeLoop_capacity _ 0 hcoded.isSome (Nat.zero_le _) (by rwa [hcoded.flatMap_bitsIn])

/-! ### The length law (R173) -/

/-- ENCODE ends normally only on a valid table, with a code for every input byte, and only when the codes fit. -/
theorem premises_of_exec_encode {s t : State} (herr : s.status.err = false) (hexec : exec .encode s = .next t)
    (hend : t.status.err = false) :
    s.TableValid ∧ s.Coded s.input ∧ ceil8 (s.input.flatMap s.codeBits).length ≤ s.caps.pay.toNat := by
  have hno : ∀ r, runEncode s.accept ≠ .error r := by
    intro r hrun
    rw [exec_encode, command_error herr .encode hrun] at hexec
    cases hexec
    simp at hend
  rcases runEncode_cases s.accept with ⟨bits, hcheck, hloop, -⟩ | ⟨r, -, hrun⟩ | ⟨r, -, -, hrun⟩
  · rcases encodeLoop_cases (cells := s.code.cells) (cap := s.caps.pay.toNat) s.input 0 [] with
      ⟨hok, hsome, -⟩ | ⟨_, _, _, -, -, -, ⟨-, hfail⟩ | ⟨-, -, hfail⟩⟩
    · have hcoded : s.Coded s.input := fun b hb => State.isSome_codeIn.1 (hsome b hb)
      rw [hcoded.flatMap_bitsIn] at hok
      exact ⟨State.checkTable_table_eq_ok.1 hcheck, hcoded, ceil8_length_of_encodeLoop hok⟩
    · cases hloop.symm.trans hfail
    · cases hloop.symm.trans hfail
  · exact absurd hrun (hno r)
  · exact absurd hrun (hno r)

/-- The sum of a function over a list of numbers, by number: each number counts as often as it occurs. -/
theorem sum_map_eq_sum_count_mul {ns : List Nat} {n : Nat} (hlt : ∀ k ∈ ns, k < n) (f : Nat → Nat) :
    (ns.map f).sum = ((List.range n).map (fun k => ns.count k * f k)).sum := by
  have hsub : ns.toFinset ⊆ (List.range n).toFinset := fun k hk =>
    List.mem_toFinset.2 (List.mem_range.2 (hlt k (List.mem_toFinset.1 hk)))
  calc (ns.map f).sum = ∑ k ∈ ns.toFinset, ns.count k * f k := Finset.sum_list_map_count ns f
    _ = ∑ k ∈ (List.range n).toFinset, ns.count k * f k := Finset.sum_subset hsub fun k _ hk => by
        rw [List.count_eq_zero_of_not_mem (mt List.mem_toFinset.2 hk), Nat.zero_mul]
    _ = ((List.range n).map (fun k => ns.count k * f k)).sum := List.sum_toFinset _ List.nodup_range

/-- The occurrences of a number among the input's byte values are the indexes below IN_LEN that hold it. -/
theorem State.count_map_toNat_input (s : State) (k : Nat) : (s.input.map BitVec.toNat).count k
    = ((List.range s.inLen.toNat).filter (fun i => (s.inAt i).toNat == k)).length := by
  rw [State.input, List.map_map, List.count, List.countP_map, List.countP_eq_length_filter]
  rfl

theorem State.length_flatMap_codeBits (s : State) : (s.input.flatMap s.codeBits).length
    = ((List.range s.inLen.toNat).map (fun i => (s.codeBits (s.inAt i)).length)).sum := by
  rw [List.length_flatMap, State.input, List.map_map]
  rfl

/-- The total code length of the input, summed by symbol. -/
theorem State.length_flatMap_codeBits_by_symbol (s : State) : (s.input.flatMap s.codeBits).length
    = ((List.range 256).map (fun k =>
        ((List.range s.inLen.toNat).filter (fun i => (s.inAt i).toNat == k)).length
          * (s.codeAt k).code.bits.length)).sum := by
  simp only [← s.count_map_toNat_input]
  rw [List.length_flatMap, ← sum_map_eq_sum_count_mul fun _ => toNat_lt_of_mem_map_toNat, List.map_map]
  rfl

/-- Settles O36: a normal end leaves the packed codes of the input, whose number of bits is their total length. -/
theorem encodeLengthLaw : Obligations.EncodeLengthLaw := by
  intro s t herr hexec hend
  obtain ⟨htable, hcoded, hfit⟩ := premises_of_exec_encode herr hexec hend
  obtain ⟨_, hexec', hpayload, hlen, -⟩ :=
    encodePacksConcatenatedCodes s herr htable (State.coded_input.1 hcoded) hfit
  cases hexec'.symm.trans hexec
  rw [← s.length_flatMap_codeBits]
  exact ⟨s.length_flatMap_codeBits_by_symbol, hlen, by rw [hpayload, unpackBits_packBits]⟩

end Sys2Proof.Machine
end

section
/-! SUPPORT. FREQ, BUILD and GENCODE over one input (R174): the table they leave, and what ENCODE then does. -/

namespace Sys2Proof.Machine

/-! ### Sequences of commands -/

theorem execAll_cons {s t : State} {i : Instr} (h : exec i s = .next t) (rest : List Instr) :
    execAll (i :: rest) s = execAll rest t := by
  simp [execAll, h]

/-! ### What no command but CLR changes -/

theorem not_mayChange_input {i : Instr} (hi : i ≠ .clr) : ¬ mayChange i .reg 4 ∧ ∀ n, ¬ mayChange i .inp n := by
  cases i <;> simp_all [mayChange]

section
variable {s t : State} {i : Instr} (hframe : Framed i s t) (hi : i ≠ .clr)
include hframe hi

theorem Framed.inLen_eq : t.inLen = s.inLen := by
  have hcell : t.cell .reg 4 = s.cell .reg 4 := hframe.1 .reg 4 (not_mayChange_input hi).1
  exact Value.word.inj hcell

theorem Framed.inAt_eq (n : Nat) : t.inAt n = s.inAt n := by
  have hcell : t.cell .inp n = s.cell .inp n := hframe.1 .inp n ((not_mayChange_input hi).2 n)
  exact Value.byte.inj hcell

theorem Framed.input_eq : t.input = s.input := by
  rw [State.input, State.input, hframe.inLen_eq hi]
  exact List.map_congr_left fun n _ => hframe.inAt_eq hi n

end

/-! ### The table of BUILD and GENCODE -/

/-- The table is valid and has an entry exactly for the symbols of a list, each code of at most max(1, N - 1) bits for N
symbols (R144). -/
structure State.CodesOf (t : State) (symbols : List Nat) : Prop where
  valid : t.TableValid
  entry : ∀ k < 256, (t.codeAt k).valid = true ↔ k ∈ symbols
  short : ∀ k < 256, (t.codeAt k).valid = true → (t.codeAt k).code.bits.length ≤ max 1 (symbols.length - 1)

/-! What GENCODE leaves on each of the three shapes of R50. -/

theorem exec_gencode_of_no_symbol {s : State} (herr : s.status.err = false) (hroot : s.root = noRoot) :
    ∃ t, exec .gencode s = .next t ∧ t.CodesOf [] ∧ t.status.err = false ∧ Framed .gencode s t := by
  obtain ⟨t, hexec, hnone, -, hstatus, hframe⟩ := gencodeOfNoTreeGivesEmptyTable s herr hroot
  refine ⟨t, hexec, ⟨State.tableValid_of_no_valid hnone, fun k hk => ?_, fun k hk hv => ?_⟩,
    congrArg Status.err hstatus, hframe⟩
  · simp [hnone k hk]
  · cases hv.symm.trans (hnone k hk)

theorem exec_gencode_of_one_symbol {s : State} (herr : s.status.err = false) (htree : s.TreeSingle) :
    ∃ t, exec .gencode s = .next t ∧ t.CodesOf [(s.nodeAt 0).sym.toNat] ∧ t.status.err = false
      ∧ Framed .gencode s t := by
  obtain ⟨t, hexec, hcode, hother, hstatus, hframe⟩ := gencodeOfOneSymbolGivesZeroBit s herr htree
  have hentry : ∀ k < 256, (t.codeAt k).valid = true ↔ k = (s.nodeAt 0).sym.toNat := by
    refine fun k hk => ⟨fun hv => ?_, ?_⟩
    · by_contra hne
      cases hv.symm.trans (hother k hk hne)
    · rintro rfl
      rw [hcode]
  refine ⟨t, hexec, ⟨State.tableValid_of_one_valid (by simp [hcode, Code.clip]) hother, fun k hk => ?_,
    fun k hk hv => ?_⟩, congrArg Status.err hstatus, hframe⟩
  · rw [hentry k hk, List.mem_singleton]
  · rw [(hentry k hk).1 hv, hcode]
    exact Nat.le_refl 1

theorem exec_gencode_of_symbols {s : State} {symbols : List Nat} (herr : s.status.err = false)
    (htree : s.TreeFull symbols.length)
    (hsym : ∀ n (hn : n < symbols.length), (s.nodeAt n).sym.toNat = symbols[n]) :
    ∃ t, exec .gencode s = .next t ∧ t.CodesOf symbols ∧ t.status.err = false ∧ Framed .gencode s t := by
  obtain ⟨t, hexec, hcodes, hother, hstatus, hframe⟩ := gencodeCodesArePaths s _ herr htree
  obtain ⟨_, hexec', -, hvalid⟩ := gencodeTableIsValid s herr (.inr (.inr ⟨_, htree⟩))
  cases hexec'.symm.trans hexec
  have hentry : ∀ k < 256, (t.codeAt k).valid = true → k ∈ symbols := by
    intro k hk hv
    by_contra hnot
    refine absurd (hother k hk fun n hn heq => hnot ?_) (by simp [hv])
    rw [← heq, hsym n hn]
    exact List.getElem_mem hn
  have hcode : ∀ k ∈ symbols, (t.codeAt k).valid = true ∧ (t.codeAt k).code.bits.length ≤ symbols.length - 1 := by
    intro k hk
    obtain ⟨n, hn, rfl⟩ := List.getElem_of_mem hk
    obtain ⟨c, hc, -, -, -, hlen⟩ := hcodes n hn
    rw [← hsym n hn, hc]
    exact ⟨rfl, hlen⟩
  exact ⟨t, hexec, ⟨hvalid, fun k hk => ⟨hentry k hk, fun hmem => (hcode k hmem).1⟩,
    fun k hk hv => Nat.le_trans (hcode k (hentry k hk hv)).2 (Nat.le_max_right _ _)⟩,
    congrArg Status.err hstatus, hframe⟩

/-- BUILD leaves the tree of the present symbols, in each of its three shapes, and GENCODE their table. -/
theorem exec_build_gencode {s : State} (herr : s.status.err = false) :
    ∃ b t, exec .build s = .next b ∧ exec .gencode b = .next t ∧ t.CodesOf s.present ∧ t.status.err = false
      ∧ Framed .build s b ∧ Framed .gencode b t := by
  match hp : s.present with
  | [] =>
    obtain ⟨hbuild, hstatus, hframe⟩ := exec_build_ended herr (runBuild_of_nil (s := s.accept) hp)
    obtain ⟨t, hexec, hcodes, hend, hframe'⟩ := exec_gencode_of_no_symbol (congrArg Status.err hstatus) rfl
    exact ⟨_, t, hbuild, hexec, hcodes, hend, hframe, hframe'⟩
  | [k] =>
    obtain ⟨hbuild, hstatus, hframe⟩ := exec_build_ended herr (runBuild_of_singleton (s := s.accept) hp)
    obtain ⟨t, hexec, hcodes, hend, hframe'⟩ := exec_gencode_of_one_symbol (congrArg Status.err hstatus)
      (s.accept.finish.treeSingle_storeTree k (s.freqAt k))
    have hk : k < 256 := (State.mem_present.1 (hp ▸ List.mem_singleton_self k)).1
    have hsym : (BitVec.ofNat 8 k).toNat = k := (BitVec.toNat_ofNat k 8).trans (Nat.mod_eq_of_lt hk)
    exact ⟨_, t, hbuild, hexec, hsym ▸ hcodes, hend, hframe, hframe'⟩
  | _ :: _ :: _ =>
    have hN : 2 ≤ s.present.length := by simp [hp]
    obtain ⟨hbuild, hstatus, hframe⟩ := exec_build_ended herr (runBuild_of_two_le (s := s.accept) hN)
    have htree := State.treeFull_mergeLoop (s := s.accept.finish) hN
    obtain ⟨t, hexec, hcodes, hend, hframe'⟩ :=
      exec_gencode_of_symbols (symbols := s.present) (congrArg Status.err hstatus) htree fun n hn => by
        have hlen : n < s.mergedArena.length := by
          rw [State.length_mergedArena hN]
          omega
        have hk := (State.mem_present.1 (List.getElem_mem hn)).1
        calc _ = (nodeOf s.mergedArena n).sym.toNat :=
              congrArg (fun r => r.sym.toNat) (State.nodeAt_finish_storeTree s.accept _ hlen)
          _ = (BitVec.ofNat 8 s.present[n]).toNat := by rw [State.nodeOf_mergedArena_of_lt hN hn]; rfl
          _ = s.present[n] := (BitVec.toNat_ofNat _ 8).trans (Nat.mod_eq_of_lt hk)
    exact ⟨_, t, hbuild, hexec, hp ▸ hcodes, hend, hframe, hframe'⟩

/-! ### The table of FREQ, BUILD and GENCODE -/

theorem State.mem_map_toNat_input {s : State} {k : Nat} :
    k ∈ s.input.map BitVec.toNat ↔ ∃ i < s.inLen.toNat, (s.inAt i).toNat = k := by
  simp [State.input]

/-- After FREQ the symbols present are the byte values of the input, as many as the input has distinct bytes (R111). -/
theorem present_exec_freq {s t : State} (herr : s.status.err = false) (hexec : exec .freq s = .next t) :
    (∀ k < 256, k ∈ t.present ↔ ∃ i < s.inLen.toNat, (s.inAt i).toNat = k)
    ∧ t.present.length = s.input.dedup.length := by
  refine ⟨fun k hk => ?_, ?_⟩
  · rw [State.present_eq_filter_pos, List.mem_filter, decide_eq_true_iff, toNat_freqAt_exec_freq herr hexec hk,
      List.count_pos_iff, State.mem_map_toNat_input, List.mem_range, and_iff_right hk]
  · rw [State.present_eq_filter_pos]
    exact (freqCountsSumToLength s t herr hexec).2

/-- What the three commands leave, with the input as before. -/
theorem execAll_freq_build_gencode {s : State} (herr : s.status.err = false) :
    ∃ f t, exec .freq s = .next f ∧ execAll [.freq, .build, .gencode] s = .next t ∧ t.CodesOf f.present
      ∧ t.status.err = false ∧ t.inLen = s.inLen ∧ t.input = s.input ∧ t.caps = s.caps := by
  obtain ⟨f, hfreq, -, hstatus, hframe⟩ := freqCountsEveryByteValue s herr
  obtain ⟨b, t, hbuild, hgencode, hcodes, hend, hframe', hframe''⟩ :=
    exec_build_gencode (congrArg Status.err hstatus : f.status.err = false)
  refine ⟨f, t, hfreq, ?_, hcodes, hend, ?_, ?_, ?_⟩
  · rw [execAll_cons hfreq, execAll_cons hbuild, execAll_cons hgencode, execAll]
  · rw [hframe''.inLen_eq nofun, hframe'.inLen_eq nofun, hframe.inLen_eq nofun]
  · rw [hframe''.input_eq nofun, hframe'.input_eq nofun, hframe.input_eq nofun]
  · rw [hframe''.2.1, hframe'.2.1, hframe.2.1]

/-! ### ENCODE with a code for every input byte -/

/-- With a code for every input byte ENCODE ends normally when the codes fit, and else raises Capacity, at the last byte
at the latest. -/
theorem exec_encode_of_coded {s : State} (herr : s.status.err = false) (htable : s.TableValid)
    (hcoded : s.Coded s.input) : ∃ u, exec .encode s = .next u
      ∧ (ceil8 (s.input.flatMap s.codeBits).length ≤ s.caps.pay.toNat → u.status.err = false)
      ∧ (u.status.err = true → Raised s u .capacity 6) := by
  have hcodes := State.coded_input.1 hcoded
  by_cases hfit : ceil8 (s.input.flatMap s.codeBits).length ≤ s.caps.pay.toNat
  · obtain ⟨u, hexec, -, -, -, hstatus, -⟩ := encodePacksConcatenatedCodes s herr htable hcodes hfit
    have hend : u.status.err = false := congrArg Status.err hstatus
    exact ⟨u, hexec, fun _ => hend, fun h => absurd h (by simp [hend])⟩
  · obtain ⟨n, hn⟩ : ∃ n, s.inLen.toNat = n + 1 := by
      refine Nat.exists_eq_succ_of_ne_zero fun hzero => hfit ?_
      simp [List.eq_nil_of_length_eq_zero (s.length_input.trans hzero), ceil8]
    have hall : s.input.take (n + 1) = s.input := List.take_of_length_le (by rw [s.length_input, hn])
    obtain ⟨u, hexec, hraised, -⟩ := encodeBeyondCapacityRaises s n herr htable (by omega)
      (fun j hj => hcodes j (by omega)) (by rw [hall]; exact Nat.lt_of_not_le hfit)
    exact ⟨u, hexec, fun h => absurd h hfit, fun _ => hraised⟩

/-- Codes of at most `c` bits for the bytes of the input. -/
theorem State.length_flatMap_codeBits_le {s : State} {c : Nat} (h : ∀ b ∈ s.input, (s.codeBits b).length ≤ c) :
    (s.input.flatMap s.codeBits).length ≤ s.inLen.toNat * c := by
  have hsum := sum_le_length_mul (l := s.input.map fun b => (s.codeBits b).length) (c := c) (by simpa using h)
  rwa [List.length_map, s.length_input, ← List.length_flatMap] at hsum

/-- Settles O56: the symbols of the table are the byte values of the input, so no byte lacks a code, and a code has at most
255 bits, and 1 bit when there are at most two symbols. -/
theorem compressFailsOnlyOnCapacity : Obligations.CompressFailsOnlyOnCapacity := by
  intro s herr
  obtain ⟨f, t, hfreq, hexec, hcodes, hend, hinLen, hinput, hcaps⟩ := execAll_freq_build_gencode herr
  obtain ⟨hpresent, hcount⟩ := present_exec_freq herr hfreq
  have hentry : ∀ k < 256, (t.codeAt k).valid = true ↔ ∃ i < s.inLen.toNat, (s.inAt i).toNat = k :=
    fun k hk => (hcodes.entry k hk).trans (hpresent k hk)
  have hcoded : t.Coded t.input := by
    intro b hb
    obtain ⟨i, hi, rfl⟩ := State.mem_input.1 (hinput ▸ hb)
    exact (hentry _ (s.inAt i).isLt).2 ⟨i, hi, rfl⟩
  obtain ⟨u, hencode, hfit, hraised⟩ := exec_encode_of_coded hend hcodes.valid hcoded
  have hends : ∀ c, (∀ b ∈ t.input, (t.codeBits b).length ≤ c) →
      ceil8 (s.inLen.toNat * c) ≤ s.caps.pay.toNat → u.status.err = false := fun c hc hcap =>
    hfit (Nat.le_trans (ceil8_mono (State.length_flatMap_codeBits_le hc)) (by rwa [hinLen, hcaps]))
  refine ⟨t, hexec, hcodes.valid, hend, hentry, fun k hk hv => hcount ▸ hcodes.short k hk hv, u, hencode,
    by rwa [hinput, hcaps] at hfit, hraised, hends 255 fun b _ => (t.codeAt b.toNat).code.short, fun htwo hcap => ?_⟩
  refine hends 1 (fun b hb => ?_) (by rwa [Nat.mul_one])
  have hshort := hcodes.short b.toNat b.isLt (hcoded b hb)
  rw [hcount] at hshort
  exact Nat.le_trans hshort (Nat.max_le.2 ⟨Nat.le_refl 1, by omega⟩)

end Sys2Proof.Machine
end

section
/-! SUPPORT. The decoder (R180 to R187): the match in a valid table, the loop over coded symbols, and what DECODE
answers, after ENCODE too. -/

namespace Sys2Proof.Machine

/-! ### Codes of a valid table (R170, R180) -/

/-- The code of one byte is a prefix of the code of another for no two different bytes (V2). -/
theorem State.TableValid.eq_of_codeBits_prefix {s : State} (htable : s.TableValid) {b c : Byte}
    (hb : (s.codeAt b.toNat).valid = true) (hc : (s.codeAt c.toNat).valid = true)
    (hprefix : s.codeBits b <+: s.codeBits c) : b = c := by
  by_contra hne
  exact htable.2 b.toNat b.isLt c.toNat c.isLt (mt BitVec.eq_of_toNat_eq hne) hb hc hprefix

/-- The symbol that `match` answers has a valid entry, whose code is the candidate (R180). -/
theorem State.valid_of_matchCode {s : State} {bits : List Bool} {b : Byte} (h : matchCode s.table bits = some b) :
    (s.codeAt b.toNat).valid = true ∧ s.codeBits b = bits := by
  obtain ⟨e, he, rfl, rfl⟩ := matchCode_some h
  obtain ⟨hlt, hcode⟩ := State.mem_table.1 he
  have hsym : (BitVec.ofNat 8 e.1).toNat = e.1 := (BitVec.toNat_ofNat _ 8).trans (Nat.mod_eq_of_lt hlt)
  rw [State.codeBits, hsym, hcode]
  exact ⟨rfl, rfl⟩

theorem State.matchCode_codeBits_ne_none {s : State} {b : Byte} (hb : (s.codeAt b.toNat).valid = true) :
    matchCode s.table (s.codeBits b) ≠ none :=
  fun hnone => matchCode_none.1 hnone _ (State.mem_table_of_valid b.isLt hb) rfl

/-! ### The next symbol (R182) -/

/-- Greedy matching takes the code that the bits begin with: the code it does take begins the same bits, so one of the
two is a prefix of the other. -/
theorem State.TableValid.decodeSymbol_codeBits {s : State} (htable : s.TableValid) {b : Byte}
    (hb : (s.codeAt b.toNat).valid = true) (rest : List Bool) :
    decodeSymbol s.table [] (s.codeBits b ++ rest) = some (b, rest) := by
  rcases decodeSymbol_cases (table := s.table) (s.codeBits b ++ rest) [] with
    ⟨front, rest', c, hbits, hsymbol, hmatch, -⟩ | ⟨-, hnone⟩
  · obtain ⟨hc, rfl⟩ := State.valid_of_matchCode hmatch
    have hsame : b = c := by
      rcases List.prefix_or_prefix_of_prefix (List.prefix_append _ rest) ⟨rest', hbits.symm⟩ with hbc | hcb
      · exact htable.eq_of_codeBits_prefix hb hc hbc
      · exact (htable.eq_of_codeBits_prefix hc hb hcb).symm
    subst hsame
    rw [hsymbol, List.append_cancel_left hbits]
  · exact absurd (hnone _ (List.prefix_append _ rest)) (State.matchCode_codeBits_ne_none hb)

/-- No symbol comes of bits that begin with no valid code (R185). -/
theorem State.decodeSymbol_eq_none {s : State} {bits : List Bool}
    (h : ∀ k < 256, (s.codeAt k).valid = true → ¬ (s.codeAt k).code.bits <+: bits) :
    decodeSymbol s.table [] bits = none := by
  rcases decodeSymbol_cases (table := s.table) bits [] with ⟨front, rest, b, hbits, -, hmatch, -⟩ | ⟨hnone, -⟩
  · obtain ⟨hb, rfl⟩ := State.valid_of_matchCode hmatch
    exact absurd ⟨rest, hbits.symm⟩ (h b.toNat b.isLt hb)
  · exact hnone

/-! ### The loop of DECODE (R182) -/

theorem decodeLoop_stop {table : List (Nat × Code)} {bits : List Bool} (h : decodeSymbol table [] bits = none)
    (m k : Nat) : decodeLoop table (m + 1) k bits = .error { kind := .truncatedPayload, info := k } := by
  simp [decodeLoop, h]

theorem decodeLoop_next {table : List (Nat × Code)} {bits rest : List Bool} {b : Byte}
    (h : decodeSymbol table [] bits = some (b, rest)) (m k : Nat) :
    decodeLoop table (m + 1) k bits = (decodeLoop table m (k + 1) rest).map (b :: ·) := by
  simp only [decodeLoop, h]
  cases decodeLoop table m (k + 1) rest <;> rfl

/-- The loop emits the symbols whose codes the bits begin with, and goes on with the bits after them. -/
theorem State.TableValid.decodeLoop_append {s : State} (htable : s.TableValid) {out : List Byte} (hout : s.Coded out)
    (m k : Nat) (rest : List Bool) : decodeLoop s.table (out.length + m) k (out.flatMap s.codeBits ++ rest)
      = (decodeLoop s.table m (k + out.length) rest).map (out ++ ·) := by
  induction out generalizing k with
  | nil =>
    rw [List.length_nil, Nat.zero_add, Nat.add_zero, List.flatMap_nil, List.nil_append]
    cases decodeLoop s.table m k rest <;> rfl
  | cons b out ih =>
    obtain ⟨hb, hout⟩ := List.forall_mem_cons.1 hout
    have hsymbol := htable.decodeSymbol_codeBits hb (out.flatMap s.codeBits ++ rest)
    rw [List.flatMap_cons, List.append_assoc, List.length_cons, Nat.succ_add, decodeLoop_next hsymbol, ih hout,
      Nat.add_right_comm k 1, Nat.add_assoc k]
    cases decodeLoop s.table m (k + (out.length + 1)) rest <;> rfl

/-! ### The command DECODE on a valid table -/

/-- The payload bits that DECODE reads, padding included (R181). -/
def State.payloadBits (s : State) : List Bool := unpackBits s.payload (8 * s.payLen.toNat)

/-- The state that a normal end of DECODE with these symbols leaves (R182). -/
def State.decoded (s : State) (out : List Byte) : State :=
  ((s.accept.storeOut out).setEmpty (s.osc == 0#32)).finish

section
variable {s : State} (herr : s.status.err = false) (htable : s.TableValid) (hcap : s.osc.toNat ≤ s.caps.out.toNat)
include herr htable hcap

/-! What DECODE answers on a valid table when OSC symbols fit OUT, by what its loop answers. -/

theorem exec_decode_of_loop_ok {out : List Byte} (hloop : decodeLoop s.table s.osc.toNat 0 s.payloadBits = .ok out) :
    exec .decode s = .next (s.decoded out) := by
  rw [State.payloadBits] at hloop
  have hrun : runDecode s.accept = .ok ((s.accept.storeOut out).setEmpty (s.osc == 0#32)) := by
    simp [runDecode, State.checkTable_table_eq_ok.2 htable, Nat.not_lt_of_le hcap, hloop]
  exact (exec_decode s).trans (congrArg _ (command_ok herr .decode hrun))

theorem exec_decode_of_loop_error {r : Raise} (hloop : decodeLoop s.table s.osc.toNat 0 s.payloadBits = .error r) :
    exec .decode s = .next (s.accept.raise (some .decode) r) := by
  rw [State.payloadBits] at hloop
  have hrun : runDecode s.accept = .error r := by
    simp [runDecode, State.checkTable_table_eq_ok.2 htable, Nat.not_lt_of_le hcap, hloop]
  exact (exec_decode s).trans (congrArg _ (command_error herr .decode hrun))

end

theorem State.output_decoded (s : State) {out : List Byte} (hlen : out.length = s.osc.toNat) :
    (s.decoded out).outLen = s.osc ∧ (s.decoded out).output = out := by
  have hword : (s.decoded out).outLen = s.osc := by
    change BitVec.ofNat 32 out.length = s.osc
    rw [hlen, BitVec.ofNat_toNat, BitVec.setWidth_eq]
  refine ⟨hword, ?_⟩
  rw [State.output, hword, ← hlen]
  exact Space.map_read_filled (Config.freeByte .out) s.draws out

/-- Settles O37: the loop goes through the coded symbols and has then emitted all it was asked for. -/
theorem decodeEmitsCodedSymbols : Obligations.DecodeEmitsCodedSymbols := by
  intro s out rest herr htable hcap hlen hout (hbits : s.payloadBits = _)
  have hloop : decodeLoop s.table s.osc.toNat 0 s.payloadBits = .ok out := by
    rw [hbits, ← hlen, ← Nat.add_zero out.length, htable.decodeLoop_append hout]
    exact congrArg _ (List.append_nil out)
  obtain ⟨hword, houtput⟩ := s.output_decoded hlen
  exact ⟨_, exec_decode_of_loop_ok herr htable hcap hloop, hword, houtput,
    by simp [State.decoded, Status.ended, herr, beq_eq_decide],
    (NormalEnd.decode (s := s.accept) out (hlen ▸ hcap)).framed, rfl, rfl⟩

/-- Settles O38: the loop goes through the coded symbols, is asked for one more and finds none. -/
theorem decodeWithoutMatchRaises : Obligations.DecodeWithoutMatchRaises := by
  intro s out rest herr htable hcap hlt hout (hbits : s.payloadBits = _) hrest
  obtain ⟨m, hm⟩ := Nat.exists_eq_add_of_lt hlt
  have hloop : decodeLoop s.table s.osc.toNat 0 s.payloadBits
      = .error { kind := .truncatedPayload, info := out.length } := by
    rw [hbits, hm, Nat.add_assoc, htable.decodeLoop_append hout,
      decodeLoop_stop (State.decodeSymbol_eq_none hrest), Nat.zero_add]
    rfl
  exact ⟨_, exec_decode_of_loop_error herr htable hcap hloop, s.raised_raise .decode _ _, rfl,
    s.framed_raise (by decide) _⟩

/-! ### DECODE after ENCODE (R187) -/

section
variable {s t : State} (hcode : ∀ k < 256, t.codeAt k = s.codeAt k)
include hcode

theorem State.TableValid.of_codeAt_eq (h : s.TableValid) : t.TableValid := by
  refine ⟨fun k hk hv => ?_, fun j hj k hk hne hvj hvk => ?_⟩
  · rw [hcode k hk] at hv ⊢
    exact h.1 k hk hv
  · rw [hcode j hj] at hvj ⊢
    rw [hcode k hk] at hvk ⊢
    exact h.2 j hj k hk hne hvj hvk

theorem State.Coded.of_codeAt_eq {l : List Byte} (h : s.Coded l) : t.Coded l :=
  fun b hb => (congrArg CodeValue.valid (hcode b.toNat b.isLt)).trans (h b hb)

theorem State.codeBits_eq_of_codeAt_eq : t.codeBits = s.codeBits :=
  funext fun b => congrArg (fun v => v.code.bits) (hcode b.toNat b.isLt)

end

theorem State.payload_eq_of_payAt_eq {s t : State} (hlen : t.payLen = s.payLen)
    (hpay : ∀ i < s.payLen.toNat, t.payAt i = s.payAt i) : t.payload = s.payload := by
  rw [State.payload, State.payload, hlen]
  exact List.map_congr_left fun i hi => hpay i (List.mem_range.1 hi)

/-- A command that may not change an entry of CODE leaves it as it was (R54). -/
theorem Framed.codeAt_eq {s t : State} {i : Instr} {k : Nat} (hframe : Framed i s t) (hk : ¬ mayChange i .code k) :
    t.codeAt k = s.codeAt k := by
  have hcell : t.cell .code k = s.cell .code k := hframe.1 .code k hk
  exact Value.code.inj hcell

/-- Settles O39: the payload bits are the codes of the input and the padding, which DECODE leaves. -/
theorem decodeAfterEncodeRestoresInput : Obligations.DecodeAfterEncodeRestoresInput := by
  intro s t t' herr hexec hend herr' hcodeAt hpayLen hpay hosc hcap
  obtain ⟨htable, hcoded, hfit⟩ := premises_of_exec_encode herr hexec hend
  obtain ⟨_, hexec', hpayload, hlen, hcount, -, hframe, -⟩ :=
    encodePacksConcatenatedCodes s herr htable (State.coded_input.1 hcoded) hfit
  cases hexec'.symm.trans hexec
  have hcode : ∀ k < 256, t'.codeAt k = s.codeAt k := fun k hk =>
    (hcodeAt k hk).trans (hframe.codeAt_eq id)
  have hoscLen : t'.osc = s.inLen := hosc.trans hcount
  have hbits : unpackBits t'.payload (8 * t'.payLen.toNat) = s.input.flatMap t'.codeBits
      ++ List.replicate (8 * t.payLen.toNat - (s.input.flatMap s.codeBits).length) false := by
    rw [State.payload_eq_of_payAt_eq hpayLen hpay, hpayLen, hpayload, hlen, unpackBits_packBits_all,
      State.codeBits_eq_of_codeAt_eq hcode]
  obtain ⟨u, hdecode, houtLen, houtput, hstatus, -⟩ := decodeEmitsCodedSymbols t' s.input _ herr'
    (htable.of_codeAt_eq hcode) hcap (by rw [s.length_input, hoscLen]) (hcoded.of_codeAt_eq hcode) hbits
  exact ⟨u, hdecode, congrArg Status.err hstatus, houtLen.trans hoscLen, houtput⟩

end Sys2Proof.Machine
end

section
/-! SUPPORT. The container writer (R201 to R203): the Code Table as its valid symbols in ascending order, and what WRCONT
answers on a valid table. -/

namespace Sys2Proof.Machine

/-! ### The valid symbols (R201) -/

/-- The symbols with a valid entry, in ascending order. -/
def State.validSymbols (s : State) : List Nat := (List.range 256).filter fun k => (s.codeAt k).valid

theorem State.table_eq_map_validSymbols (s : State) :
    s.table = s.validSymbols.map fun k => (k, (s.codeAt k).code) := by
  rw [State.validSymbols, ← List.filterMap_eq_map, List.filterMap_filter, State.table, validEntries]
  refine List.filterMap_congr fun k _ => ?_
  cases hk : codeIn s.code.cells k with
  | some c => simp [State.codeAt_eq_valid.2 hk]
  | none =>
    have hv : ¬ (s.codeAt k).valid = true := by simp [← State.isSome_codeIn, hk]
    simp [hv]

/-- The table is its valid entries: it does not depend on what the other cells of CODE hold. -/
theorem State.table_congr {s t : State} (hvalid : ∀ k < 256, (t.codeAt k).valid = (s.codeAt k).valid)
    (hcode : ∀ k < 256, (s.codeAt k).valid = true → (t.codeAt k).code = (s.codeAt k).code) : t.table = s.table := by
  have hsymbols : t.validSymbols = s.validSymbols :=
    List.filter_congr fun k hk => hvalid k (List.mem_range.1 hk)
  rw [t.table_eq_map_validSymbols, s.table_eq_map_validSymbols, hsymbols]
  refine List.map_congr_left fun k hk => ?_
  obtain ⟨hk, hv⟩ := List.mem_filter.1 hk
  rw [hcode k (List.mem_range.1 hk) hv]

/-- The container's bytes over the valid symbols (R202). -/
theorem State.containerBytes_eq (s : State) : containerBytes s.table s.osc.toNat s.payload
    = be32Bytes s.validSymbols.length
      ++ s.validSymbols.flatMap (fun k => BitVec.ofNat 8 k :: BitVec.ofNat 8 (s.codeAt k).code.bits.length
          :: packBits (s.codeAt k).code.bits)
      ++ be32Bytes s.osc.toNat ++ s.payload := by
  rw [containerBytes, s.table_eq_map_validSymbols, List.length_map, List.flatMap_map]
  rfl

/-- The container's length over the valid symbols (R96). -/
theorem State.containerLength_eq (s : State) : containerLength s.table s.payLen.toNat
    = 4 + (s.validSymbols.map (fun k => 2 + ceil8 (s.codeAt k).code.bits.length)).sum + 4 + s.payLen.toNat := by
  rw [containerLength, s.table_eq_map_validSymbols, List.map_map]
  rfl

/-! ### The command WRCONT -/

/-- The state that a normal end of WRCONT leaves (R202). -/
def State.written (s : State) : State := (s.accept.storeCont (containerBytes s.table s.osc.toNat s.payload)).finish

theorem exec_wrcont_ended {s : State} (herr : s.status.err = false) (htable : s.TableValid)
    (hfit : containerLength s.table s.payLen.toNat ≤ s.caps.cont.toNat) : exec .wrcont s = .next s.written := by
  rcases runWrcont_cases s.accept with ⟨-, -, hrun⟩ | ⟨r, hcheck, -⟩ | ⟨-, hcap, -⟩
  · exact (exec_wrcont s).trans (congrArg _ (command_ok herr .wrcont hrun))
  · cases hcheck.symm.trans (State.checkTable_table_eq_ok.2 htable)
  · exact absurd hfit (Nat.not_le_of_lt hcap)

/-- WRCONT ends normally only on a valid table, and only when the container fits CONT (R202). -/
theorem premises_of_exec_wrcont {s t : State} (herr : s.status.err = false) (hexec : exec .wrcont s = .next t)
    (hend : t.status.err = false) :
    s.TableValid ∧ containerLength s.table s.payLen.toNat ≤ s.caps.cont.toNat := by
  cases (exec_wrcont s).symm.trans hexec
  rcases runWrcont_cases s.accept with ⟨hcheck, hfit, -⟩ | ⟨r, -, hrun⟩ | ⟨-, -, hrun⟩
  · exact ⟨State.checkTable_table_eq_ok.1 hcheck, hfit⟩
  · exact absurd hend (by simp [command_error herr .wrcont hrun])
  · exact absurd hend (by simp [command_error herr .wrcont hrun])

theorem State.container_written {s : State} (hfit : containerLength s.table s.payLen.toNat ≤ s.caps.cont.toNat) :
    s.written.contLen.toNat = containerLength s.table s.payLen.toNat
      ∧ s.written.container = containerBytes s.table s.osc.toNat s.payload := by
  have hlen : s.written.contLen.toNat = (containerBytes s.table s.osc.toNat s.payload).length := by
    refine (BitVec.toNat_ofNat _ 32).trans (Nat.mod_eq_of_lt ?_)
    rw [length_containerBytes]
    exact Nat.lt_of_le_of_lt hfit s.caps.cont.isLt
  refine ⟨hlen.trans (length_containerBytes s), ?_⟩
  rw [State.container, hlen]
  exact Space.map_read_filled (Config.freeByte .cont) s.draws _

/-- Settles O40: the bytes stored are those of the table, which lists the valid symbols in ascending order. -/
theorem wrcontWritesContainer : Obligations.WrcontWritesContainer := by
  intro s V bytes herr htable (hV : V = s.validSymbols) hbytes hcap
  subst hV hbytes
  rw [← s.containerLength_eq] at hcap ⊢
  obtain ⟨hlen, hcontainer⟩ := State.container_written hcap
  exact ⟨_, exec_wrcont_ended herr htable hcap, hcontainer.trans s.containerBytes_eq, hlen,
    by simp [State.written, Status.ended, herr], (NormalEnd.wrcont (s := s.accept) hcap).framed, rfl, rfl⟩

end Sys2Proof.Machine
end

section
/-! SUPPORT. The container reader (R210 to R220): its header tests after any number of complete records, and what RDCONT
answers, after WRCONT too. -/

namespace Sys2Proof.Machine

/-! ### The header tests (R212, R213) -/

/-- The table of complete records of distinct symbols holds the symbols of the records and no other. -/
theorem codeIn_recordCells_isSome {records : List HeaderRecord} (hdist : records.Pairwise (fun r q => r.1 ≠ q.1))
    {sym : Byte} : (codeIn (recordCells records []) sym.toNat).isSome = true ↔ ∃ r ∈ records, r.1 = sym := by
  rw [Option.isSome_iff_exists]
  simp only [codeIn_recordCells records [] hdist]
  constructor
  · rintro ⟨code, ⟨r, hr, hsym, -⟩ | ⟨-, hnil⟩⟩
    · exact ⟨r, hr, BitVec.eq_of_toNat_eq hsym⟩
    · cases hnil
  · rintro ⟨r, hr, rfl⟩
    exact ⟨_, .inl ⟨r, hr, rfl, rfl⟩⟩

theorem codeIn_recordCells_eq_none {records : List HeaderRecord} (hdist : records.Pairwise (fun r q => r.1 ≠ q.1))
    {sym : Byte} (hnew : ∀ r ∈ records, r.1 ≠ sym) : codeIn (recordCells records []) sym.toNat = none := by
  rw [← Option.not_isSome_iff_eq_none, codeIn_recordCells_isSome hdist]
  rintro ⟨r, hr, hsym⟩
  exact hnew r hr hsym

/-- `CutRecord cells tail k`: the bytes `tail` do not begin with a complete record of a symbol new to the table `cells`, and
the first field of the record that is missing, repeated or cut begins at byte `k` of them. -/
inductive CutRecord (cells : Memory CodeCell) : List Byte → Nat → Prop
  | noSymbol : CutRecord cells [] 0
  | repeated {sym : Byte} {more : List Byte} (hold : (codeIn cells sym.toNat).isSome = true) :
      CutRecord cells (sym :: more) 0
  | noLength {sym : Byte} (hnew : codeIn cells sym.toNat = none) : CutRecord cells [sym] 1
  | shortField {sym len : Byte} {field : List Byte} (hnew : codeIn cells sym.toNat = none)
      (hshort : field.length < ceil8 len.toNat) : CutRecord cells (sym :: len :: field) 2

/-- The record loop stops at a record that is not complete or not new, with the offset of its first bad field. -/
theorem parseRecords_of_cutRecord {c tail : List Byte} {p k : Nat} {cells : Memory CodeCell} (hp : p ≤ c.length)
    (hdrop : c.drop p = tail) (hcut : CutRecord cells tail k) (n : Nat) :
    parseRecords c (n + 1) p cells = .error (malformed (p + k)) := by
  have hlen := length_of_drop hp hdrop
  have hbyte := getD_of_drop hdrop
  cases hcut with
  | noSymbol => rw [parseRecords, if_pos (by simp [hlen]), Nat.add_zero]
  | @repeated sym more hold =>
    have hsym : c.getD p 0#8 = sym := hbyte 0
    rw [List.length_cons] at hlen
    rw [parseRecords, if_neg (by omega)]
    simp only [hsym, hold, if_true, Nat.add_zero]
  | @noLength sym hnew =>
    have hsym : c.getD p 0#8 = sym := hbyte 0
    rw [List.length_singleton] at hlen
    rw [parseRecords, if_neg (by omega)]
    simp only [hsym, hnew, Option.isSome_none, Bool.false_eq_true, if_false]
    rw [if_pos (by omega)]
  | @shortField sym len field hnew hshort =>
    have hsym : c.getD p 0#8 = sym := hbyte 0
    have hcodeLen : c.getD (p + 1) 0#8 = len := hbyte 1
    rw [List.length_cons, List.length_cons] at hlen
    rw [parseRecords, if_neg (by omega)]
    simp only [hsym, hcodeLen, hnew, Option.isSome_none, Bool.false_eq_true, if_false]
    rw [if_neg (by omega), if_pos (by omega)]

/-! What the header tests answer, by what the record loop answers. -/

theorem parseContainer_of_parseRecords_error {c : List Byte} {r : Raise} (hlen : 4 ≤ c.length)
    (hcount : be32At c 0 ≤ 256) (h : parseRecords c (be32At c 0) 4 [] = .error r) : parseContainer c = .error r := by
  rw [parseContainer, if_neg (Nat.not_lt_of_le hlen), if_neg (Nat.not_lt_of_le hcount), h]

theorem parseContainer_of_short_count {c : List Byte} {cells : Memory CodeCell} {p : Nat} (hlen : 4 ≤ c.length)
    (hcount : be32At c 0 ≤ 256) (h : parseRecords c (be32At c 0) 4 [] = .ok (cells, p)) (hshort : c.length < p + 4) :
    parseContainer c = .error (malformed p) := by
  rw [parseContainer, if_neg (Nat.not_lt_of_le hlen), if_neg (Nat.not_lt_of_le hcount), h]
  exact if_pos hshort

section
variable {c tail : List Byte} {n : Nat} {records : List HeaderRecord} (hn : n ≤ 256)
  (hc : c = be32Bytes n ++ records.flatMap HeaderRecord.bytes ++ tail)
  (hlen : ∀ r ∈ records, r.2.2.length = ceil8 r.2.1.toNat) (hdist : records.Pairwise (fun r q => r.1 ≠ q.1))
include hc

/-- `tail` is what follows the complete records. -/
theorem drop_records : c.drop (c.length - tail.length) = tail := by
  rw [hc, List.length_append, Nat.add_sub_cancel, List.drop_left]

theorem four_le_length_of_header : 4 + tail.length ≤ c.length := by
  rw [hc]
  simp only [List.length_append, length_be32Bytes]
  omega

include hn

/-- The symbolCount of the header. -/
theorem be32At_header : be32At c 0 = n := by
  refine be32At_be32Bytes (rest := records.flatMap HeaderRecord.bytes ++ tail) ?_ (by omega)
  rw [List.drop_zero, hc, List.append_assoc]

include hlen hdist

/-- The record loop goes through the complete records at the beginning of those that symbolCount declares. -/
theorem parseRecords_header {m : Nat} (hm : n = records.length + m) : parseRecords c (be32At c 0) 4 []
    = parseRecords c m (c.length - tail.length) (recordCells records []) := by
  have hoffset : c.length - tail.length = 4 + (records.flatMap HeaderRecord.bytes).length := by
    rw [hc, List.length_append, Nat.add_sub_cancel, List.length_append, length_be32Bytes]
  have hdrop : c.drop 4 = records.flatMap HeaderRecord.bytes ++ tail := by
    rw [hc, List.append_assoc]
    rfl
  have h4 := four_le_length_of_header hc
  rw [be32At_header hn hc, hm, hoffset]
  exact parseRecords_complete c records m 4 [] tail (by omega) hlen hdist (fun _ _ => rfl) hdrop

/-- MalformedHeader of a record that is cut or repeated. -/
theorem parseContainer_of_cutRecord {k : Nat} (hlt : records.length < n)
    (hcut : CutRecord (recordCells records []) tail k) :
    parseContainer c = .error (malformed (c.length - tail.length + k)) := by
  obtain ⟨m, hm⟩ := Nat.exists_eq_add_of_lt hlt
  have h4 := four_le_length_of_header hc
  refine parseContainer_of_parseRecords_error (by omega) ((be32At_header hn hc).trans_le hn) ?_
  rw [parseRecords_header hn hc hlen hdist (m := m + 1) hm]
  exact parseRecords_of_cutRecord (Nat.sub_le _ _) (drop_records hc) hcut m

/-- MalformedHeader of an originalSymbolCount that is cut. -/
theorem parseContainer_of_cut_count (heq : records.length = n) (hshort : tail.length < 4) :
    parseContainer c = .error (malformed (c.length - tail.length)) := by
  have h4 := four_le_length_of_header hc
  refine parseContainer_of_short_count (by omega) ((be32At_header hn hc).trans_le hn)
    (parseRecords_header hn hc hlen hdist (m := 0) heq.symm) (by omega)

end

/-! ### The command RDCONT -/

/-- The effect of an error of RDCONT (R259). -/
theorem exec_rdcont_raised {s : State} {r : Raise} (herr : s.status.err = false)
    (hrun : runRdcont s.accept = .error r) :
    ∃ t, exec .rdcont s = .next t ∧ Raised s t r.kind r.info ∧ Framed .rdcont s t
      ∧ t.osc = 0#32 ∧ t.payLen = 0#32 ∧ ∀ k < 256, (t.codeAt k).valid = false :=
  ⟨_, (exec_rdcont s).trans (congrArg _ (command_error herr .rdcont hrun)), s.raised_raise .rdcont r.kind r.info,
    s.framed_raise (by decide) r, rfl, rfl, fun k _ => State.codeAt_valid_of_cells_nil rfl k⟩

theorem runRdcont_of_parseContainer_error {s : State} {r : Raise} (h : parseContainer s.container = .error r) :
    runRdcont s = .error r := by
  simp [runRdcont, h]

/-- Settles O42: the record loop goes through the complete records and stops at the first field that is cut or repeated. -/
theorem rdcontOfMalformedHeaderRaises : Obligations.RdcontOfMalformedHeaderRaises := by
  intro s p herr h
  suffices hparse : parseContainer s.container = .error (malformed p) from
    exec_rdcont_raised herr (runRdcont_of_parseContainer_error (s := s.accept) hparse)
  rcases h with ⟨hshort, rfl⟩ | ⟨hlen, hcount, rfl⟩ | ⟨n, records, tail, hn, hc, hlen, hdist, h⟩
  · rw [parseContainer, if_pos hshort]
  · rw [parseContainer, if_neg (Nat.not_lt_of_le hlen), if_pos hcount]
  · have h4 := four_le_length_of_header hc
    have hcut := fun k => parseContainer_of_cutRecord (k := k) hn hc hlen hdist
    rcases h with ⟨hlt, rfl, rfl⟩ | ⟨hlt, sym, more, rfl, hold, rfl⟩ | ⟨hlt, sym, rfl, hnew, rfl⟩
      | ⟨hlt, sym, len, field, rfl, hnew, hshort, rfl⟩ | ⟨heq, hshort, rfl⟩
    · exact hcut 0 hlt .noSymbol
    · exact hcut 0 hlt (.repeated ((codeIn_recordCells_isSome hdist).2 hold))
    · rw [hcut 1 hlt (.noLength (codeIn_recordCells_eq_none hdist hnew))]
      simp only [List.length_cons, List.length_nil] at h4 ⊢
      rw [Nat.sub_add_cancel (by omega)]
    · rw [hcut 2 hlt (.shortField (codeIn_recordCells_eq_none hdist hnew) hshort)]
      simp only [List.length_cons] at h4 ⊢
      congr 2
      omega
    · exact parseContainer_of_cut_count hn hc hlen hdist heq hshort

/-- Settles O43: what the body can answer is a state or one of the three errors, the offender's among them. -/
theorem rdcontNeverLeavesHalfReadTable : Obligations.RdcontNeverLeavesHalfReadTable := by
  intro s herr
  rcases runRdcont_cases s.accept with
    ⟨parsed, -, -, -, hrun⟩ | ⟨p, -, hrun⟩ | ⟨parsed, r, -, hcheck, hrun⟩ | ⟨parsed, -, -, -, hrun⟩
  · refine ⟨_, (exec_rdcont s).trans (congrArg _ (command_ok herr .rdcont hrun)), .inl ?_⟩
    simp [Status.ended, herr]
  · obtain ⟨t, hexec, hraised, -, hwiped⟩ := exec_rdcont_raised herr hrun
    exact ⟨t, hexec, .inr ⟨⟨p, .inl hraised⟩, hwiped⟩⟩
  · obtain ⟨t, hexec, hraised, -, hwiped⟩ := exec_rdcont_raised herr hrun
    rcases checkTable_cases (validEntries parsed.cells) with ⟨hok, -⟩ | ⟨e, -, -, hoffender, -⟩
    · cases hcheck.symm.trans hok
    · cases hcheck.symm.trans hoffender
      exact ⟨t, hexec, .inr ⟨⟨e.1, .inr (.inl hraised)⟩, hwiped⟩⟩
  · obtain ⟨t, hexec, hraised, -, hwiped⟩ := exec_rdcont_raised herr hrun
    exact ⟨t, hexec, .inr ⟨⟨6, .inr (.inr hraised)⟩, hwiped⟩⟩

/-! ### RDCONT of a complete container -/

/-- Nonempty codes none of which is a prefix of another leave no offender (R170). -/
theorem not_recordOffends {records : List HeaderRecord} (hlen : ∀ r ∈ records, 1 ≤ r.2.1.toNat)
    (hfree : records.Pairwise fun r q => r.1 ≠ q.1 ∧ ¬ r.bits <+: q.bits ∧ ¬ q.bits <+: r.bits) (k : Nat) :
    ¬ RecordOffends records k := by
  rintro ⟨r, hr, -, hempty | ⟨q, hq, hne, hprefix⟩⟩
  · have := hlen r hr
    simp [hempty] at this
  · have hsymm : Std.Symm fun r q : HeaderRecord => r.1 ≠ q.1 ∧ ¬ r.bits <+: q.bits ∧ ¬ q.bits <+: r.bits :=
      ⟨fun _ _ ⟨hne, hrq, hqr⟩ => ⟨hne.symm, hqr, hrq⟩⟩
    obtain ⟨-, hrq, hqr⟩ := hfree.forall hr hq fun h => hne (congrArg Prod.fst h).symm
    exact hprefix.elim hrq hqr

/-- The state that a normal end of RDCONT leaves with what it parsed (R210). -/
def State.readBack (s : State) (parsed : Parsed) : State :=
  (((s.accept.storeCode parsed.cells).storePay parsed.payload).setOsc (BitVec.ofNat 32 parsed.osc)).finish

theorem exec_rdcont_ended {s : State} {parsed : Parsed} (herr : s.status.err = false)
    (hparse : parseContainer s.container = .ok parsed) (hcheck : checkTable (validEntries parsed.cells) = .ok ())
    (hfit : parsed.payload.length ≤ s.caps.pay.toNat) : exec .rdcont s = .next (s.readBack parsed) := by
  have hrun : runRdcont s.accept = .ok
      (((s.accept.storeCode parsed.cells).storePay parsed.payload).setOsc (BitVec.ofNat 32 parsed.osc)) := by
    simp [runRdcont, hparse, hcheck, Nat.not_lt_of_le hfit]
  exact (exec_rdcont s).trans (congrArg _ (command_ok herr .rdcont hrun))

theorem State.payload_readBack {s : State} {parsed : Parsed} (hfit : parsed.payload.length ≤ s.caps.pay.toNat) :
    (s.readBack parsed).payLen.toNat = parsed.payload.length ∧ (s.readBack parsed).payload = parsed.payload := by
  have hlen : (s.readBack parsed).payLen.toNat = parsed.payload.length :=
    (BitVec.toNat_ofNat _ 32).trans (Nat.mod_eq_of_lt (Nat.lt_of_le_of_lt hfit s.caps.pay.isLt))
  refine ⟨hlen, ?_⟩
  rw [State.payload, hlen]
  exact Space.map_read_filled (Config.freeByte .pay) (s.draws + 1) parsed.payload

/-- Settles O41: the table of the records has no offender, so RDCONT stores it, with the count and the bytes that remain. -/
theorem rdcontReadsContainer : Obligations.RdcontReadsContainer := by
  intro s records osc payload herr _ hrecords hfree hcontainer hfit
  have hdist : records.Pairwise fun r q => r.1 ≠ q.1 := hfree.imp And.left
  have hparse := parseContainer_complete (fun r hr => (hrecords r hr).2) hdist hcontainer
  have hcheck : checkTable (validEntries (recordCells records [])) = .ok () :=
    checkTable_eq_ok.2 ((offender_validEntries_eq_none fun _ => recordOffends_iff hdist).2
      (not_recordOffends (fun r hr => (hrecords r hr).1) hfree))
  obtain ⟨hlen, hpayload⟩ := State.payload_readBack (parsed := ⟨recordCells records [], osc.toNat, payload⟩) hfit
  refine ⟨_, exec_rdcont_ended herr hparse hcheck hfit, fun r hr => ?_, fun k _ hk => ?_, ?_, hlen, hpayload,
    by simp [State.readBack, Status.ended, herr], (NormalEnd.rdcont (s := s.accept) _ hparse hfit).framed, rfl, rfl⟩
  · exact State.codeAt_eq_valid.2 ((codeIn_recordCells records [] hdist _ _).2 (.inl ⟨r, hr, rfl, rfl⟩))
  · rw [← Bool.not_eq_true, State.codeAt_valid]
    rintro ⟨code, hcode⟩
    rcases (codeIn_recordCells records [] hdist k code).1 hcode with ⟨r, hr, hsym, -⟩ | ⟨-, hnil⟩
    · exact hk r hr hsym
    · cases hnil
  · exact BitVec.ofNat_toNat 32 osc

/-! ### RDCONT after WRCONT (R218) -/

/-- The header record of a table entry, its padding bits zero. -/
def HeaderRecord.ofEntry (e : Nat × Code) : HeaderRecord :=
  (BitVec.ofNat 8 e.1, BitVec.ofNat 8 e.2.bits.length, packBits e.2.bits)

theorem HeaderRecord.toNat_length_ofEntry (e : Nat × Code) :
    (HeaderRecord.ofEntry e).2.1.toNat = e.2.bits.length :=
  (BitVec.toNat_ofNat _ 8).trans (Nat.mod_eq_of_lt (Nat.lt_succ_of_le e.2.short))

@[simp] theorem HeaderRecord.bits_ofEntry (e : Nat × Code) : (HeaderRecord.ofEntry e).bits = e.2.bits := by
  rw [HeaderRecord.bits, HeaderRecord.toNat_length_ofEntry]
  exact unpackBits_packBits e.2.bits

theorem Code.clip_bits (c : Code) : Code.clip c.bits = c := Code.ext (List.take_of_length_le c.short)

/-- The header records that WRCONT writes (R201). -/
def State.records (s : State) : List HeaderRecord := s.table.map HeaderRecord.ofEntry

theorem State.containerBytes_records (s : State) : containerBytes s.table s.osc.toNat s.payload
    = be32Bytes s.records.length ++ s.records.flatMap HeaderRecord.bytes ++ be32Bytes s.osc.toNat ++ s.payload := by
  rw [State.records, List.length_map, List.flatMap_map]
  rfl

theorem State.toNat_symbol_ofEntry {s : State} {e : Nat × Code} (he : e ∈ s.table) :
    (HeaderRecord.ofEntry e).1.toNat = e.1 :=
  (BitVec.toNat_ofNat _ 8).trans (Nat.mod_eq_of_lt (State.mem_table.1 he).1)

/-- No code of a valid table is a prefix of another (V2), in the terms of its members. -/
theorem State.TableValid.not_prefix {s : State} (htable : s.TableValid) {e f : Nat × Code} (he : e ∈ s.table)
    (hf : f ∈ s.table) (hne : e.1 ≠ f.1) : ¬ e.2.bits <+: f.2.bits := by
  obtain ⟨hj, hej⟩ := State.mem_table.1 he
  obtain ⟨hk, hfk⟩ := State.mem_table.1 hf
  have h := htable.2 e.1 hj f.1 hk hne (by rw [hej]) (by rw [hfk])
  rwa [hej, hfk] at h

/-- The records of a valid table are complete, of distinct symbols and of nonempty codes none of which is a prefix of
another. -/
theorem State.TableValid.records {s : State} (htable : s.TableValid) :
    (∀ r ∈ s.records, 1 ≤ r.2.1.toNat ∧ r.2.2.length = ceil8 r.2.1.toNat)
      ∧ s.records.Pairwise fun r q => r.1 ≠ q.1 ∧ ¬ r.bits <+: q.bits ∧ ¬ q.bits <+: r.bits := by
  constructor
  · intro r hr
    obtain ⟨e, he, rfl⟩ := List.mem_map.1 hr
    obtain ⟨hk, hcode⟩ := State.mem_table.1 he
    have hpos := htable.1 e.1 hk (by rw [hcode])
    rw [hcode] at hpos
    rw [HeaderRecord.toNat_length_ofEntry]
    exact ⟨hpos, length_packBits _⟩
  · refine List.pairwise_map.2 ((validEntries_ascending s.code.cells).imp_of_mem fun {e f} he hf hlt => ?_)
    have hne : e.1 ≠ f.1 := Nat.ne_of_lt hlt
    rw [HeaderRecord.bits_ofEntry, HeaderRecord.bits_ofEntry]
    refine ⟨fun hsym => hne ?_, htable.not_prefix he hf hne, htable.not_prefix hf he hne.symm⟩
    rw [← State.toNat_symbol_ofEntry he, ← State.toNat_symbol_ofEntry hf, hsym]

/-- A state whose entries are those of the records of `s` has the entries of `s`. -/
theorem State.codeAt_of_records {s u : State}
    (hvalid : ∀ r ∈ s.records, u.codeAt r.1.toNat = ⟨true, Code.clip r.bits⟩)
    (hother : ∀ k < 256, (∀ r ∈ s.records, r.1.toNat ≠ k) → (u.codeAt k).valid = false) {k : Nat} (hk : k < 256) :
    (u.codeAt k).valid = (s.codeAt k).valid
      ∧ ((s.codeAt k).valid = true → (u.codeAt k).code = (s.codeAt k).code) := by
  by_cases hv : (s.codeAt k).valid = true
  · have he := State.mem_table_of_valid hk hv
    have hu := hvalid _ (List.mem_map_of_mem he)
    rw [State.toNat_symbol_ofEntry he, HeaderRecord.bits_ofEntry, Code.clip_bits] at hu
    rw [hu, hv]
    exact ⟨rfl, fun _ => rfl⟩
  · refine ⟨?_, fun h => absurd h hv⟩
    rw [Bool.eq_false_iff.2 hv]
    refine hother k hk fun r hr hsym => hv ?_
    obtain ⟨e, he, rfl⟩ := List.mem_map.1 hr
    rw [State.toNat_symbol_ofEntry he] at hsym
    rw [← hsym, (State.mem_table.1 he).2]

theorem State.container_eq_of_contAt_eq {s t : State} (hlen : t.contLen = s.contLen)
    (hcont : ∀ i < s.contLen.toNat, t.contAt i = s.contAt i) : t.container = s.container := by
  rw [State.container, State.container, hlen]
  exact List.map_congr_left fun i hi => hcont i (List.mem_range.1 hi)

/-- Settles O44: RDCONT reads the records of the table back into the same entries, and WRCONT writes the bytes of a table,
a count and a payload alone (R203). -/
theorem rdcontAfterWrcontRestoresAll : Obligations.RdcontAfterWrcontRestoresAll := by
  intro s t t' herr hexec hend herr' hcontLen hcont hcapPay
  obtain ⟨htable, hfit⟩ := premises_of_exec_wrcont herr hexec hend
  cases (exec_wrcont_ended herr htable hfit).symm.trans hexec
  obtain ⟨hlen, hbytes⟩ := State.container_written hfit
  obtain ⟨hrecords, hfree⟩ := htable.records
  have hdist : s.records.Pairwise fun r q => r.1 ≠ q.1 := hfree.imp And.left
  have hcontainer : t'.container = be32Bytes s.records.length ++ s.records.flatMap HeaderRecord.bytes
      ++ be32Bytes s.osc.toNat ++ s.payload :=
    (State.container_eq_of_contAt_eq hcontLen hcont).trans (hbytes.trans s.containerBytes_records)
  obtain ⟨u, hread, hvalid, hother, hosc, hpayLen, hpayload, hstatus, ⟨-, hcaps, -⟩, -⟩ :=
    rdcontReadsContainer t' s.records s.osc s.payload herr' (length_le_of_distinct hdist) hrecords hfree hcontainer
      (s.length_payload ▸ hcapPay)
  have hcode := fun k hk => State.codeAt_of_records hvalid hother (k := k) hk
  have hpayWord : u.payLen = s.payLen := BitVec.eq_of_toNat_eq (hpayLen.trans s.length_payload)
  have hsame : u.table = s.table := State.table_congr (fun k hk => (hcode k hk).1) fun k hk => (hcode k hk).2
  have herrU : u.status.err = false := congrArg Status.err hstatus
  refine ⟨u, hread, herrU, hcode, hosc, hpayWord, hpayload, fun hcapCont => ?_⟩
  have htableU : u.TableValid := State.offender_table_eq_none.1 (hsame ▸ State.offender_table_eq_none.2 htable)
  have hfitU : containerLength u.table u.payLen.toNat ≤ u.caps.cont.toNat := by
    rw [hsame, hpayWord, ← hlen, ← hcontLen, hcaps]
    exact hcapCont
  refine ⟨_, exec_wrcont_ended herrU htableU hfitU, herrU, ?_⟩
  rw [(State.container_written hfitU).2, hbytes, hsame, hosc, hpayload]

end Sys2Proof.Machine
end

section
/-! SUPPORT. The control commands (R230, R232), what a latched error ignores, and that every step of an idle block with a
tree of R50 gives a next state. -/

namespace Sys2Proof.Machine

/-! ### Every command gives a next state -/

/-- Only GENCODE can stop the machine, and only with no error latched and where its walk has no answer. -/
theorem exists_exec_next {s : State} (h : s.status.err = true ∨ s.walkTree ≠ none) (i : Instr) :
    ∃ t, exec i s = .next t := by
  cases i with
  | gencode =>
    rcases exec_gencode_cases s with ⟨-, hexec⟩ | ⟨-, leaves, -, hexec⟩ | ⟨herr, hwalk, -⟩
    · exact ⟨_, hexec⟩
    · exact ⟨_, hexec⟩
    · rcases h with h | h
      · cases herr.symm.trans h
      · exact absurd hwalk h
  | _ => exact ⟨_, rfl⟩

/-- While an error is latched every command but CLR is ignored (R230). -/
theorem exec_latched {s : State} {i : Instr} (herr : s.status.err = true) (hi : i ≠ .clr) : exec i s = .next s := by
  obtain ⟨t, hexec⟩ := exists_exec_next (.inl herr) i
  rw [hexec, (execResult_of_exec hexec).eq_of_latched hi herr]

/-- No command but CLR ends with ERR = 0 while an error is latched. -/
theorem err_false_of_exec {s t : State} {i : Instr} (hi : i ≠ .clr) (hexec : exec i s = .next t)
    (hend : t.status.err = false) : s.status.err = false := by
  refine Bool.eq_false_iff.2 fun herr => ?_
  cases (exec_latched herr hi).symm.trans hexec
  cases hend.symm.trans herr

/-! ### NOP, and command words while an error is latched -/

/-- Settles O15: the body of NOP is its own state, so only the handshake is left of the frame of a command. -/
theorem nopOnlySetsDone : Obligations.NopOnlySetsDone :=
  fun s => ⟨fun herr => (exec_nop s).trans (congrArg _ (command_ok (t := s.accept) herr .nop rfl)),
    fun herr => exec_latched herr nofun⟩

/-- Settles O5: a word that decodes is the word of a command other than CLR, and any other word is illegal; a latched error
ignores both. -/
theorem latchedErrorIgnoresCommandWords : Obligations.LatchedErrorIgnoresCommandWords := by
  intro s w rest hin hbusy herr hw
  cases hd : decodeWord w with
  | ok i =>
    have hi : i ≠ .clr := by
      rintro rfl
      exact hw (decodeWord_eq_ok_iff.1 hd)
    exact (stepRunsDecodedCommand s w rest i hin hbusy hd).trans (exec_latched herr hi)
  | error e =>
    rw [step_illegalWord hin hbusy hd]
    rcases illegalCommand_cases w (s.setInputs rest) with ⟨-, hsame⟩ | ⟨hnot, -⟩
    · rw [hsame]
    · cases herr.symm.trans hnot

/-! ### Every step gives a next state -/

/-- The walk has an answer on each of the three shapes of R50. -/
theorem State.TreeOk.walkTree_ne_none {s : State} (h : s.TreeOk) : s.walkTree ≠ none := by
  rcases h with hempty | hsingle | ⟨N, hfull⟩
  · simp [State.walkTree_of_root_none hempty.root]
  · simp [hsingle.walkTree]
  · obtain ⟨leaves, hwalk, -⟩ := hfull.walkTree
    simp [hwalk]

theorem State.TreeOk.exists_performIdle_next {s : State} (h : s.TreeOk) (a : Input) :
    ∃ t, performIdle a s = .next t := by
  rcases performIdle_cases a s with ⟨-, hx⟩ | ⟨_, _, -, hx⟩ | ⟨_, i, -, -, hx⟩ | ⟨_, _, -, -, hx⟩ | ⟨_, -, -, hx⟩
  · exact ⟨_, hx⟩
  · exact ⟨_, hx⟩
  · rw [hx]
    exact exists_exec_next (.inr h.walkTree_ne_none) i
  · exact ⟨_, hx⟩
  · exact ⟨_, hx⟩

theorem HostWritten.caps {s t : State} (h : HostWritten s t) : t.caps = s.caps := by
  cases h <;> rfl

/-- The capacities are parameters that no step changes (R7). -/
theorem preserved_caps (c : Caps) : Preserved fun s => s.caps = c where
  setInputs _ h := h
  answerRead _ _ h := h
  clear h := h
  clearDone h := h
  ended _ h hend := hend.framed.2.1.trans h
  raised c r h := (State.raise_caps c r _).trans h
  written h hw := hw.caps.trans h

/-- Settles O55: an input finds a tree that GENCODE can walk, and no input changes the capacities. -/
theorem stepAlwaysCompletes : Obligations.StepAlwaysCompletes := by
  intro s hbusy htree
  have hnext : ∃ t, step s = .next t := by
    cases hin : s.inputs with
    | nil => exact ⟨s, step_idle hin⟩
    | cons a rest =>
      rw [step_performIdle hin hbusy]
      exact (preserved_treeOk.setInputs rest htree).exists_performIdle_next a
  obtain ⟨t, ht⟩ := hnext
  exact ⟨t, ht, (preserved_caps s.caps).step rfl ht⟩

end Sys2Proof.Machine
end

section
/-! SUPPORT. The whole flow through a container (R245): COMPRESS_FILE, and DECOMPRESS_FILE on the container it leaves. -/

namespace Sys2Proof.Machine

/-! ### Tables with the same valid entries -/

section
variable {s u : State} (hentry : ∀ k < 256, (u.codeAt k).valid = (s.codeAt k).valid
  ∧ ((s.codeAt k).valid = true → (u.codeAt k).code = (s.codeAt k).code))
include hentry

theorem State.TableValid.of_entries_eq (h : s.TableValid) : u.TableValid := by
  have htable : u.table = s.table :=
    State.table_congr (fun k hk => (hentry k hk).1) fun k hk => (hentry k hk).2
  rw [← State.offender_table_eq_none] at h ⊢
  rwa [htable]

theorem State.Coded.of_entries_eq {l : List Byte} (h : s.Coded l) : u.Coded l :=
  fun b hb => (hentry b.toNat b.isLt).1.trans (h b hb)

theorem State.Coded.flatMap_codeBits_eq {l : List Byte} (h : s.Coded l) :
    l.flatMap u.codeBits = l.flatMap s.codeBits :=
  List.flatMap_congr fun b hb => congrArg Code.bits ((hentry b.toNat b.isLt).2 (h b hb))

end

/-! ### The two halves of the flow -/

theorem execAll_append {l : List Instr} {s t : State} (h : execAll l s = .next t) (rest : List Instr) :
    execAll (l ++ rest) s = execAll rest t := by
  induction l generalizing s with
  | nil =>
    cases h
    rfl
  | cons i l ih =>
    cases hexec : exec i s with
    | next s' =>
      rw [execAll_cons hexec] at h
      rw [List.cons_append, execAll_cons hexec, ih h]
    | fault f => simp [execAll, hexec] at h
    | refused r => simp [execAll, hexec] at h

/-- A normal end of COMPRESS_FILE is one of ENCODE, on a table made of the same input, and then of WRCONT. -/
theorem exec_encode_wrcont_of_compressFile {s t : State} (herr : s.status.err = false)
    (hexec : execAll Pseudo.compressFile.commands s = .next t) (hend : t.status.err = false) :
    ∃ g e, exec .encode g = .next e ∧ exec .wrcont e = .next t ∧ g.status.err = false ∧ e.status.err = false
      ∧ g.inLen = s.inLen ∧ g.input = s.input := by
  obtain ⟨_, g, -, htable, -, hg, hinLen, hinput, -⟩ := execAll_freq_build_gencode herr
  have hrest := (execAll_append htable [.encode, .wrcont]).symm.trans hexec
  have hencode := exec_encode g
  rw [execAll_cons hencode, execAll_cons (exec_wrcont _)] at hrest
  have hwrcont : exec .wrcont (command .encode runEncode g) = .next t := (exec_wrcont _).trans hrest
  exact ⟨g, _, hencode, hwrcont, hg, err_false_of_exec (i := .wrcont) nofun hwrcont hend, hinLen, hinput⟩

/-- DECODE restores a byte sequence from its packed codes: the padding is left over (R187). -/
theorem exec_decode_of_packed_codes {s : State} {l : List Byte} (herr : s.status.err = false) (htable : s.TableValid)
    (hcoded : s.Coded l) (hosc : l.length = s.osc.toNat) (hcap : s.osc.toNat ≤ s.caps.out.toNat)
    (hpayload : s.payload = packBits (l.flatMap s.codeBits)) :
    ∃ u, exec .decode s = .next u ∧ u.status.err = false ∧ u.outLen = s.osc ∧ u.output = l := by
  have hlen : s.payLen.toNat = ceil8 (l.flatMap s.codeBits).length := by
    rw [← s.length_payload, hpayload, length_packBits]
  obtain ⟨u, hexec, houtLen, houtput, hstatus, -⟩ := decodeEmitsCodedSymbols s l _ herr htable hcap hosc hcoded
    (by rw [hpayload, hlen, unpackBits_packBits_all])
  exact ⟨u, hexec, congrArg Status.err hstatus, houtLen, houtput⟩

/-- Settles O57: RDCONT gives back the valid entries, the count and the payload that WRCONT wrote, which are those that
ENCODE packed the input with. -/
theorem decompressFileRestoresInput : Obligations.DecompressFileRestoresInput := by
  intro s t t' herr hexec hend herr' hcontLen hcont hcapPay hcapOut
  obtain ⟨g, e, hencode, hwrcont, hg, he, hinLen, hinput⟩ := exec_encode_wrcont_of_compressFile herr hexec hend
  obtain ⟨htable, hcoded, hfit⟩ := premises_of_exec_encode hg hencode he
  obtain ⟨_, hencode', hpayload, -, hosc, -, hframe, -⟩ :=
    encodePacksConcatenatedCodes g hg htable (State.coded_input.1 hcoded) hfit
  cases hencode'.symm.trans hencode
  have hpayLen : t.payLen = e.payLen :=
    Value.word.inj ((execResult_of_exec hwrcont).framed.1 .reg 6 (by simp [mayChange]))
  obtain ⟨u, hrdcont, hu, hentry, hoscU, -, hpayloadU, -⟩ :=
    rdcontAfterWrcontRestoresAll e t t' he hwrcont hend herr' hcontLen hcont (hpayLen ▸ hcapPay)
  simp only [fun k => hframe.codeAt_eq (k := k) id] at hentry
  have hcaps : u.caps = t'.caps := (execResult_of_exec hrdcont).framed.2.1
  have hcount : u.osc = s.inLen := hoscU.trans (hosc.trans hinLen)
  obtain ⟨v, hdecode, hv, houtLen, houtput⟩ := exec_decode_of_packed_codes hu (htable.of_entries_eq hentry)
    (hcoded.of_entries_eq hentry) (by rw [g.length_input, hcount, hinLen]) (by rwa [hcount, hcaps])
    (by rw [hpayloadU, hpayload, hcoded.flatMap_codeBits_eq hentry])
  exact ⟨v, (execAll_cons hrdcont _).trans (execAll_cons hdecode _), hv, houtLen.trans hcount, houtput.trans hinput⟩

end Sys2Proof.Machine
end

section
/-! SUPPORT. A held state, a block with BUSY = 1, a latched error and CLR (R260, R261, R293, R300). -/

namespace Sys2Proof.Machine

/-- Settles O7: a step takes the first of the pending inputs, and none is pending. -/
theorem stepHoldsStateWithoutInput : Obligations.StepHoldsStateWithoutInput := fun _ hin => step_idle hin

/-! ### BUSY = 1 -/

/-- Everything one input can do while BUSY = 1: the reset state, a read of STATUS, the refusal of R300. -/
theorem performBusy_cases (a : Input) (s : State) :
    (a = .reset ∧ performBusy a s = .next s.clear)
    ∨ (a = .read .reg 1 ∧ performBusy a s = .next (s.answerRead .reg 1))
    ∨ (a ≠ .reset ∧ a ≠ .read .reg 1 ∧ performBusy a s = .refused .hostAccessWhileBusy) := by
  unfold performBusy
  split
  · exact .inl ⟨rfl, rfl⟩
  · exact .inr (.inl ⟨rfl, rfl⟩)
  · rename_i sp i hstatus
    exact .inr (.inr ⟨nofun, fun h => by cases h; exact hstatus rfl rfl, rfl⟩)
  · exact .inr (.inr ⟨nofun, nofun, rfl⟩)

/-- Settles O12: of the three answers of a block with BUSY = 1, a read of STATUS gets the second and every other host access
the third. -/
theorem busyBlockAnswersOnlyStatus : Obligations.BusyBlockAnswersOnlyStatus := by
  intro s a rest hin hbusy hreset
  rw [step_performBusy hin hbusy]
  rcases performBusy_cases a (s.setInputs rest) with ⟨h, -⟩ | ⟨h, hx⟩ | ⟨-, h, hx⟩
  · exact absurd h hreset
  · exact ⟨fun _ => hx, fun hne => absurd h hne⟩
  · exact ⟨fun heq => absurd heq h, fun _ => hx⟩

/-! ### A latched error (R260) -/

/-- `SameLatch s t`: STATUS, ERRCODE and ERRINFO of `t` are those of `s`. -/
def State.SameLatch (s t : State) : Prop := t.status = s.status ∧ t.errcode = s.errcode ∧ t.errinfo = s.errinfo

theorem sameLatch_of_performIdle {s t : State} {a : Input} (herr : s.status.err = true)
    (h : performIdle a s = .next t) (hreset : a ≠ .reset) (hclr : a ≠ .write (.reg 0 (encode .clr))) :
    s.SameLatch t := by
  rcases performIdle_cases a s with ⟨ha, -⟩ | ⟨sp, n, -, hx⟩ | ⟨w, i, rfl, hd, hx⟩ | ⟨w, e, -, -, hx⟩ | ⟨v, -, -, hx⟩
  · exact absurd ha hreset
  · cases hx.symm.trans h
    exact ⟨rfl, rfl, rfl⟩
  · have hi : i ≠ .clr := by
      rintro rfl
      exact hclr (by rw [decodeWord_eq_ok_iff.1 hd])
    cases (hx.symm.trans h).symm.trans (exec_latched herr hi)
    exact ⟨rfl, rfl, rfl⟩
  · cases hx.symm.trans h
    rcases illegalCommand_cases w s with ⟨-, hsame⟩ | ⟨hnot, -⟩
    · rw [hsame]
      exact ⟨rfl, rfl, rfl⟩
    · cases herr.symm.trans hnot
  · cases hx.symm.trans h
    exact (hostWritten_hostWrite s v).status_latch

theorem sameLatch_of_performBusy {s t : State} {a : Input} (h : performBusy a s = .next t) (hreset : a ≠ .reset) :
    s.SameLatch t := by
  rcases performBusy_cases a s with ⟨ha, -⟩ | ⟨-, hx⟩ | ⟨-, -, hx⟩
  · exact absurd ha hreset
  · cases hx.symm.trans h
    exact ⟨rfl, rfl, rfl⟩
  · cases hx.symm.trans h

/-- One input other than reset and CLR's word leaves a latched error as it is, BUSY or not. -/
theorem sameLatch_of_perform {s t : State} {a : Input} (herr : s.status.err = true) (h : perform a s = .next t)
    (hreset : a ≠ .reset) (hclr : a ≠ .write (.reg 0 (encode .clr))) : s.SameLatch t := by
  cases hbusy : s.status.busy
  · exact sameLatch_of_performIdle herr ((perform_idle hbusy a).symm.trans h) hreset hclr
  · exact sameLatch_of_performBusy ((perform_busy hbusy a).symm.trans h) hreset

/-- Settles O6: the next input, if there is one, is the reset event, a write of CLR's word, or one that keeps the latch. -/
theorem firstErrorStaysLatched : Obligations.FirstErrorStaysLatched := by
  intro s t herr hstep
  cases hin : s.inputs with
  | nil =>
    cases (step_idle hin).symm.trans hstep
    exact .inr (.inr ⟨herr, rfl, rfl⟩)
  | cons a rest =>
    rw [step_input hin] at hstep
    by_cases hreset : a = .reset
    · exact .inl ⟨rest, by rw [hreset]⟩
    by_cases hclr : a = .write (.reg 0 (encode .clr))
    · exact .inr (.inl ⟨rest, by rw [hclr]⟩)
    obtain ⟨hstatus, hcode, hinfo⟩ := sameLatch_of_perform (s := s.setInputs rest) herr hstep hreset hclr
    exact .inr (.inr ⟨(congrArg Status.err hstatus).trans herr, hcode, hinfo⟩)

/-! ### CLR and the reset event (R293) -/

/-- The end of a command writes no register but STATUS (R230). -/
theorem State.register_finish_of_ne (s : State) {n : Nat} (hn : n ≠ 1) : s.finish.register n = s.register n := by
  unfold State.register
  split
  case h_1 => exact absurd rfl hn
  all_goals rfl

/-- The registers after CLR: those of the reset state, but for DONE. -/
theorem State.register_clearDone (s : State) (n : Nat) :
    s.clearDone.register n = if n = 1 then 2#32 else if n = 11 then 0xFFFFFFFF#32 else 0#32 := by
  by_cases hn : n = 1
  · subst hn
    rfl
  · rw [if_neg hn, State.clearDone, State.register_finish_of_ne _ hn, State.register_clear, State.register_reset]

/-- Settles O14: CLR clears the state as the reset event does, and then ends as a command. -/
theorem clrGivesResetWithDone : Obligations.ClrGivesResetWithDone :=
  fun s => ⟨s.clearDone, exec_clr s, ⟨_, step_reset rfl, rfl⟩, s.register_clearDone,
    fun k _ => ⟨rfl, State.codeAt_valid_of_cells_nil rfl k⟩, rfl, rfl, rfl⟩

end Sys2Proof.Machine
end

section
/-! SUPPORT. The errors of the commands: which kinds each raises (R258), what the error effect leaves (R259), and the results
that do not fit their buffer (R256). -/

namespace Sys2Proof.Machine

/-! ### The kinds a body raises (R258) -/

theorem kind_of_checkTable_error {table : List (Nat × Code)} {r : Raise} (h : checkTable table = .error r) :
    r.kind = .invalidCode := by
  rcases checkTable_cases table with ⟨hok, -⟩ | ⟨e, -, -, herr, -⟩
  · cases hok.symm.trans h
  · cases herr.symm.trans h
    rfl

theorem kind_of_encodeLoop_error {cells : Memory CodeCell} {cap i : Nat} {l : List Byte} {bits : List Bool} {r : Raise}
    (h : encodeLoop cells cap l i bits = .error r) : r.kind = .missingCode ∨ r.kind = .capacity := by
  rcases encodeLoop_cases (cells := cells) (cap := cap) l i bits with
    ⟨hok, -⟩ | ⟨_, _, _, -, -, -, ⟨-, herr⟩ | ⟨-, -, herr⟩⟩
  · cases hok.symm.trans h
  · cases herr.symm.trans h
    exact .inl rfl
  · cases herr.symm.trans h
    exact .inr rfl

theorem kind_mem_raisable_of_runPack {s : State} {r : Raise} (h : runPack s = .error r) : r.kind ∈ raisable .pack := by
  rcases runPack_cases s with ⟨-, hok⟩ | ⟨-, herr⟩
  · cases hok.symm.trans h
  · cases herr.symm.trans h
    decide

theorem kind_mem_raisable_of_runUnpack {s : State} {r : Raise} (h : runUnpack s = .error r) :
    r.kind ∈ raisable .unpack := by
  rcases runUnpack_cases s with ⟨-, hok⟩ | ⟨-, herr⟩
  · cases hok.symm.trans h
  · cases herr.symm.trans h
    exact List.mem_singleton_self _

theorem kind_mem_raisable_of_runEncode {s : State} {r : Raise} (h : runEncode s = .error r) :
    r.kind ∈ raisable .encode := by
  rcases runEncode_cases s with ⟨_, -, -, hok⟩ | ⟨r', hcheck, herr⟩ | ⟨r', -, hloop, herr⟩
  · cases hok.symm.trans h
  · cases herr.symm.trans h
    rw [kind_of_checkTable_error hcheck]
    decide
  · cases herr.symm.trans h
    rcases kind_of_encodeLoop_error hloop with hk | hk <;> rw [hk] <;> decide

theorem kind_mem_raisable_of_runDecode {s : State} {r : Raise} (h : runDecode s = .error r) :
    r.kind ∈ raisable .decode := by
  rcases runDecode_cases s with
    ⟨_, -, -, -, -, hok⟩ | ⟨r', hcheck, herr⟩ | ⟨-, -, herr⟩ | ⟨_, -, -, -, -, herr⟩
  · cases hok.symm.trans h
  · cases herr.symm.trans h
    rw [kind_of_checkTable_error hcheck]
    decide
  · cases herr.symm.trans h
    decide
  · cases herr.symm.trans h
    exact List.mem_cons_self

theorem kind_mem_raisable_of_runWrcont {s : State} {r : Raise} (h : runWrcont s = .error r) :
    r.kind ∈ raisable .wrcont := by
  rcases runWrcont_cases s with ⟨-, -, hok⟩ | ⟨r', hcheck, herr⟩ | ⟨-, -, herr⟩
  · cases hok.symm.trans h
  · cases herr.symm.trans h
    rw [kind_of_checkTable_error hcheck]
    decide
  · cases herr.symm.trans h
    decide

theorem kind_mem_raisable_of_runRdcont {s : State} {r : Raise} (h : runRdcont s = .error r) :
    r.kind ∈ raisable .rdcont := by
  rcases runRdcont_cases s with
    ⟨_, -, -, -, hok⟩ | ⟨_, -, herr⟩ | ⟨_, r', -, hcheck, herr⟩ | ⟨_, -, -, -, herr⟩
  · cases hok.symm.trans h
  · cases herr.symm.trans h
    exact List.mem_cons_self
  · cases herr.symm.trans h
    rw [kind_of_checkTable_error hcheck]
    decide
  · cases herr.symm.trans h
    decide

/-! ### Every error of a command -/

/-- An error of a command run in the frame of R230 is one that its body raises: a normal end sets no ERR. -/
theorem exists_raise_of_command {s : State} {i : Instr} {body : State → Except Raise State}
    (herr : s.status.err = false) (ht : (command i body s).status.err = true)
    (hok : ∀ {u}, body s.accept = .ok u → NormalEnd s.accept i u)
    (hkind : ∀ {r}, body s.accept = .error r → r.kind ∈ raisable i) :
    ∃ r : Raise, r.kind ∈ raisable i ∧ command i body s = s.accept.raise (some i) r := by
  rcases command_cases i body s with ⟨hlatched, -⟩ | ⟨-, u, hb, hx⟩ | ⟨-, r, hb, hx⟩
  · cases herr.symm.trans hlatched
  · rw [hx] at ht
    have hu : u.status.err = false := (hok hb).latch.1.trans herr
    cases hu.symm.trans ht
  · exact ⟨r, hkind hb, hx⟩

/-- Every command that ends with ERR = 1 ends in the error effect of a kind that it can raise (R258, R259). -/
theorem exists_raise_of_exec {s t : State} {i : Instr} (herr : s.status.err = false) (hexec : exec i s = .next t)
    (ht : t.status.err = true) : ∃ r : Raise, r.kind ∈ raisable i ∧ t = s.accept.raise (some i) r := by
  cases i with
  | nop | freq | build | gencode =>
    have hsame := (execResult_of_exec hexec).err nofun rfl
    cases (hsame.trans herr).symm.trans ht
  | clr =>
    cases hexec
    cases ht
  | pack =>
    cases hexec
    exact exists_raise_of_command herr ht normalEnd_of_runPack kind_mem_raisable_of_runPack
  | unpack =>
    cases hexec
    exact exists_raise_of_command herr ht normalEnd_of_runUnpack kind_mem_raisable_of_runUnpack
  | encode =>
    cases hexec
    exact exists_raise_of_command herr ht normalEnd_of_runEncode kind_mem_raisable_of_runEncode
  | decode =>
    cases hexec
    exact exists_raise_of_command herr ht normalEnd_of_runDecode kind_mem_raisable_of_runDecode
  | wrcont =>
    cases hexec
    exact exists_raise_of_command herr ht normalEnd_of_runWrcont kind_mem_raisable_of_runWrcont
  | rdcont =>
    cases hexec
    exact exists_raise_of_command herr ht normalEnd_of_runRdcont kind_mem_raisable_of_runRdcont

/-- Settles O47: the error effect stores the number of the kind raised. -/
theorem commandsRaiseOnlyTheirKinds : Obligations.CommandsRaiseOnlyTheirKinds := by
  intro i s t herr hexec ht
  obtain ⟨r, hkind, rfl⟩ := exists_raise_of_exec herr hexec ht
  exact ⟨r.kind, hkind, rfl⟩

/-- Settles O46: the state is that of the error effect, which zeroes the registers of the destinations, empties the table that
RDCONT writes, and changes nothing else. -/
theorem errorEffectOfEveryCommand : Obligations.ErrorEffectOfEveryCommand := by
  intro i s t herr hexec ht
  obtain ⟨r, hkind, rfl⟩ := exists_raise_of_exec herr hexec ht
  refine ⟨⟨r.kind, r.info, s.raised_raise i r.kind r.info⟩,
    fun n hn => s.accept.register_raise_of_mem_zeroedOnError r hn, ?_, s.framed_raise (List.ne_nil_of_mem hkind) r⟩
  rintro rfl k _
  exact State.codeAt_valid_of_cells_nil rfl k

/-! ### Results beyond a capacity (R256) -/

theorem exec_pack_raised {s : State} (herr : s.status.err = false) (hcap : s.caps.pay.toNat < ceil8 s.bitsLen.toNat) :
    exec .pack s = .next (s.accept.raise (some .pack) { kind := .capacity, info := 6 }) := by
  rcases runPack_cases s.accept with ⟨hfit, -⟩ | ⟨-, hrun⟩
  · exact absurd hcap (Nat.not_lt_of_le hfit)
  · exact (exec_pack s).trans (congrArg _ (command_error herr .pack hrun))

theorem exec_decode_raised_capacity {s : State} (herr : s.status.err = false) (htable : s.TableValid)
    (hcap : s.caps.out.toNat < s.osc.toNat) :
    exec .decode s = .next (s.accept.raise (some .decode) { kind := .capacity, info := 8 }) := by
  have hcheck := State.checkTable_table_eq_ok.2 htable
  have hrun : runDecode s.accept = .error { kind := .capacity, info := 8 } := by
    simp [runDecode, hcheck, hcap, SpaceId.number]
  exact (exec_decode s).trans (congrArg _ (command_error herr .decode hrun))

theorem exec_wrcont_raised_capacity {s : State} (herr : s.status.err = false) (htable : s.TableValid)
    (hcap : s.caps.cont.toNat < containerLength s.table s.payLen.toNat) :
    exec .wrcont s = .next (s.accept.raise (some .wrcont) { kind := .capacity, info := 7 }) := by
  have hcheck := State.checkTable_table_eq_ok.2 htable
  have hrun : runWrcont s.accept = .error { kind := .capacity, info := 7 } := by
    simp [runWrcont, hcheck, hcap, SpaceId.number]
  exact (exec_wrcont s).trans (congrArg _ (command_error herr .wrcont hrun))

theorem runRdcont_of_payload_beyond_capacity {s : State} {parsed : Parsed}
    (hparse : parseContainer s.container = .ok parsed) (hcheck : checkTable (validEntries parsed.cells) = .ok ())
    (hcap : s.caps.pay.toNat < parsed.payload.length) : runRdcont s = .error { kind := .capacity, info := 6 } := by
  simp [runRdcont, hparse, hcheck, hcap, SpaceId.number]

/-- Settles O45: each body compares the length of its result with the capacity after the table check, and the container's
length is that of its table's valid symbols. -/
theorem resultBeyondCapacityRaises : Obligations.ResultBeyondCapacityRaises := by
  intro s herr
  refine ⟨fun hcap => ?_, fun htable hcap => ?_, fun htable hcap => ?_,
    fun records osc payload hlen hdist hvalid hcontainer hcap => ?_⟩
  · exact ⟨_, exec_pack_raised herr hcap, s.raised_raise .pack _ _, rfl, s.framed_raise (by decide) _⟩
  · exact ⟨_, exec_decode_raised_capacity herr htable hcap, s.raised_raise .decode _ _, rfl,
      s.framed_raise (by decide) _⟩
  · exact ⟨_, exec_wrcont_raised_capacity herr htable (s.containerLength_eq ▸ hcap), s.raised_raise .wrcont _ _, rfl,
      s.framed_raise (by decide) _⟩
  · have hparse := parseContainer_complete (c := s.accept.container) hlen hdist hcontainer
    have hcheck : checkTable (validEntries (recordCells records [])) = .ok () :=
      checkTable_eq_ok.2 ((offender_validEntries_eq_none fun _ => recordOffends_iff hdist).2 hvalid)
    exact exec_rdcont_raised herr (runRdcont_of_payload_beyond_capacity hparse hcheck hcap)

end Sys2Proof.Machine
end
